-- ==== Sys2Proof/Word.lean ====
section
/-! DEFINITION. The word types of the block: the 32-bit bus word and command word (R62, R80), the
23-bit byte address (R60), the byte, and the bit pattern of an IEEE 754 binary64 value (R11, R65). -/

namespace Sys2Proof

/-- A bus data word, a register's content or a command word: 32 bits (R62, R22, R80). -/
abbrev Word := BitVec 32

/-- A byte address inside the block: ADDR_W = 23 bits (R60). -/
abbrev Addr := BitVec 23

/-- One byte of a word (R66). -/
abbrev Byte := BitVec 8

/-- The bit pattern of a binary64 value: bit 63 sign, bits 62:52 exponent, bits 51:0 fraction (R65). -/
abbrev F64 := BitVec 64

end Sys2Proof
end

