-- ==== Sys2Proof/Config.lean ====
section
/-! DEFINITION. What one implementation of the block fixes: the parameters of 00_scope.md R7, and the
values the spec leaves unspecified (93_implementation_defined.md U1 to U3). An OPEN parameter and an
unspecified value is a constant without a body, so that nothing can be proved of its value.
DEPTH has the value the spec fixes. -/

namespace Sys2Proof

/-- The two bit buffers (R42). -/
inductive BitBuf where
  | ba
  | bb
deriving DecidableEq, Repr

/-- The two sample buffers (R43). -/
inductive SampleBuf where
  | x
  | y
deriving DecidableEq, Repr

/-- The arithmetic operations whose result can be a NaN (R11, R109). -/
inductive FloatOp where
  | add
  | sub
  | mul
  | div
  | sqrt
deriving DecidableEq, Repr

/-- `DEPTH`, the number of entries of each buffer, at the value the spec fixes: 2^18 (R7, D5; log 8). -/
def Config.depth : Nat := 262144

/-- `F_LN`, natural logarithm, OPEN (R7, R113; log 6). -/
opaque Config.fLn : F64 → F64

/-- `F_COS`, cosine, OPEN (R7, R113; log 6). -/
opaque Config.fCos : F64 → F64

/-- `F_LOG10`, base-10 logarithm, OPEN (R7, R113; log 6). -/
opaque Config.fLog10 : F64 → F64

/-- `F_POW10`, q to 10^q, OPEN (R7, R113; log 6). -/
opaque Config.fPow10 : F64 → F64

/-- `UNIFORM(seed, k)`, the deterministic uniform generator, OPEN (R7, R131; log 7). -/
opaque Config.uniform : BitVec 32 → Nat → F64

/-- The sign of a NaN that an operation produces on the given operands: a free value (R109, U3; log 5). -/
opaque Config.nanSign : FloatOp → F64 → F64 → Bool

/-- The fraction, less one, of a NaN that an operation produces on the given operands: a free value among
the 2^52 - 1 non-zero fractions (R109, U3; log 5). -/
opaque Config.nanFraction : FloatOp → F64 → F64 → Fin (4503599627370494 + 1)

/-- Bit `j` of a bit buffer after the `n`-th reset, before anything wrote it: a free value, one draw per
reset and entry (R49, R201, U1; log 2). -/
opaque Config.resetBit : Nat → BitBuf → Nat → Bool

/-- The byte at a byte address of a sample buffer's window after the `n`-th reset, before anything
wrote it: a free value, one draw per reset and byte (R49, R201, U1; log 2). -/
opaque Config.resetByte : Nat → SampleBuf → Nat → Byte

/-- The `n`-th word that a host read of the running command's write set returns: a free value, fresh at
each such read (R71, R105, U2; log 4). -/
opaque Config.busyWord : Nat → Word

end Sys2Proof
end

