-- ==== Sys2Proof/Syntax.lean ====
section
/-! DEFINITION. The commands, the block's instructions (R18, R83): one constructor per row of the opcode
table. No command has an operand field (R82). Beside them what a host program is written in: the bus
transactions (R10), and the events whose order is an execution (R70, R188). -/

namespace Sys2Proof

/-- The eight commands of the opcode map (R83). -/
inductive Instr where
  /-- 0x01, R121. -/
  | noisePower
  /-- 0x02, R122. -/
  | ebn0
  /-- 0x03, R132. -/
  | noiseAdd
  /-- 0x04, R141. -/
  | encode
  /-- 0x05, R143. -/
  | decode
  /-- 0x06, R145. -/
  | modulate
  /-- 0x07, R149. -/
  | demodulate
  /-- 0x08, R170. -/
  | snrMeasure
deriving DecidableEq, Repr

/-- The modulation schemes (R2, R23). -/
inductive Modulation where
  | bpsk
  | qpsk
  | qam16
deriving DecidableEq, Repr

/-- The coding schemes (R2, R23). -/
inductive Coding where
  | none
  | convolutional
deriving DecidableEq, Repr

/-- The error codes a command can raise (R181). Code 0, NONE, is the absence of an error. -/
inductive ErrorCode where
  | illegalCommand
  | unsupportedScheme
  | capacity
  | lengthMismatch
  | emptyInput
deriving DecidableEq, Repr

/-- The registers of the register block, by name (R22). -/
inductive Reg where
  | ctrl
  | cmd
  | status
  | errcode
  | lenBa
  | lenBb
  | lenX
  | lenY
  | seed
  | capacity
  | snrDbLo
  | snrDbHi
  | bitrateLo
  | bitrateHi
  | bandwidthLo
  | bandwidthHi
  | sigpwrLo
  | sigpwrHi
  | noisepwrLo
  | noisepwrHi
  | ebn0Lo
  | ebn0Hi
  | measSnrLo
  | measSnrHi
deriving DecidableEq, Repr

/-- What a mapped word address selects (R60): a register, a reserved word of the register block (R40),
word `w` of a bit buffer (R64), or the low or high word of entry `i` of a sample buffer (R65). -/
inductive Location where
  | register (r : Reg)
  | reserved
  | bitWord (b : BitBuf) (w : Nat)
  | sampleLo (b : SampleBuf) (i : Nat)
  | sampleHi (b : SampleBuf) (i : Nat)
deriving DecidableEq, Repr

/-- One host bus transaction of four bytes (R10, R62). -/
inductive Transaction where
  | read (a : Addr)
  | write (a : Addr) (v : Word)
deriving DecidableEq, Repr

/-- The response of a bus transaction (R10, R63): `none` before the first one. -/
inductive Response where
  | none
  | ok
  | data (v : Word)
  | busErr
deriving DecidableEq, Repr

/-- One event of an execution (R70, R188, R200): a host transaction, the engine's completion step, or a
reset. -/
inductive Event where
  | host (t : Transaction)
  | engine
  | reset
deriving DecidableEq, Repr

/-- The engine phase (R45). -/
inductive Phase where
  | idle
  | pending (w : Word)
deriving DecidableEq, Repr

end Sys2Proof
end

