-- ==== Sys2Proof/WellFormed.lean ====
section
/-! DEFINITION. Which commands, command words and bus addresses are well formed. A command has no
operand, so every command is (R82). The checks the spec makes on a command WORD are those of R84; on the
address of a transaction, that of R61. -/

namespace Sys2Proof

/-- Every command is well formed: no command has an operand (R82). -/
def Instr.wellFormed : Instr → Bool
  | .noisePower => true
  | .ebn0 => true
  | .noiseAdd => true
  | .encode => true
  | .decode => true
  | .modulate => true
  | .demodulate => true
  | .snrMeasure => true

/-- R84: a word is legal iff RSVD, the bits from 8 up, is 0 and OPCODE, the low eight bits, is 1 to 8. -/
def wordLegal (w : Word) : Bool :=
  w.toNat / 256 == 0 && (decide (1 ≤ w.toNat % 256) && decide (w.toNat % 256 ≤ 8))

/-- R61: the address of a transaction is a multiple of 4. -/
def addrAligned (a : Addr) : Bool := a.toNat % 4 == 0

end Sys2Proof
end

