-- ==== Sys2Proof/Decode.lean ====
section
/-! DEFINITION. Decoding a command word (R80, R83, R86), total on every 32-bit word and rejecting by name,
and the encoder (R83). -/

namespace Sys2Proof

/-- Why a command word is illegal (R84). -/
inductive DecodeError where
  /-- A bit of RSVD, [31:8], is set. -/
  | reservedBitsSet
  /-- OPCODE is 0x00. -/
  | opcodeZero
  /-- OPCODE is 0x09 to 0xFF. -/
  | opcodeUnassigned
deriving DecidableEq, Repr

/-- The field OPCODE, bits [7:0] of a command word (R80). -/
def opcodeField (w : Word) : BitVec 8 := w.extractLsb' 0 8

/-- The field RSVD, bits [31:8] of a command word (R80). -/
def rsvdField (w : Word) : BitVec 24 := w.extractLsb' 8 24

/-- The opcode map of R83. -/
def opcodeMap : Nat → Except DecodeError Instr
  | 0 => .error .opcodeZero
  | 1 => .ok .noisePower
  | 2 => .ok .ebn0
  | 3 => .ok .noiseAdd
  | 4 => .ok .encode
  | 5 => .ok .decode
  | 6 => .ok .modulate
  | 7 => .ok .demodulate
  | 8 => .ok .snrMeasure
  | _ + 9 => .error .opcodeUnassigned

/-- `decode(w)` of R86. -/
def decode (w : Word) : Except DecodeError Instr :=
  if rsvdField w = 0 then opcodeMap (opcodeField w).toNat else .error .reservedBitsSet

/-- The opcode of a command (R83). -/
def Instr.opcode : Instr → BitVec 8
  | .noisePower => 0x01
  | .ebn0 => 0x02
  | .noiseAdd => 0x03
  | .encode => 0x04
  | .decode => 0x05
  | .modulate => 0x06
  | .demodulate => 0x07
  | .snrMeasure => 0x08

/-- The full word of a command is `zext_32` of its opcode (R83). -/
def encode (i : Instr) : Word := i.opcode.zeroExtend 32

/-- The instruction that the decoder reads from an instruction of `nbits` bits `w`: a command is one
32-bit word taken whole (R80, R81), the bits above `nbits` zero. -/
def decodeTableWord (nbits w : Nat) : Option Instr :=
  match decode (BitVec.ofNat 32 (w % 2 ^ nbits)) with
  | .ok i => some i
  | .error _ => none

end Sys2Proof
end

