-- ==== Sys2Proof/Machine/State.lean ====
section
/-! DEFINITION. The state of the block as plain data (10_state.md), the reasons for which a step could
stop, and the state after reset (R49, R201).

The four buffers are sparse lists in one canonical form: keys strictly rising, only entries that
something wrote since the last reset. What an unlisted entry reads as is `Config.resetBit` and
`Config.resetByte`, free values (log 2). -/

namespace Sys2Proof.Machine

/-- A memory by key: strictly rising keys, one value each; an unlisted key holds no written value. -/
abbrev Store (α : Type) := List (Nat × α)

/-- A bit buffer's written bits, keyed by the index in the stream (R42, R64). -/
abbrev BitStore := Store Bool

/-- A sample buffer's written bytes, keyed by their byte address (R43, R65, R66). -/
abbrev Memory := List Host.Cell

/-- Faults of a step: none. Nothing stops the block: a command error is reported in ERRCODE and the
machine goes on (R180, R183), and a bad bus access is answered with BUSERR and changes nothing (R186). So
this closed inductive has no constructor, which is safe. -/
inductive Fault
deriving DecidableEq, Repr

/-- Refusals of a step. -/
inductive Refusal where
  /-- An instruction without a meaning, raised by an arm of exec only. Every command has its meaning, so
  no arm raises it; it would be safe. -/
  | notModelled (mnemonic : String)
deriving DecidableEq, Repr

/-- The architectural state (10_state.md R22 to R47), and the model's own fields `agenda`, `response`,
`drawCount` and `resetCount` (logs 1 to 4). STATUS.BUSY is `phase` (R45; log 11). -/
structure State where
  /-- CTRL.MOD (R23). -/
  ctrlMod : BitVec 2
  /-- CTRL.COD (R23). -/
  ctrlCod : BitVec 2
  /-- STATUS.DONE (R25). -/
  statusDone : Bool
  /-- STATUS.ERR (R25). -/
  statusErr : Bool
  /-- STATUS.WERR (R25). -/
  statusWerr : Bool
  /-- ERRCODE[3:0] (R26). -/
  errcode : BitVec 4
  /-- LEN_BA (R27). -/
  lenBa : Word
  /-- LEN_BB (R28). -/
  lenBb : Word
  /-- LEN_X (R29). -/
  lenX : Word
  /-- LEN_Y (R30). -/
  lenY : Word
  /-- SEED (R31). -/
  seed : Word
  /-- SNR_DB (R33). -/
  snrDb : F64
  /-- BITRATE (R34). -/
  bitrate : F64
  /-- BANDWIDTH (R35). -/
  bandwidth : F64
  /-- SIGPWR (R36). -/
  sigpwr : F64
  /-- NOISEPWR (R37). -/
  noisepwr : F64
  /-- EBN0 (R38). -/
  ebn0 : F64
  /-- MEAS_SNR (R39). -/
  measSnr : F64
  /-- The engine phase (R45). -/
  phase : Phase
  /-- Buffer BA (R42). -/
  ba : BitStore
  /-- Buffer BB (R42). -/
  bb : BitStore
  /-- Buffer X (R43). -/
  x : Memory
  /-- Buffer Y (R43). -/
  y : Memory
  /-- The model's: the events still to come, in their order (R70, R188; log 1). -/
  agenda : List Event
  /-- The model's: the response of the last bus transaction (R10; log 3). -/
  response : Response
  /-- The model's: how many unspecified words have been drawn (R71; log 4). -/
  drawCount : Nat
  /-- The model's: which draw of buffer contents is in force (R201; log 2). -/
  resetCount : Nat
deriving DecidableEq, Repr

/-- The machine right after reset: every register of R22 at its reset column, the phase Idle, nothing
written to a buffer (R49, R201). -/
def State.reset : State where
  ctrlMod := 0
  ctrlCod := 0
  statusDone := false
  statusErr := false
  statusWerr := false
  errcode := 0
  lenBa := 0
  lenBb := 0
  lenX := 0
  lenY := 0
  seed := 0
  snrDb := 0
  bitrate := 0
  bandwidth := 0
  sigpwr := 0
  noisepwr := 0
  ebn0 := 0
  measSnr := 0
  phase := .idle
  ba := []
  bb := []
  x := []
  y := []
  agenda := []
  response := .none
  drawCount := 0
  resetCount := 0

end Sys2Proof.Machine
end

