-- ==== Sys2Proof/Machine/Flags.lean ====
section
/-! DEFINITION. The block's flags: STATUS, ERRCODE and the CTRL fields as words, and what acceptance, a
completion and a write while busy do to them (R23, R25, R26, R101, R102, R104, R183). The block has no
condition codes (R48). -/

namespace Sys2Proof.Machine

/-- STATUS.BUSY: 1 exactly while the phase is Pending (R25, R45; log 11). -/
def isBusy (s : State) : Bool :=
  match s.phase with
  | .idle => false
  | .pending _ => true

/-- A flag as a number. -/
def flagBit (b : Bool) : Nat := if b then 1 else 0

/-- STATUS as it reads: BUSY, DONE, ERR, WERR in bits 0 to 3, zero above (R25). -/
def statusWord (s : State) : Word :=
  BitVec.ofNat 32
    (flagBit (isBusy s) + 2 * flagBit s.statusDone + 4 * flagBit s.statusErr + 8 * flagBit s.statusWerr)

/-- ERRCODE as it reads: the code in bits [3:0], zero above (R26). -/
def errcodeWord (s : State) : Word := s.errcode.zeroExtend 32

/-- CTRL as it reads: MOD in [1:0], COD in [3:2], zero above (R23). -/
def ctrlWord (s : State) : Word := (s.ctrlCod ++ s.ctrlMod).zeroExtend 32

/-- The number of an error code (R181). -/
def errorNumber : ErrorCode → BitVec 4
  | .illegalCommand => 1
  | .unsupportedScheme => 2
  | .capacity => 3
  | .lengthMismatch => 4
  | .emptyInput => 5

/-- A mapped write while BUSY sets WERR and nothing else (R104). -/
def setWerr (s : State) : State := { s with statusWerr := true }

/-- The flags and the phase at acceptance of the command word `w`: BUSY set, DONE, ERR, WERR and ERRCODE
cleared (R101). -/
def acceptCommand (w : Word) (s : State) : State :=
  { s with
    statusDone := false
    statusErr := false
    statusWerr := false
    errcode := 0
    phase := .pending w }

/-- The flags and the phase at a completion without error; WERR keeps its value (R102). -/
def flagsSuccess (s : State) : State :=
  { s with
    errcode := 0
    statusErr := false
    statusDone := true
    phase := .idle }

/-- The flags and the phase at a completion with error `e`; WERR keeps its value (R183). -/
def flagsError (e : ErrorCode) (s : State) : State :=
  { s with
    errcode := errorNumber e
    statusErr := true
    statusDone := true
    phase := .idle }

end Sys2Proof.Machine
end

