-- ==== Sys2Proof/Machine/Ops.lean ====
section
/-! DEFINITION. The named operations over the buffers and the registers, the completion of a command with
and without error, and reset.

A command error is what the block has for an exception (R180, R189): `complete` is the one operation that
takes it. There is no return from one (R190): the next accepted command clears its traces
(`acceptCommand`). -/

namespace Sys2Proof.Machine

/-! ### Sparse memories -/

/-- The value written under a key, if any. -/
def storeGet {α : Type} : Store α → Nat → Option α
  | [], _ => none
  | (k, v) :: rest, q => if q = k then some v else storeGet rest q

/-- Write a value under a key, keeping the keys strictly rising. -/
def storeSet {α : Type} : Store α → Nat → α → Store α
  | [], q, u => [(q, u)]
  | (k, v) :: rest, q, u =>
    if q < k then (q, u) :: (k, v) :: rest
    else if q = k then (q, u) :: rest
    else (k, v) :: storeSet rest q u

/-- Write a sequence of values under consecutive keys from `q` on. -/
def storeSetMany {α : Type} (m : Store α) (q : Nat) : List α → Store α
  | [] => m
  | u :: rest => storeSetMany (storeSet m q u) (q + 1) rest

/-- The canonical form of a memory with keys from `lo` up to `hi`: strictly rising, in range. An unlisted
key holds no written value, so no listed entry equals what an unlisted one holds. -/
abbrev Store.wf {α : Type} (lo hi : Nat) (m : Store α) : Prop :=
  m.Pairwise (fun c d => c.1 < d.1) ∧ ∀ c ∈ m, lo ≤ c.1 ∧ c.1 < hi

/-! ### Buffers -/

/-- Window base of a bit buffer (R60, R64). -/
def bitBase : BitBuf → Nat
  | .ba => 0x100000
  | .bb => 0x200000

/-- Bytes of a bit buffer's window: DEPTH/8 (R60). -/
def bitWindow : Nat := Config.depth / 8

/-- Window base of a sample buffer (R60, R65). -/
def sampleBase : SampleBuf → Nat
  | .x => 0x400000
  | .y => 0x600000

/-- Bytes of a sample buffer's window: 8·DEPTH (R60). -/
def sampleWindow : Nat := 8 * Config.depth

/-- The written bits of a bit buffer. -/
def bitStore (s : State) : BitBuf → BitStore
  | .ba => s.ba
  | .bb => s.bb

/-- Replace the written bits of a bit buffer. -/
def setBitStore (s : State) (b : BitBuf) (m : BitStore) : State :=
  match b with
  | .ba => { s with ba := m }
  | .bb => { s with bb := m }

/-- The written bytes of a sample buffer. -/
def sampleStore (s : State) : SampleBuf → Memory
  | .x => s.x
  | .y => s.y

/-- Replace the written bytes of a sample buffer. -/
def setSampleStore (s : State) (b : SampleBuf) (m : Memory) : State :=
  match b with
  | .x => { s with x := m }
  | .y => { s with y := m }

/-- All four buffers are in canonical form, inside their windows (R60). -/
abbrev Memory.wf (s : State) : Prop :=
  (Store.wf 0 Config.depth s.ba ∧ Store.wf 0 Config.depth s.bb) ∧
    (Store.wf (sampleBase .x) (sampleBase .x + sampleWindow) s.x ∧
      Store.wf (sampleBase .y) (sampleBase .y + sampleWindow) s.y)

/-- `BA[j]`, `BB[j]` (R9, R42): what was written, else the bit drawn at reset (R49). -/
def bitAt (s : State) (b : BitBuf) (j : Nat) : Bool :=
  (storeGet (bitStore s b) j).getD (Config.resetBit s.resetCount b j)

/-- Write a sequence of bits to the entries from `start` on (R44). -/
def putBits (s : State) (b : BitBuf) (start : Nat) (out : List Bool) : State :=
  setBitStore s b (storeSetMany (bitStore s b) start out)

/-- The byte at address `a` of a sample buffer's window (R65, R66): what was written, else the byte drawn
at reset (R49). -/
def sampleByte (s : State) (b : SampleBuf) (a : Nat) : Byte :=
  (storeGet (sampleStore s b) a).getD (Config.resetByte s.resetCount b a)

/-- Byte `k` of a word, its bits [8k+7:8k] (R66). -/
def byteOf (v : Word) (k : Nat) : Byte := v.extractLsb' (8 * k) 8

/-- The word at byte address `a` of a sample buffer's window, little-endian (R66). -/
def sampleWord (s : State) (b : SampleBuf) (a : Nat) : Word :=
  ((sampleByte s b (a + 3) ++ sampleByte s b (a + 2)) ++ sampleByte s b (a + 1)) ++ sampleByte s b a

/-- The four bytes of a word, in the order of their addresses (R66). -/
def wordBytes (v : Word) : List Byte := [byteOf v 0, byteOf v 1, byteOf v 2, byteOf v 3]

/-- Write consecutive bytes of a sample buffer's window from address `a` on. -/
def putSampleBytes (s : State) (b : SampleBuf) (a : Nat) (bytes : List Byte) : State :=
  setSampleStore s b (storeSetMany (sampleStore s b) a bytes)

/-- Write the word at byte address `a` of a sample buffer's window (R65, R66). -/
def putSampleWord (s : State) (b : SampleBuf) (a : Nat) (v : Word) : State :=
  putSampleBytes s b a (wordBytes v)

/-- Bits [31:0] of a binary64 pattern, the `_LO` half (R22, R66). -/
def loHalf (v : F64) : Word := v.extractLsb' 0 32

/-- Bits [63:32] of a binary64 pattern, the `_HI` half (R22, R66). -/
def hiHalf (v : F64) : Word := v.extractLsb' 32 32

/-- The 64-bit value `{hi, lo}` (R9). -/
def joinHalves (hi lo : Word) : F64 := hi ++ lo

/-- Byte address of the low word of entry `i` (R65). -/
def entryAddr (b : SampleBuf) (i : Nat) : Nat := sampleBase b + 8 * i

/-- `X[i]`, `Y[i]` (R9, R43). -/
def sampleAt (s : State) (b : SampleBuf) (i : Nat) : F64 :=
  joinHalves (sampleWord s b (entryAddr b i + 4)) (sampleWord s b (entryAddr b i))

/-- The eight bytes of a binary64 value, the low word's first (R66). -/
def sampleBytes (v : F64) : List Byte := wordBytes (loHalf v) ++ wordBytes (hiHalf v)

/-- Write a sequence of samples to the entries from `start` on (R9, R44). -/
def putSamples (s : State) (b : SampleBuf) (start : Nat) (out : List F64) : State :=
  putSampleBytes s b (entryAddr b start) (out.flatMap sampleBytes)

/-- A sequence of bits as a number, the first bit the lowest (R64). -/
def bitsToNat : List Bool → Nat
  | [] => 0
  | v :: rest => flagBit v + 2 * bitsToNat rest

/-- `read_word` of word `w` of a bit buffer (R64). -/
def bitWord (s : State) (b : BitBuf) (w : Nat) : Word :=
  BitVec.ofNat 32 (bitsToNat ((List.range 32).map (fun k => bitAt s b (32 * w + k))))

/-- `write_word` of word `w` of a bit buffer (R64). -/
def putBitWord (s : State) (b : BitBuf) (w : Nat) (v : Word) : State :=
  putBits s b (32 * w) ((List.range 32).map (fun k => v.getLsbD k))

/-- One byte of the buffers' windows as the bus lays them out (R60, R64 to R66): what address `a` holds,
`none` where no buffer entry stands. -/
def byteAt (s : State) (a : Nat) : Option Byte :=
  if bitBase .ba ≤ a ∧ a < bitBase .ba + bitWindow then
    some (BitVec.ofNat 8 (bitsToNat ((List.range 8).map (fun k => bitAt s .ba (8 * (a - bitBase .ba) + k)))))
  else if bitBase .bb ≤ a ∧ a < bitBase .bb + bitWindow then
    some (BitVec.ofNat 8 (bitsToNat ((List.range 8).map (fun k => bitAt s .bb (8 * (a - bitBase .bb) + k)))))
  else if sampleBase .x ≤ a ∧ a < sampleBase .x + sampleWindow then some (sampleByte s .x a)
  else if sampleBase .y ≤ a ∧ a < sampleBase .y + sampleWindow then some (sampleByte s .y a)
  else none

/-! ### Registers -/

/-- The value a register reads as (R22 to R39). CMD is write only and reads 0 (R24); CAPACITY reads DEPTH
(R32). -/
def readReg (s : State) : Reg → Word
  | .ctrl => ctrlWord s
  | .cmd => 0
  | .status => statusWord s
  | .errcode => errcodeWord s
  | .lenBa => s.lenBa
  | .lenBb => s.lenBb
  | .lenX => s.lenX
  | .lenY => s.lenY
  | .seed => s.seed
  | .capacity => BitVec.ofNat 32 Config.depth
  | .snrDbLo => loHalf s.snrDb
  | .snrDbHi => hiHalf s.snrDb
  | .bitrateLo => loHalf s.bitrate
  | .bitrateHi => hiHalf s.bitrate
  | .bandwidthLo => loHalf s.bandwidth
  | .bandwidthHi => hiHalf s.bandwidth
  | .sigpwrLo => loHalf s.sigpwr
  | .sigpwrHi => hiHalf s.sigpwr
  | .noisepwrLo => loHalf s.noisepwr
  | .noisepwrHi => hiHalf s.noisepwr
  | .ebn0Lo => loHalf s.ebn0
  | .ebn0Hi => hiHalf s.ebn0
  | .measSnrLo => loHalf s.measSnr
  | .measSnrHi => hiHalf s.measSnr

/-- The effect of a host write of `v` to a register while idle: a write of CMD accepts the command (R24,
R101), a read-only register changes nothing (R22), each half of a pair changes alone (R41). -/
def writeReg (s : State) (r : Reg) (v : Word) : State :=
  match r with
  | .ctrl => { s with ctrlMod := v.extractLsb' 0 2, ctrlCod := v.extractLsb' 2 2 }
  | .cmd => acceptCommand v s
  | .status => s
  | .errcode => s
  | .lenBa => { s with lenBa := v }
  | .lenBb => { s with lenBb := v }
  | .lenX => { s with lenX := v }
  | .lenY => { s with lenY := v }
  | .seed => { s with seed := v }
  | .capacity => s
  | .snrDbLo => { s with snrDb := joinHalves (hiHalf s.snrDb) v }
  | .snrDbHi => { s with snrDb := joinHalves v (loHalf s.snrDb) }
  | .bitrateLo => { s with bitrate := joinHalves (hiHalf s.bitrate) v }
  | .bitrateHi => { s with bitrate := joinHalves v (loHalf s.bitrate) }
  | .bandwidthLo => { s with bandwidth := joinHalves (hiHalf s.bandwidth) v }
  | .bandwidthHi => { s with bandwidth := joinHalves v (loHalf s.bandwidth) }
  | .sigpwrLo => s
  | .sigpwrHi => s
  | .noisepwrLo => s
  | .noisepwrHi => s
  | .ebn0Lo => s
  | .ebn0Hi => s
  | .measSnrLo => s
  | .measSnrHi => s

/-- Write an output bit sequence to BB and its length to LEN_BB (R44). -/
def outputBits (s : State) (out : List Bool) : State :=
  { putBits s .bb 0 out with lenBb := BitVec.ofNat 32 out.length }

/-- Write an output sample sequence to X and its length to LEN_X (R44). -/
def outputX (s : State) (out : List F64) : State :=
  { putSamples s .x 0 out with lenX := BitVec.ofNat 32 out.length }

/-- Write an output sample sequence to Y and its length to LEN_Y (R44). -/
def outputY (s : State) (out : List F64) : State :=
  { putSamples s .y 0 out with lenY := BitVec.ofNat 32 out.length }

/-- SIGPWR and NOISEPWR take the powers just computed (R36, R37). -/
def setPowers (s : State) (ps pn : F64) : State := { s with sigpwr := ps, noisepwr := pn }

/-! ### Completion and reset -/

/-- The completion step's end (R102, R183): on success the writes stand and the flags say so; on error
`e` no write is applied (R184) and the flags report `e`. -/
def complete (s : State) (outcome : Except ErrorCode State) : Host.Outcome State Fault Refusal :=
  match outcome with
  | .ok t => .next (flagsSuccess t)
  | .error e => .next (flagsError e s)

/-- A reset at any point (R200, R201): every register at its reset value, the phase Idle, a pending
command abandoned, a new draw of buffer contents. What lies outside the block (the events to come, the
last response, the draws made) stays (log 14). -/
def resetBlock (s : State) : State :=
  { State.reset with
    agenda := s.agenda
    response := s.response
    drawCount := s.drawCount
    resetCount := s.resetCount + 1 }

end Sys2Proof.Machine
end

