-- ==== Sys2Proof/Machine/Bus.lean ====
section
/-! DEFINITION. The host's side of the block: the address map (R60), a read and a write transaction (R61 to
R65), and what they do while a command is pending (R71, R104 to R106). -/

namespace Sys2Proof.Machine

/-- The register at a word offset of the register block; the other offsets are reserved (R22, R40). -/
def regAt : Nat → Option Reg
  | 0x00 => some .ctrl
  | 0x04 => some .cmd
  | 0x08 => some .status
  | 0x0C => some .errcode
  | 0x10 => some .lenBa
  | 0x14 => some .lenBb
  | 0x18 => some .lenX
  | 0x1C => some .lenY
  | 0x20 => some .seed
  | 0x24 => some .capacity
  | 0x28 => some .snrDbLo
  | 0x2C => some .snrDbHi
  | 0x30 => some .bitrateLo
  | 0x34 => some .bitrateHi
  | 0x38 => some .bandwidthLo
  | 0x3C => some .bandwidthHi
  | 0x40 => some .sigpwrLo
  | 0x44 => some .sigpwrHi
  | 0x48 => some .noisepwrLo
  | 0x4C => some .noisepwrHi
  | 0x50 => some .ebn0Lo
  | 0x54 => some .ebn0Hi
  | 0x58 => some .measSnrLo
  | 0x5C => some .measSnrHi
  | _ => none

/-- What an offset of the register block selects (R22, R40). -/
def regLocation (off : Nat) : Location :=
  match regAt off with
  | some r => .register r
  | none => .reserved

/-- What an offset inside a sample buffer's window selects (R65). -/
def sampleLocation (b : SampleBuf) (off : Nat) : Location :=
  if off % 8 = 0 then .sampleLo b (off / 8) else .sampleHi b (off / 8)

/-- The address map (R60): what an aligned address selects, `none` if it is unmapped. -/
def mapped (n : Nat) : Option Location :=
  if n < 0x100 then some (regLocation n)
  else if bitBase .ba ≤ n ∧ n < bitBase .ba + bitWindow then some (.bitWord .ba ((n - bitBase .ba) / 4))
  else if bitBase .bb ≤ n ∧ n < bitBase .bb + bitWindow then some (.bitWord .bb ((n - bitBase .bb) / 4))
  else if sampleBase .x ≤ n ∧ n < sampleBase .x + sampleWindow then
    some (sampleLocation .x (n - sampleBase .x))
  else if sampleBase .y ≤ n ∧ n < sampleBase .y + sampleWindow then
    some (sampleLocation .y (n - sampleBase .y))
  else none

/-- What a transaction's address selects: `none`, and so BUSERR, if it is misaligned or unmapped (R61,
R63). -/
def locate (a : Addr) : Option Location :=
  if addrAligned a then mapped a.toNat else none

/-- `read_word` (R22, R40, R64, R65). -/
def readLocation (s : State) : Location → Word
  | .register r => readReg s r
  | .reserved => 0
  | .bitWord b w => bitWord s b w
  | .sampleLo b i => sampleWord s b (entryAddr b i)
  | .sampleHi b i => sampleWord s b (entryAddr b i + 4)

/-- `write_word` (R22, R40, R64, R65). -/
def writeLocation (s : State) (loc : Location) (v : Word) : State :=
  match loc with
  | .register r => writeReg s r v
  | .reserved => s
  | .bitWord b w => putBitWord s b w v
  | .sampleLo b i => putSampleWord s b (entryAddr b i) v
  | .sampleHi b i => putSampleWord s b (entryAddr b i + 4) v

/-- The registers of a command's write set (R106). -/
def writeSetRegs : Instr → List Reg
  | .noisePower => [.sigpwrLo, .sigpwrHi, .noisepwrLo, .noisepwrHi]
  | .ebn0 => [.sigpwrLo, .sigpwrHi, .noisepwrLo, .noisepwrHi, .ebn0Lo, .ebn0Hi]
  | .noiseAdd => [.lenY, .sigpwrLo, .sigpwrHi, .noisepwrLo, .noisepwrHi]
  | .encode => [.lenBb]
  | .decode => [.lenBb]
  | .modulate => [.lenX]
  | .demodulate => [.lenBb]
  | .snrMeasure => [.sigpwrLo, .sigpwrHi, .noisepwrLo, .noisepwrHi, .measSnrLo, .measSnrHi]

/-- Every word of BB is in the command's write set (R106). -/
def writesBB : Instr → Bool
  | .noisePower => false
  | .ebn0 => false
  | .noiseAdd => false
  | .encode => true
  | .decode => true
  | .modulate => false
  | .demodulate => true
  | .snrMeasure => false

/-- The sample buffer whose every word is in the command's write set (R106). -/
def writesSamples : Instr → Option SampleBuf
  | .noisePower => none
  | .ebn0 => none
  | .noiseAdd => some .y
  | .encode => none
  | .decode => none
  | .modulate => some .x
  | .demodulate => none
  | .snrMeasure => none

/-- A location is in the write set of a command (R106). -/
def inWriteSet (i : Instr) : Location → Bool
  | .register r => decide (r ∈ writeSetRegs i)
  | .reserved => false
  | .bitWord .ba _ => false
  | .bitWord .bb _ => writesBB i
  | .sampleLo b _ => decide (writesSamples i = some b)
  | .sampleHi b _ => decide (writesSamples i = some b)

/-- A location is in the write set of the pending command; an illegal word's is empty (R106). -/
def inPendingSet (s : State) (loc : Location) : Bool :=
  match s.phase with
  | .idle => false
  | .pending w =>
    match decode w with
    | .ok i => inWriteSet i loc
    | .error _ => false

/-- A read of a mapped location: its value, or while a command is pending a fresh unspecified word for a
location of the write set (R71, R105). Nothing else changes (R68). -/
def busRead (s : State) (loc : Location) : State :=
  if inPendingSet s loc then
    { s with response := .data (Config.busyWord s.drawCount), drawCount := s.drawCount + 1 }
  else { s with response := .data (readLocation s loc) }

/-- A write of a mapped location: dropped with WERR set while BUSY (R104), else `write_word`. -/
def busWrite (s : State) (loc : Location) (v : Word) : State :=
  if isBusy s then { setWerr s with response := .ok }
  else { writeLocation s loc v with response := .ok }

/-- `MemRead(a, 4)` and `MemWrite(a, 4, v)` (R63): BUSERR changes no state of the block (R186). -/
def transaction (t : Transaction) (s : State) : State :=
  match t with
  | .read a =>
    match locate a with
    | none => { s with response := .busErr }
    | some loc => busRead s loc
  | .write a v =>
    match locate a with
    | none => { s with response := .busErr }
    | some loc => busWrite s loc v

end Sys2Proof.Machine
end

