-- ==== Sys2Proof/Machine/Float.lean ====
section
/-! DEFINITION. Binary64 arithmetic (R11, R109): IEEE 754-2008, round to nearest, ties to even, no fused
operation, no flush to zero, no visible exception flags. The semantics of IEEE 754 are general knowledge
by the spec's own words (93_implementation_defined.md G1; log 12).

Every finite binary64 value is an integer multiple of 2^-1074, its UNIT. Values are taken as signed
numbers of units, the exact result is an integer or a ratio of integers of units, and one rounding
function brings it back to a pattern. -/

namespace Sys2Proof.Machine

/-- A binary64 value by its class. A finite value is `magnitude · 2^-1074` with a sign. -/
inductive FVal where
  | nan
  | inf (neg : Bool)
  | fin (neg : Bool) (magnitude : Nat)
deriving DecidableEq, Repr

/-- The pattern of +∞, and of the exponent field all ones. -/
def infPattern : Nat := 0x7FF0000000000000

/-- The magnitude, in units, of a pattern without its sign: subnormal below 2^52, else a 53-bit
significand shifted by the exponent less one. -/
def patternMagnitude (p : Nat) : Nat :=
  if p < 2 ^ 52 then p else (2 ^ 52 + p % 2 ^ 52) <<< (p / 2 ^ 52 - 1)

/-- The sign bit (R65). -/
def signBit (a : F64) : Bool := a.getLsbD 63

/-- The bits below the sign, as a number. -/
def magnitudeBits (a : F64) : Nat := a.toNat % 2 ^ 63

/-- Read a pattern (R65). -/
def unpack (a : F64) : FVal :=
  if magnitudeBits a < infPattern then .fin (signBit a) (patternMagnitude (magnitudeBits a))
  else if magnitudeBits a = infPattern then .inf (signBit a)
  else .nan

/-- The pattern of a sign and the bits below it. -/
def packBits (neg : Bool) (p : Nat) : F64 :=
  BitVec.ofNat 64 ((if neg then 2 ^ 63 else 0) + p)

/-- The integer nearest to `num / den`, ties to the even one. -/
def nearestEven (num den : Nat) : Nat :=
  if den < 2 * (num % den) ∨ (den = 2 * (num % den) ∧ num / den % 2 = 1) then num / den + 1
  else num / den

/-- The exponent, in units, of the last place of the binary64 values around `num / den` units. -/
def ulpExponent (num den : Nat) : Nat := Nat.log2 (num / den) - 52

/-- The pattern of the binary64 value nearest to `num / den` units, ties to even, overflow to infinity
(R109). A significand that rounds up to 2^53 carries into the exponent field. -/
def roundPattern (num den : Nat) : Nat :=
  min infPattern
    (ulpExponent num den * 2 ^ 52 + nearestEven num (den * 2 ^ ulpExponent num den))

/-- Round `num / den` units with a sign to a binary64 value. -/
def roundRatio (neg : Bool) (num den : Nat) : F64 := packBits neg (roundPattern num den)

/-- The NaN an operation produces: any pattern with the exponent all ones and a non-zero fraction, free
(R109, U3; log 5). -/
def nanResult (op : FloatOp) (a b : F64) : F64 :=
  packBits (Config.nanSign op a b) (infPattern + ((Config.nanFraction op a b).val + 1))

/-- +0.0 (R11). -/
def fzero : F64 := 0x0000000000000000

/-- The signed number of units of a finite value. -/
def signedUnits (neg : Bool) (m : Nat) : Int := if neg then -(m : Int) else (m : Int)

/-- The exact sum of two finite values, rounded; an exact zero sum is -0.0 only when both operands are
negative. -/
def addFinite (na : Bool) (ma : Nat) (nb : Bool) (mb : Nat) : F64 :=
  let s := signedUnits na ma + signedUnits nb mb
  if s = 0 then packBits (na && nb) 0 else roundRatio (decide (s < 0)) s.natAbs 1

/-- IEEE 754 addition of `a` and `b'`, where `b'` is the second operand with the sign the operation gives
it. A NaN result is the operation's own on its operands `a` and `b`. -/
def addWith (op : FloatOp) (a b b' : F64) : F64 :=
  match unpack a, unpack b' with
  | .nan, _ => nanResult op a b
  | .inf _, .nan => nanResult op a b
  | .fin _ _, .nan => nanResult op a b
  | .inf na, .inf nb => if na = nb then packBits na infPattern else nanResult op a b
  | .inf na, .fin _ _ => packBits na infPattern
  | .fin _ _, .inf nb => packBits nb infPattern
  | .fin na ma, .fin nb mb => addFinite na ma nb mb

/-- `fneg(a)`: flips the sign bit (R11). -/
def fneg (a : F64) : F64 := a ^^^ 0x8000000000000000

/-- `fadd(a, b)` (R11). -/
def fadd (a b : F64) : F64 := addWith .add a b b

/-- `fsub(a, b)` (R11). -/
def fsub (a b : F64) : F64 := addWith .sub a b (fneg b)

/-- `fmul(a, b)` (R11). -/
def fmul (a b : F64) : F64 :=
  match unpack a, unpack b with
  | .nan, _ => nanResult .mul a b
  | .inf _, .nan => nanResult .mul a b
  | .fin _ _, .nan => nanResult .mul a b
  | .inf na, .inf nb => packBits (na ^^ nb) infPattern
  | .inf na, .fin nb mb => if mb = 0 then nanResult .mul a b else packBits (na ^^ nb) infPattern
  | .fin na ma, .inf nb => if ma = 0 then nanResult .mul a b else packBits (na ^^ nb) infPattern
  | .fin na ma, .fin nb mb => roundRatio (na ^^ nb) (ma * mb) (2 ^ 1074)

/-- `fdiv(a, b)` (R11). -/
def fdiv (a b : F64) : F64 :=
  match unpack a, unpack b with
  | .nan, _ => nanResult .div a b
  | .inf _, .nan => nanResult .div a b
  | .fin _ _, .nan => nanResult .div a b
  | .inf _, .inf _ => nanResult .div a b
  | .inf na, .fin nb _ => packBits (na ^^ nb) infPattern
  | .fin na _, .inf nb => packBits (na ^^ nb) 0
  | .fin na ma, .fin nb mb =>
    if mb = 0 then
      if ma = 0 then nanResult .div a b else packBits (na ^^ nb) infPattern
    else roundRatio (na ^^ nb) (ma * 2 ^ 1074) mb

/-- Integer square root, one bit of the root at a time from bit `k - 1` down, on top of the root `r`
found so far. -/
def isqrtFrom : Nat → Nat → Nat → Nat
  | 0, _, r => r
  | k + 1, n, r =>
    isqrtFrom k n (if (r + 2 ^ k) * (r + 2 ^ k) ≤ n then r + 2 ^ k else r)

/-- The largest `r` with `r * r ≤ n`, for `n` below 2^164. -/
def isqrt (n : Nat) : Nat := isqrtFrom 82 n 0

/-- Half the number of low bits that the square root of `n` units² can leave out of its radicand. -/
def sqrtShift (n : Nat) : Nat := (Nat.log2 n - 160) / 2

/-- Twice the square root of a positive magnitude, in units: exact when it is an integer, else with the
last bit 1 for the part cut off. The radicand in units² is the magnitude times 2^1074. -/
def sqrtTwice (m : Nat) : Nat :=
  let n := m * 2 ^ 1074
  let h := sqrtShift n
  let q := n / 2 ^ (2 * h)
  let r := isqrt q
  (2 * r + (if r * r * 2 ^ (2 * h) = n then 0 else 1)) * 2 ^ h

/-- `fsqrt(a)` (R11): the square root of -0.0 is -0.0, of any other negative value a NaN. -/
def fsqrt (a : F64) : F64 :=
  match unpack a with
  | .nan => nanResult .sqrt a a
  | .inf true => nanResult .sqrt a a
  | .inf false => packBits false infPattern
  | .fin neg m =>
    if m = 0 then packBits neg 0
    else if neg then nanResult .sqrt a a
    else roundRatio false (sqrtTwice m) 2

/-- The order of the values that are no NaN, as numbers of units; an infinity lies beyond every finite
magnitude, which is below 2^2098. -/
def orderKey : FVal → Option Int
  | .nan => none
  | .inf neg => some (signedUnits neg (2 ^ 2098))
  | .fin neg m => some (signedUnits neg m)

/-- `fgt(a, b)`: ordered greater than, false on a NaN (R11). -/
def fgt (a b : F64) : Bool :=
  match orderKey (unpack a), orderKey (unpack b) with
  | some ka, some kb => decide (kb < ka)
  | some _, none => false
  | none, _ => false

/-- `flt(a, b)`: ordered less than, false on a NaN (R11). -/
def flt (a b : F64) : Bool := fgt b a

/-- `feq(a, b)`: IEEE equality, +0.0 equals -0.0, false on a NaN (R11). -/
def feq (a b : F64) : Bool :=
  match orderKey (unpack a), orderKey (unpack b) with
  | some ka, some kb => decide (ka = kb)
  | some _, none => false
  | none, _ => false

/-- `f64(n)`: the binary64 value of the integer `n` (R11). -/
def f64 (n : Nat) : F64 := roundRatio false (n * 2 ^ 1074) 1

/-- The value is a NaN: exponent all ones, fraction non-zero (R109). -/
def isNaN (a : F64) : Bool := decide (infPattern < magnitudeBits a)

/-- The value is finite: neither a NaN nor an infinity. -/
def isFinite (a : F64) : Bool := decide (magnitudeBits a < infPattern)

/-- The value of a finite pattern as a signed number of units. -/
def unitsOf (a : F64) : Int := signedUnits (signBit a) (patternMagnitude (magnitudeBits a))

/-- +∞ (R39). -/
def fposInf : F64 := 0x7FF0000000000000

/-- 1.0. -/
def fone : F64 := 0x3FF0000000000000

/-- -1.0. -/
def fnegOne : F64 := 0xBFF0000000000000

/-- 10.0. -/
def ften : F64 := 0x4024000000000000

/-- -2.0. -/
def fnegTwo : F64 := 0xC000000000000000

/-- `A_QPSK` of R112, `fdiv(fsqrt(2.0), 2.0)`. -/
def aQpsk : F64 := 0x3FE6A09E667F3BCD

/-- `Q_M3` of R112, `fmul(-3.0, INV_SQRT10)`. -/
def qM3 : F64 := 0xBFEE5B9D136C6D96

/-- `Q_M1` of R112, `fmul(-1.0, INV_SQRT10)`. -/
def qM1 : F64 := 0xBFD43D136248490F

/-- `Q_P1` of R112, `fmul(1.0, INV_SQRT10)`. -/
def qP1 : F64 := 0x3FD43D136248490F

/-- `Q_P3` of R112, `fmul(3.0, INV_SQRT10)`. -/
def qP3 : F64 := 0x3FEE5B9D136C6D96

/-- `T_QAM` of R112, `fmul(2.0, INV_SQRT10)`. -/
def tQam : F64 := 0x3FE43D136248490F

/-- `TWO_PI` of R112, `fmul(2.0, π64)`. -/
def twoPi : F64 := 0x401921FB54442D18

end Sys2Proof.Machine
end

