-- ==== Sys2Proof/Machine/Operands.lean ====
section
/-! DEFINITION. What the commands read, and the datapath functions they share: input sequences, the
scheme pair (R23, R50), the capacity checks (R182), the powers (R110, R111, R120), decibels (R115) and the
hard decision (R114). -/

namespace Sys2Proof.Machine

/-- `B[0..n)` (R9). -/
def bitSeq (s : State) (b : BitBuf) (n : Nat) : List Bool := (List.range n).map (bitAt s b)

/-- `S[0..n)` (R9). -/
def sampleSeq (s : State) (b : SampleBuf) (n : Nat) : List F64 := (List.range n).map (sampleAt s b)

/-- The modulation of CTRL.MOD; 3 is reserved (R23). -/
def modulationOf (m : BitVec 2) : Option Modulation :=
  match m.toNat with
  | 0 => some .bpsk
  | 1 => some .qpsk
  | 2 => some .qam16
  | _ => none

/-- The coding of CTRL.COD; 2 and 3 are reserved (R23). -/
def codingOf (c : BitVec 2) : Option Coding :=
  match c.toNat with
  | 0 => some .none
  | 1 => some .convolutional
  | _ => none

/-- The scheme pair a ChannelModel command runs with, `none` if either field is reserved (R140 item 1). -/
def schemeOf (s : State) : Option (Modulation × Coding) :=
  match modulationOf s.ctrlMod, codingOf s.ctrlCod with
  | some m, some c => some (m, c)
  | some _, none => none
  | none, _ => none

/-- Bits per symbol (R50). -/
def bitsPerSymbol : Modulation → Nat
  | .bpsk => 1
  | .qpsk => 2
  | .qam16 => 4

/-- `cpb(COD)`, coded bits per input bit (R50). -/
def codedPerBit : Coding → Nat
  | .none => 1
  | .convolutional => 2

/-- A length above DEPTH (R182 checks 3 and 6). -/
def overCapacity (n : Nat) : Bool := decide (Config.depth < n)

/-- `acc_n` of R110: the squares summed from +0.0 in index order. -/
def sumSquares (seq : List F64) : F64 := seq.foldl (fun acc v => fadd acc (fmul v v)) fzero

/-- `meansq(s)` (R110). -/
def meansq (seq : List F64) : F64 := fdiv (sumSquares seq) (f64 seq.length)

/-- `meansqdiff(a, b)` (R111): `a` the original, `b` the noisy sequence. -/
def meansqdiff (a b : List F64) : F64 := meansq (List.zipWith (fun va vb => fsub vb va) a b)

/-- `targetNoisePower(ps, snr)` (R120). -/
def targetNoisePower (ps snr : F64) : F64 := fdiv ps (Config.fPow10 (fdiv snr ften))

/-- `db(p, q)` (R115). -/
def db (p q : F64) : F64 := fmul ften (Config.fLog10 (fdiv p q))

/-- `hard(x)` (R114). -/
def hard (v : F64) : Bool := fgt v fzero

end Sys2Proof.Machine
end

