-- ==== Sys2Proof/Machine/Analyzer.lean ====
section
/-! DEFINITION. The measured SNR (44_analyzer.md). -/

namespace Sys2Proof.Machine

/-- The measured SNR in dB of R170: +∞ if the noise power is exactly 0. -/
def measuredSnr (ps pn : F64) : F64 := if feq pn fzero then fposInf else db ps pn

/-- SNR_MEASURE (R170). -/
def execSnrMeasure (s : State) : Host.Outcome State Fault Refusal :=
  let n := s.lenX.toNat
  complete s <|
    if overCapacity n || overCapacity s.lenY.toNat then .error .capacity
    else if s.lenX ≠ s.lenY then .error .lengthMismatch
    else if n = 0 then .error .emptyInput
    else
      let ps := meansq (sampleSeq s .x n)
      let pn := meansqdiff (sampleSeq s .x n) (sampleSeq s .y n)
      .ok { setPowers s ps pn with measSnr := measuredSnr ps pn }

end Sys2Proof.Machine
end

