-- ==== Sys2Proof/Machine/Awgn.lean ====
section
/-! DEFINITION. The Gaussian noise generator (42_awgn.md). -/

namespace Sys2Proof.Machine

/-- `gauss(u1, u2)`, the cosine branch of Box-Muller (R130). -/
def gauss (u1 u2 : F64) : F64 :=
  fmul (fsqrt (fmul fnegTwo (Config.fLn u1))) (Config.fCos (fmul twoPi u2))

/-- The normal sample of output `i`: it takes values `2i` and `2i + 1` of the stream of `seed` (R131). -/
def noiseSample (seed : Word) (i : Nat) : F64 :=
  gauss (Config.uniform seed (2 * i)) (Config.uniform seed (2 * i + 1))

/-- `Y[i]` of R132: sample `i` of X plus the scaled noise. -/
def noisySample (s : State) (sd : F64) (i : Nat) : F64 :=
  fadd (sampleAt s .x i) (fmul sd (noiseSample s.seed i))

/-- NOISE_ADD (R132). -/
def execNoiseAdd (s : State) : Host.Outcome State Fault Refusal :=
  let n := s.lenX.toNat
  complete s <|
    if overCapacity n then .error .capacity
    else if n = 0 then .ok { s with lenY := 0 }
    else
      let ps := meansq (sampleSeq s .x n)
      let pn := targetNoisePower ps s.snrDb
      let sd := fsqrt pn
      .ok (setPowers (outputY s ((List.range n).map (noisySample s sd))) ps pn)

end Sys2Proof.Machine
end

