-- ==== Sys2Proof/Machine/ChannelModel.lean ====
section
/-! DEFINITION. The channel model: convolutional code, symbol mapper and slicer, and the commands ENCODE,
DECODE, MODULATE and DEMODULATE (43_channel_model.md). -/

namespace Sys2Proof.Machine

/-- The first output bit of `convStep`, generator 7: taps on the input and two delays (R142). -/
def convC0 (reg : BitVec 3) (u : Bool) : Bool := (u ^^ reg.getLsbD 0) ^^ reg.getLsbD 1

/-- The second output bit of `convStep`, generator 5 (R142). -/
def convC1 (reg : BitVec 3) (u : Bool) : Bool := u ^^ reg.getLsbD 1

/-- The next register of `convStep`: the input enters bit 0, the oldest bit leaves (R142). -/
def convNext (reg : BitVec 3) (u : Bool) : BitVec 3 := (reg <<< 1) ||| BitVec.ofNat 3 (flagBit u)

/-- The convolutional encoder threaded over a bit sequence from register `reg` (R144). -/
def convEncode (reg : BitVec 3) : List Bool → List Bool
  | [] => []
  | u :: rest => convC0 reg u :: convC1 reg u :: convEncode (convNext reg u) rest

/-- `encodeSeq(COD, b)`; the register starts at 0 (R144, R46). -/
def encodeSeq (c : Coding) (b : List Bool) : List Bool :=
  match c with
  | .none => b
  | .convolutional => convEncode 0 b

/-- `decodePairs(h)`; a trailing unpaired bit is dropped (R144). -/
def decodePairs : List Bool → List Bool
  | h0 :: h1 :: rest => (h0 ^^ h1) :: decodePairs rest
  | [_] => []
  | [] => []

/-- The decoder that a coding selects, on hard bits (R143, R149). -/
def decodeHard (c : Coding) (h : List Bool) : List Bool :=
  match c with
  | .none => h
  | .convolutional => decodePairs h

/-- `mapBPSK(b)` (R146). -/
def mapBpsk (b : Bool) : F64 := if b then fone else fnegOne

/-- One axis of a QPSK symbol (R147). -/
def mapQpsk (b : Bool) : F64 := if b then aQpsk else fneg aQpsk

/-- `lev(i)` of R148, by the index's high and low bit. -/
def qamLevel (hi lo : Bool) : F64 :=
  match hi, lo with
  | false, false => qM3
  | false, true => qM1
  | true, false => qP3
  | true, true => qP1

/-- QPSK mapping of a sequence: pairs; a trailing unpaired bit is dropped (R147, R145). -/
def mapPairs : List Bool → List F64
  | b0 :: b1 :: rest => mapQpsk b0 :: mapQpsk b1 :: mapPairs rest
  | [_] => []
  | [] => []

/-- 16-QAM mapping of a sequence: groups of four, I and Q stored twice; a trailing incomplete group is
dropped (R148, R145). -/
def mapGroups : List Bool → List F64
  | b0 :: b1 :: b2 :: b3 :: rest =>
    qamLevel b0 b1 :: qamLevel b2 b3 :: qamLevel b0 b1 :: qamLevel b2 b3 :: mapGroups rest
  | [_, _, _] => []
  | [_, _] => []
  | [_] => []
  | [] => []

/-- The modulator of R145 on the coded sequence. -/
def mapSymbols (m : Modulation) (c : List Bool) : List F64 :=
  match m with
  | .bpsk => c.map mapBpsk
  | .qpsk => mapPairs c
  | .qam16 => mapGroups c

/-- The low bit of `slice16(x)`: 0 on the outer levels (R150). -/
def sliceLow (v : F64) : Bool := !(fgt v tQam || flt v (fneg tQam))

/-- The 16-QAM slicer over a sequence: entries 4g and 4g+1 of each group, the duplicates unread; an
incomplete group is ignored (R149, R150). -/
def sliceGroups : List F64 → List Bool
  | i :: q :: _ :: _ :: rest => hard i :: sliceLow i :: hard q :: sliceLow q :: sliceGroups rest
  | [_, _, _] => []
  | [_, _] => []
  | [_] => []
  | [] => []

/-- The hard bits `h` of R149. -/
def sliceSymbols (m : Modulation) (v : List F64) : List Bool :=
  match m with
  | .bpsk => v.map hard
  | .qpsk => (v.take (2 * (v.length / 2))).map hard
  | .qam16 => sliceGroups v

/-- ENCODE (R141). -/
def execEncode (s : State) : Host.Outcome State Fault Refusal :=
  let n := s.lenBa.toNat
  complete s <|
    match schemeOf s with
    | none => .error .unsupportedScheme
    | some (_, cod) =>
      if overCapacity n then .error .capacity
      else if overCapacity (codedPerBit cod * n) then .error .capacity
      else .ok (outputBits s (encodeSeq cod (bitSeq s .ba n)))

/-- DECODE (R143). -/
def execDecode (s : State) : Host.Outcome State Fault Refusal :=
  let n := s.lenY.toNat
  complete s <|
    match schemeOf s with
    | none => .error .unsupportedScheme
    | some (_, cod) =>
      if overCapacity n then .error .capacity
      else .ok (outputBits s (decodeHard cod ((sampleSeq s .y n).map hard)))

/-- MODULATE (R145); the coded sequence is not written to BB. -/
def execModulate (s : State) : Host.Outcome State Fault Refusal :=
  let n := s.lenBa.toNat
  complete s <|
    match schemeOf s with
    | none => .error .unsupportedScheme
    | some (md, cod) =>
      if overCapacity n then .error .capacity
      else if overCapacity (codedPerBit cod * n) then .error .capacity
      else .ok (outputX s (mapSymbols md (encodeSeq cod (bitSeq s .ba n))))

/-- DEMODULATE (R149); the decoder takes the hard bits, not the samples. -/
def execDemodulate (s : State) : Host.Outcome State Fault Refusal :=
  let n := s.lenY.toNat
  complete s <|
    match schemeOf s with
    | none => .error .unsupportedScheme
    | some (md, cod) =>
      if overCapacity n then .error .capacity
      else .ok (outputBits s (decodeHard cod (sliceSymbols md (sampleSeq s .y n))))

end Sys2Proof.Machine
end

