-- ==== Sys2Proof/Machine/SnrController.lean ====
section
/-! DEFINITION. The SNR controller's commands (41_snr_controller.md). -/

namespace Sys2Proof.Machine

/-- NOISE_POWER (R121). -/
def execNoisePower (s : State) : Host.Outcome State Fault Refusal :=
  let n := s.lenX.toNat
  complete s <|
    if overCapacity n then .error .capacity
    else if n = 0 then .error .emptyInput
    else
      let ps := meansq (sampleSeq s .x n)
      .ok (setPowers s ps (targetNoisePower ps s.snrDb))

/-- The Eb/N0 in dB of R122, from the two powers, the bit rate and the bandwidth. -/
def ebn0Db (ps pn bitrate bandwidth : F64) : F64 := db (fdiv ps bitrate) (fdiv pn bandwidth)

/-- EBN0 (R122). -/
def execEbn0 (s : State) : Host.Outcome State Fault Refusal :=
  let n := s.lenX.toNat
  complete s <|
    if overCapacity n then .error .capacity
    else if n = 0 then .error .emptyInput
    else
      let ps := meansq (sampleSeq s .x n)
      let pn := targetNoisePower ps s.snrDb
      .ok { setPowers s ps pn with ebn0 := ebn0Db ps pn s.bitrate s.bandwidth }

end Sys2Proof.Machine
end

