-- ==== Sys2Proof/Machine/Dispatch.lean ====
section
/-! DEFINITION. The meaning of each command: its completion step (R102), by the rule of the command. -/

namespace Sys2Proof.Machine

def exec (i : Instr) (s : State) : Host.Outcome State Fault Refusal :=
  match i with
  | .noisePower => Sys2Proof.Machine.execNoisePower s
  | .ebn0 => Sys2Proof.Machine.execEbn0 s
  | .noiseAdd => Sys2Proof.Machine.execNoiseAdd s
  | .encode => Sys2Proof.Machine.execEncode s
  | .decode => Sys2Proof.Machine.execDecode s
  | .modulate => Sys2Proof.Machine.execModulate s
  | .demodulate => Sys2Proof.Machine.execDemodulate s
  | .snrMeasure => Sys2Proof.Machine.execSnrMeasure s

end Sys2Proof.Machine
end

