-- ==== Sys2Proof/Machine/Engine.lean ====
section
/-! DEFINITION. The engine's completion step (R102), and what each event of an execution does (R70, R188). -/

namespace Sys2Proof.Machine

/-- The completion step (R102): decode the pending word and perform the command; an illegal word completes
with ILLEGAL_COMMAND (R84). With nothing pending the engine does nothing (log 1). -/
def engineStep (s : State) : Host.Outcome State Fault Refusal :=
  match s.phase with
  | .idle => .next s
  | .pending w =>
    match decode w with
    | .ok i => exec i s
    | .error _ => complete s (.error .illegalCommand)

/-- One event (R70, R188, R200). -/
def performEvent (e : Event) (s : State) : Host.Outcome State Fault Refusal :=
  match e with
  | .host t => .next (transaction t s)
  | .engine => engineStep s
  | .reset => .next (resetBlock s)

end Sys2Proof.Machine
end

