-- ==== Sys2Proof/Machine/Step.lean ====
section
/-! DEFINITION. One step of an execution (R70, R188): the next event of the agenda, and where no event is
left the engine, so that a pending command completes (R107). -/

namespace Sys2Proof.Machine

/-- One step: the first event of the agenda takes place; with an empty agenda the engine steps (R107). -/
def step (s : State) : Host.Outcome State Fault Refusal :=
  match s.agenda with
  | [] => engineStep s
  | e :: rest => performEvent e { s with agenda := rest }

/-- `s` with the command word `w` accepted (R101) and the engine's completion the next event: the very
next step fetches and performs it (log 10). -/
def State.withFetchWord (s : State) (nbits w : Nat) : State :=
  { acceptCommand (BitVec.ofNat 32 (w % 2 ^ nbits)) s with agenda := .engine :: s.agenda }

end Sys2Proof.Machine
end

