-- ==== Sys2Proof/Machine/HostProgram.lean ====
section
/-! DEFINITION. The notation of host programs (30_encoding.md R87, R88) as functions to events. They are
the host's transactions in order, no part of the block's state. -/

namespace Sys2Proof.Machine

/-- The offset of a register (R22). -/
def regOffset : Reg → Nat
  | .ctrl => 0x00
  | .cmd => 0x04
  | .status => 0x08
  | .errcode => 0x0C
  | .lenBa => 0x10
  | .lenBb => 0x14
  | .lenX => 0x18
  | .lenY => 0x1C
  | .seed => 0x20
  | .capacity => 0x24
  | .snrDbLo => 0x28
  | .snrDbHi => 0x2C
  | .bitrateLo => 0x30
  | .bitrateHi => 0x34
  | .bandwidthLo => 0x38
  | .bandwidthHi => 0x3C
  | .sigpwrLo => 0x40
  | .sigpwrHi => 0x44
  | .noisepwrLo => 0x48
  | .noisepwrHi => 0x4C
  | .ebn0Lo => 0x50
  | .ebn0Hi => 0x54
  | .measSnrLo => 0x58
  | .measSnrHi => 0x5C

/-- `MemWrite(n, 4, v)` as an event. -/
def wrAt (n : Nat) (v : Word) : Event := .host (.write (BitVec.ofNat 23 n) v)

/-- `MemRead(n, 4)` as an event. -/
def rdAt (n : Nat) : Event := .host (.read (BitVec.ofNat 23 n))

/-- `wr NAME, v` (R87). -/
def wr (r : Reg) (v : Word) : Event := wrAt (regOffset r) v

/-- `rd NAME` (R87). -/
def rd (r : Reg) : Event := rdAt (regOffset r)

/-- `wr BUF+k, v` for BA or BB (R87). -/
def wrBits (b : BitBuf) (k : Nat) (v : Word) : Event := wrAt (bitBase b + k) v

/-- `rd BUF+k` for BA or BB (R87). -/
def rdBits (b : BitBuf) (k : Nat) : Event := rdAt (bitBase b + k)

/-- `cmd MNEMONIC` (R87). -/
def cmd (i : Instr) : Event := wr .cmd (encode i)

/-- `poll` (R88) where the engine completes after `k` reads that still see BUSY: the last read sees the
end of the command. -/
def pollAfter (k : Nat) : List Event := List.replicate k (rd .status) ++ [.engine, rd .status]

/-- `run MNEMONIC` (R88), with the completion after `k` reads of STATUS. -/
def runAfter (k : Nat) (i : Instr) : List Event := cmd i :: pollAfter k

/-- `wr64 BUF[i], d` (R88). -/
def wr64 (b : SampleBuf) (i : Nat) (d : F64) : List Event :=
  [wrAt (entryAddr b i) (loHalf d), wrAt (entryAddr b i + 4) (hiHalf d)]

/-- `rd64 BUF[i]` (R88). -/
def rd64 (b : SampleBuf) (i : Nat) : List Event := [rdAt (entryAddr b i), rdAt (entryAddr b i + 4)]

/-- `wr64 NAME, d` (R88), by the two halves' registers. -/
def wr64Reg (lo hi : Reg) (d : F64) : List Event := [wr lo (loHalf d), wr hi (hiHalf d)]

/-- `rd64 NAME` (R88), by the two halves' registers. -/
def rd64Reg (lo hi : Reg) : List Event := [rd lo, rd hi]

/-- `wrbits BUF, [b0, ...]` (R88) for a sequence of `32 · w` bits or fewer, from byte offset `k` on; unused
high bits are written 0. -/
def wrbitsFrom (b : BitBuf) : Nat → Nat → List Bool → List Event
  | 0, _, _ => []
  | w + 1, k, bits =>
    wrBits b k (BitVec.ofNat 32 (bitsToNat (bits.take 32))) :: wrbitsFrom b w (k + 4) (bits.drop 32)

/-- `wrbits BUF, [b0, ...]` (R88): ceil(n/32) words. -/
def wrbits (b : BitBuf) (bits : List Bool) : List Event :=
  wrbitsFrom b ((bits.length + 31) / 32) 0 bits

/-- The number of a modulation in CTRL.MOD (R23, R88). -/
def modulationNumber : Modulation → Nat
  | .bpsk => 0
  | .qpsk => 1
  | .qam16 => 2

/-- The number of a coding in CTRL.COD (R23, R88). -/
def codingNumber : Coding → Nat
  | .none => 0
  | .convolutional => 1

/-- `setmode MOD, COD` (R88). -/
def setmode (m : Modulation) (c : Coding) : Event :=
  wr .ctrl (BitVec.ofNat 32 ((codingNumber c <<< 2) ||| modulationNumber m))

end Sys2Proof.Machine
end

