-- ==== Sys2Proof/Safety.lean ====
section
/-! DEFINITION. The terms in which statements speak of runs: the invariant every step keeps, reachable
states, the number of a run's steps, and the named properties of the OPEN functions (R113). -/

namespace Sys2Proof.Machine

/-- What STATUS, ERRCODE and the phase always satisfy together: while a command is pending DONE, ERR and
ERRCODE are 0 (R25, R101, R105); ERR implies DONE (R25); ERR is set exactly with a non-zero code, which is
one of R181. -/
abbrev State.flagsOk (s : State) : Prop :=
  (isBusy s = true → s.statusDone = false ∧ s.statusErr = false ∧ s.errcode = 0) ∧
    (s.statusErr = true → s.statusDone = true) ∧
      (s.statusErr = true ↔ s.errcode ≠ 0) ∧ s.errcode.toNat ≤ 5

/-- The model's invariant: flags consistent, buffers in canonical form inside their windows. -/
abbrev State.Inv (s : State) : Prop := s.flagsOk ∧ Memory.wf s

/-- A step stops nowhere: it answers a next state. -/
def answersNext (o : Host.Outcome State Fault Refusal) : Prop := ∃ t, o = .next t

/-- `k` steps from `s`, if none of them stops. -/
def runSteps : Nat → State → Option State
  | 0, s => some s
  | k + 1, s =>
    match step s with
    | .next t => runSteps k t
    | .fault _ => none
    | .refused _ => none

/-- The engine is the next to act: the agenda begins with its event, or no event is left (R107). `rest` is
what remains of the agenda afterwards. -/
abbrev engineNext (s : State) (rest : List Event) : Prop :=
  s.agenda = .engine :: rest ∨ (s.agenda = [] ∧ rest = [])

/-- The mapped addresses with the default DEPTH, as R60 lists them. -/
abbrev addrMapped (n : Nat) : Prop :=
  n ≤ 0xFF ∨ (0x100000 ≤ n ∧ n ≤ 0x107FFF) ∨ (0x200000 ≤ n ∧ n ≤ 0x207FFF) ∨
    (0x400000 ≤ n ∧ n ≤ 0x5FFFFF) ∨ (0x600000 ≤ n ∧ n ≤ 0x7FFFFF)

/-- The address of a transaction. -/
def transactionAddr : Transaction → Addr
  | .read a => a
  | .write a _ => a

/-- `BA[k - d]`, and 0 before the start of the stream: what the encoder register holds `d` inputs back
(R46, R142). -/
def priorBit (s : State) (k d : Nat) : Bool := if d ≤ k then bitAt s .ba (k - d) else false

/-- Entry `j` of the coded stream of BA, by its taps: the bit itself without coding; with it, entries `2k`
and `2k + 1` come from input `k`, with taps 111 and 101 (R141, R142). -/
def codedBit (s : State) (c : Coding) (j : Nat) : Bool :=
  match c with
  | .none => bitAt s .ba j
  | .convolutional =>
    if j % 2 = 0 then (bitAt s .ba (j / 2) ^^ priorBit s (j / 2) 1) ^^ priorBit s (j / 2) 2
    else bitAt s .ba (j / 2) ^^ priorBit s (j / 2) 2

/-- The entries of whole symbols among `n` (R145, R149): 1, 2 or 4 a symbol. -/
def wholeSymbols (m : Modulation) (n : Nat) : Nat :=
  match m with
  | .bpsk => n
  | .qpsk => 2 * (n / 2)
  | .qam16 => 4 * (n / 4)

/-- `lev(i)` of R148, by the index. -/
def levelOf : Nat → F64
  | 0 => qM3
  | 1 => qM1
  | 2 => qP3
  | _ => qP1

/-- Entry `j` of the symbols of a coded stream `c` (R146 to R148). -/
def symbolEntry (m : Modulation) (c : Nat → Bool) (j : Nat) : F64 :=
  match m with
  | .bpsk => if c j then fone else fnegOne
  | .qpsk => if c j then aQpsk else fneg aQpsk
  | .qam16 =>
    if j % 2 = 0 then levelOf (2 * flagBit (c (4 * (j / 4))) + flagBit (c (4 * (j / 4) + 1)))
    else levelOf (2 * flagBit (c (4 * (j / 4) + 2)) + flagBit (c (4 * (j / 4) + 3)))

/-- Entry `j` of the hard bits of Y (R149): the sign of the entry, or for 16-QAM the high and low bits of
entries `4g` and `4g + 1`. -/
def hardBit (s : State) (m : Modulation) (j : Nat) : Bool :=
  match m with
  | .bpsk => hard (sampleAt s .y j)
  | .qpsk => hard (sampleAt s .y j)
  | .qam16 =>
    if j % 4 = 0 then hard (sampleAt s .y (4 * (j / 4)))
    else if j % 4 = 1 then sliceLow (sampleAt s .y (4 * (j / 4)))
    else if j % 4 = 2 then hard (sampleAt s .y (4 * (j / 4) + 1))
    else sliceLow (sampleAt s .y (4 * (j / 4) + 1))

/-- The number of decoded bits of `n` hard bits (R143, R149). -/
def decodedLength (c : Coding) (n : Nat) : Nat :=
  match c with
  | .none => n
  | .convolutional => n / 2

/-- Decoded bit `k` of the hard bits `h` (R144). -/
def decodedBit (c : Coding) (h : Nat → Bool) (k : Nat) : Bool :=
  match c with
  | .none => h k
  | .convolutional => h (2 * k) ^^ h (2 * k + 1)

/-- A ChannelModel command (R182 check 2). -/
def usesScheme (i : Instr) : Bool := i = .encode ∨ i = .decode ∨ i = .modulate ∨ i = .demodulate

/-- An input length register of the command is above DEPTH (R182 check 3). -/
def inputTooLong (i : Instr) (s : State) : Bool :=
  match i with
  | .encode => Config.depth < s.lenBa.toNat
  | .modulate => Config.depth < s.lenBa.toNat
  | .decode => Config.depth < s.lenY.toNat
  | .demodulate => Config.depth < s.lenY.toNat
  | .noisePower => Config.depth < s.lenX.toNat
  | .ebn0 => Config.depth < s.lenX.toNat
  | .noiseAdd => Config.depth < s.lenX.toNat
  | .snrMeasure => Config.depth < s.lenX.toNat ∨ Config.depth < s.lenY.toNat

/-- The rows of R182 after the first, in order: whether the check applies and fails, and its code. -/
def checkTable (i : Instr) (s : State) : List (Bool × BitVec 4) :=
  [ (usesScheme i && (decide (s.ctrlMod.toNat = 3) || decide (2 ≤ s.ctrlCod.toNat)), 2),
    (inputTooLong i s, 3),
    (decide (i = .snrMeasure) && decide (s.lenX ≠ s.lenY), 4),
    (decide (i = .noisePower ∨ i = .ebn0 ∨ i = .snrMeasure) && decide (s.lenX.toNat = 0), 5),
    (decide (i = .encode ∨ i = .modulate) &&
      decide (Config.depth < (if s.ctrlCod.toNat = 1 then 2 else 1) * s.lenBa.toNat), 3) ]

/-- The code of the first row that fails, 0 if none does (R182). -/
def firstFailing : List (Bool × BitVec 4) → BitVec 4
  | [] => 0
  | (true, e) :: _ => e
  | (false, _) :: rest => firstFailing rest

/-- What a register reads as after a write of `v` while idle: all of `v`, its low four bits for CTRL, the
old value for a read-only register, 0 for CMD (R22 to R39). -/
def readBack (s : State) (r : Reg) (v : Word) : Word :=
  if r = .ctrl then v &&& 0xF
  else if r = .cmd then 0
  else if r ∈ [Reg.lenBa, .lenBb, .lenX, .lenY, .seed, .snrDbLo, .snrDbHi, .bitrateLo, .bitrateHi,
      .bandwidthLo, .bandwidthHi] then v
  else readReg s r

/-- The number of units from which rounding overflows: half a last place above the largest finite value,
(2^53 - 1) · 2^2045 units (R11, R109; IEEE 754 by log 12). -/
def overflowUnits : Nat := (2 ^ 54 - 1) * 2 ^ 2044

/-- `v` is `num / den` units rounded to nearest, ties to even (R11, R109; IEEE 754 by log 12): finite exactly
below the overflow bound and else an infinity, with the sign of the exact value where that is not 0; and a
finite `v` is at least as near as every finite value, with last bit 0 where another is as near. -/
def isRoundingOf (v : F64) (num : Int) (den : Nat) : Prop :=
  (isFinite v = true ↔ num.natAbs < overflowUnits * den) ∧
    (isFinite v = false → magnitudeBits v = infPattern) ∧
    (num ≠ 0 → signBit v = decide (num < 0)) ∧
    ∀ y : F64, isFinite v = true → isFinite y = true →
      (unitsOf v * (den : Int) - num).natAbs ≤ (unitsOf y * (den : Int) - num).natAbs ∧
        ((unitsOf v * (den : Int) - num).natAbs = (unitsOf y * (den : Int) - num).natAbs →
          unitsOf y ≠ unitsOf v → v.getLsbD 0 = false)

/-- The infinity of a sign. -/
def infinityOf (neg : Bool) : F64 := if neg then 0xFFF0000000000000 else 0x7FF0000000000000

/-- The zero of a sign. -/
def zeroOf (neg : Bool) : F64 := if neg then 0x8000000000000000 else 0x0000000000000000

/-- What a host read of an address answers (R10, R63). -/
def answerTo (s : State) (a : Addr) : Response := (transaction (.read a) s).response

/-- P-LN1 (R113). -/
def PropLn1 : Prop := Config.fLn fone = fzero

/-- P-LN-HALF (R113). -/
def PropLnHalf : Prop := Config.fLn 0x3FE0000000000000 = 0xBFE62E42FEFA39EF

/-- P-LN-QUARTER (R113). -/
def PropLnQuarter : Prop := Config.fLn 0x3FD0000000000000 = 0xBFF62E42FEFA39EF

/-- P-COS0 (R113). -/
def PropCos0 : Prop := Config.fCos fzero = fone

/-- P-COSPI (R113). -/
def PropCosPi : Prop := Config.fCos 0x400921FB54442D18 = fnegOne

/-- P-POW10 (R113). -/
def PropPow10 : Prop := ∀ k : Nat, k ≤ 22 → Config.fPow10 (f64 k) = f64 (10 ^ k)

/-- P-LOG10 (R113). -/
def PropLog10 : Prop := ∀ k : Nat, k ≤ 22 → Config.fLog10 (f64 (10 ^ k)) = f64 k

/-- P-LOG10-0 (R113). -/
def PropLog10Zero : Prop := Config.fLog10 fzero = 0xFFF0000000000000

/-- P-LOG10-NAN (R113). -/
def PropLog10NaN : Prop := ∀ v : F64, isNaN v = true → isNaN (Config.fLog10 v) = true

end Sys2Proof.Machine
end

