-- ==== Sys2Proof/Certificates/Slice0/Obligations.lean ====
section
/-! DEFINITION. The statements for the provers, from the spec's numbered rules. Each docstring names the
rules; OBLIGATIONS.json gives the rest. -/

open Sys2Proof Sys2Proof.Machine

/-! ### Encoding -/

/-- R83: the opcode map, both ways. -/
def Obligations.OpcodeMapDecodes : Prop :=
  decode 0x00000001 = .ok .noisePower ∧ decode 0x00000002 = .ok .ebn0 ∧
    decode 0x00000003 = .ok .noiseAdd ∧ decode 0x00000004 = .ok .encode ∧
    decode 0x00000005 = .ok .decode ∧ decode 0x00000006 = .ok .modulate ∧
    decode 0x00000007 = .ok .demodulate ∧ decode 0x00000008 = .ok .snrMeasure ∧
    decode 0x00000000 = .error .opcodeZero ∧
    (∀ op : Fin 247, decode (BitVec.ofNat 32 (9 + op.val)) = .error .opcodeUnassigned) ∧
    encode .noisePower = 0x00000001 ∧ encode .ebn0 = 0x00000002 ∧ encode .noiseAdd = 0x00000003 ∧
    encode .encode = 0x00000004 ∧ encode .decode = 0x00000005 ∧ encode .modulate = 0x00000006 ∧
    encode .demodulate = 0x00000007 ∧ encode .snrMeasure = 0x00000008

/-- R86 with R83: the words that decode to a command are exactly the words encoded from it, every command
being well formed; so no bit of a word is dropped. -/
def Obligations.DecodeEncodeAgree : Prop :=
  ∀ (w : Word) (i : Instr), i.wellFormed = true ∧ (decode w = .ok i ↔ w = encode i)

/-- R86: decoding is total; a word is a command iff RSVD is 0 and OPCODE is 1 to 8, and then the command
of that opcode. -/
def Obligations.DecodeTotal : Prop :=
  ∀ w : Word,
    (w.toNat / 256 = 0 ∧ 1 ≤ w.toNat % 256 ∧ w.toNat % 256 ≤ 8 →
        ∃ i, decode w = .ok i ∧ i.opcode.toNat = w.toNat % 256) ∧
      (¬(w.toNat / 256 = 0 ∧ 1 ≤ w.toNat % 256 ∧ w.toNat % 256 ≤ 8) → ∃ e, decode w = .error e)

/-! ### Lifecycle -/

/-- R102: when a pending word decodes to a command and the engine is next, a step is the command's
completion, on the state whose agenda is what remains. The agenda is the model's (log 1). -/
def Obligations.StepRunsDecodedCommand : Prop :=
  ∀ (s : State) (w : Word) (i : Instr) (rest : List Event),
    s.phase = .pending w → decode w = .ok i → i.wellFormed = true → engineNext s rest →
      step s = exec i { s with agenda := rest }

/-- R84: an illegal word is accepted like any other, and completes with ILLEGAL_COMMAND, changing nothing
else. -/
def Obligations.IllegalWordCompletesWithError : Prop :=
  ∀ (s : State) (w : Word) (rest : List Event),
    ¬(w.toNat / 256 = 0 ∧ 1 ≤ w.toNat % 256 ∧ w.toNat % 256 ≤ 8) →
      (s.phase = .idle → s.agenda = .host (.write 4 w) :: rest →
        ∃ t, step s = .next t ∧ t.phase = .pending w ∧ isBusy t = true) ∧
      (s.phase = .pending w → engineNext s rest →
        step s = .next
          { s with agenda := rest, errcode := 1, statusErr := true, statusDone := true, phase := .idle })

/-- R101: a CMD write while idle accepts the word, sets BUSY, clears DONE, ERR, WERR and ERRCODE, and
changes nothing else. -/
def Obligations.CommandWriteIsAccepted : Prop :=
  ∀ (s : State) (w : Word) (rest : List Event),
    s.phase = .idle → s.agenda = .host (.write 4 w) :: rest →
      ∃ t, step s = .next t ∧ isBusy t = true ∧
        t = { s with
          agenda := rest
          response := .ok
          statusDone := false
          statusErr := false
          statusWerr := false
          errcode := 0
          phase := .pending w }

/-- R104: a write of a mapped address while a command is pending changes nothing but WERR. -/
def Obligations.WriteWhileBusyIsDropped : Prop :=
  ∀ (s : State) (w v : Word) (a : Addr) (rest : List Event),
    s.phase = .pending w → a.toNat % 4 = 0 → addrMapped a.toNat → s.agenda = .host (.write a v) :: rest →
      step s = .next { s with agenda := rest, response := .ok, statusWerr := true }

/-- R61 and R186: a misaligned or unmapped transaction answers BUSERR and changes no state of the block. -/
def Obligations.BadAddressAnswersBusErr : Prop :=
  ∀ (s : State) (t : Transaction) (rest : List Event),
    s.agenda = .host t :: rest →
      ((transactionAddr t).toNat % 4 ≠ 0 ∨ ¬addrMapped (transactionAddr t).toNat) →
      step s = .next { s with agenda := rest, response := .busErr }

/-- R63: an aligned transaction to a mapped address is answered OK, a read with a word. -/
def Obligations.MappedAccessIsAnswered : Prop :=
  ∀ (s : State) (a : Addr) (rest : List Event), a.toNat % 4 = 0 → addrMapped a.toNat →
    (∀ v, s.agenda = .host (.write a v) :: rest → ∃ t, step s = .next t ∧ t.response = .ok) ∧
      (s.agenda = .host (.read a) :: rest → ∃ t v, step s = .next t ∧ t.response = .data v)

/-- R68: a read changes no state of the block. -/
def Obligations.ReadHasNoSideEffect : Prop :=
  ∀ (s : State) (a : Addr) (rest : List Event), s.agenda = .host (.read a) :: rest →
    ∃ t, step s = .next t ∧
      t = { s with agenda := rest, response := t.response, drawCount := t.drawCount }

/-- R71 and R105: while a command is pending, a read in its write set answers a fresh unspecified word,
any other read the location's value; STATUS reads BUSY alone with WERR, ERRCODE reads 0. That the word is
Config.busyWord and the draws are counted is the model's choice (log 4, DESIGN CHOICE). -/
def Obligations.ReadsWhileBusy : Prop :=
  ∀ (s : State) (w : Word) (a : Addr) (loc : Location) (rest : List Event),
    s.flagsOk → s.phase = .pending w → locate a = some loc → s.agenda = .host (.read a) :: rest →
      (inPendingSet s loc = true →
        step s = .next
          { s with
            agenda := rest
            response := .data (Config.busyWord s.drawCount)
            drawCount := s.drawCount + 1 }) ∧
      (inPendingSet s loc = false →
        step s = .next { s with agenda := rest, response := .data (readLocation s loc) }) ∧
      readReg s .status = (if s.statusWerr then 0x9 else 0x1) ∧ readReg s .errcode = 0 ∧
      (loc ∈ [Location.register .status, .register .errcode, .register .ctrl, .register .capacity,
          .register .seed, .register .snrDbLo, .register .snrDbHi, .register .bitrateLo,
          .register .bitrateHi, .register .bandwidthLo, .register .bandwidthHi] →
        inPendingSet s loc = false)

/-- R106: the write set of each pending command is exactly its row of the table, an illegal word's is empty;
and a completion changes no location outside the write set but STATUS and ERRCODE. -/
def Obligations.WriteSetCoversEveryChange : Prop :=
  (∀ (s : State) (i : Instr) (loc : Location), s.phase = .pending (encode i) →
    (inPendingSet s loc = true ↔
      match i with
      | .noisePower => loc ∈ [Location.register .sigpwrLo, .register .sigpwrHi, .register .noisepwrLo,
          .register .noisepwrHi]
      | .ebn0 => loc ∈ [Location.register .sigpwrLo, .register .sigpwrHi, .register .noisepwrLo,
          .register .noisepwrHi, .register .ebn0Lo, .register .ebn0Hi]
      | .noiseAdd => loc ∈ [Location.register .lenY, .register .sigpwrLo, .register .sigpwrHi,
          .register .noisepwrLo, .register .noisepwrHi] ∨ ∃ k, loc = .sampleLo .y k ∨ loc = .sampleHi .y k
      | .encode => loc = .register .lenBb ∨ ∃ k, loc = .bitWord .bb k
      | .decode => loc = .register .lenBb ∨ ∃ k, loc = .bitWord .bb k
      | .modulate => loc = .register .lenX ∨ ∃ k, loc = .sampleLo .x k ∨ loc = .sampleHi .x k
      | .demodulate => loc = .register .lenBb ∨ ∃ k, loc = .bitWord .bb k
      | .snrMeasure => loc ∈ [Location.register .sigpwrLo, .register .sigpwrHi, .register .noisepwrLo,
          .register .noisepwrHi, .register .measSnrLo, .register .measSnrHi])) ∧
  (∀ (s : State) (w : Word) (loc : Location), s.phase = .pending w → (∀ i, w ≠ encode i) →
    inPendingSet s loc = false) ∧
  ∀ (s t : State) (w : Word) (rest : List Event) (loc : Location),
    s.phase = .pending w → engineNext s rest → step s = .next t → inPendingSet s loc = false →
      loc ≠ .register .status → loc ≠ .register .errcode → readLocation t loc = readLocation s loc

/-- R108: a pending command is ended only by its completion or by a reset; every other step leaves that
very command pending. -/
def Obligations.PendingEndsByCompletionOrReset : Prop :=
  ∀ (s t : State) (w : Word), s.phase = .pending w → step s = .next t →
    (t.phase = .idle ∧ (engineNext s s.agenda.tail ∨ s.agenda.head? = some .reset)) ∨
      (t.phase = .pending w ∧ ∃ q, s.agenda.head? = some (.host q))

/-! ### Registers and windows -/

/-- R22: what a read of each register's address answers while idle, by the field of the state it shows, with
the places of the fields of CTRL and STATUS (R23, R25, R26). -/
def Obligations.RegistersReadTheirFields : Prop :=
  ∀ s : State, s.phase = .idle →
    answerTo s 0x00 = .data (BitVec.ofNat 32 (s.ctrlMod.toNat + 4 * s.ctrlCod.toNat)) ∧
    answerTo s 0x04 = .data 0 ∧
    answerTo s 0x08 = .data (BitVec.ofNat 32
      ((if s.statusDone then 2 else 0) + (if s.statusErr then 4 else 0) + (if s.statusWerr then 8 else 0))) ∧
    answerTo s 0x0C = .data (BitVec.ofNat 32 s.errcode.toNat) ∧
    answerTo s 0x10 = .data s.lenBa ∧ answerTo s 0x14 = .data s.lenBb ∧
    answerTo s 0x18 = .data s.lenX ∧ answerTo s 0x1C = .data s.lenY ∧
    answerTo s 0x20 = .data s.seed ∧ answerTo s 0x24 = .data 0x00040000 ∧
    answerTo s 0x28 = .data (s.snrDb.extractLsb' 0 32) ∧ answerTo s 0x2C = .data (s.snrDb.extractLsb' 32 32) ∧
    answerTo s 0x30 = .data (s.bitrate.extractLsb' 0 32) ∧
    answerTo s 0x34 = .data (s.bitrate.extractLsb' 32 32) ∧
    answerTo s 0x38 = .data (s.bandwidth.extractLsb' 0 32) ∧
    answerTo s 0x3C = .data (s.bandwidth.extractLsb' 32 32) ∧
    answerTo s 0x40 = .data (s.sigpwr.extractLsb' 0 32) ∧ answerTo s 0x44 = .data (s.sigpwr.extractLsb' 32 32) ∧
    answerTo s 0x48 = .data (s.noisepwr.extractLsb' 0 32) ∧
    answerTo s 0x4C = .data (s.noisepwr.extractLsb' 32 32) ∧
    answerTo s 0x50 = .data (s.ebn0.extractLsb' 0 32) ∧ answerTo s 0x54 = .data (s.ebn0.extractLsb' 32 32) ∧
    answerTo s 0x58 = .data (s.measSnr.extractLsb' 0 32) ∧ answerTo s 0x5C = .data (s.measSnr.extractLsb' 32 32)

/-- R22, R23, R41: the registers' offsets; a register written while idle reads back as its access says, and
no other register changes, the other half of a pair included. -/
def Obligations.RegisterWriteReadsBack : Prop :=
  [Reg.ctrl, .cmd, .status, .errcode, .lenBa, .lenBb, .lenX, .lenY, .seed, .capacity, .snrDbLo, .snrDbHi,
      .bitrateLo, .bitrateHi, .bandwidthLo, .bandwidthHi, .sigpwrLo, .sigpwrHi, .noisepwrLo, .noisepwrHi,
      .ebn0Lo, .ebn0Hi, .measSnrLo, .measSnrHi].map regOffset =
    [0x00, 0x04, 0x08, 0x0C, 0x10, 0x14, 0x18, 0x1C, 0x20, 0x24, 0x28, 0x2C, 0x30, 0x34, 0x38, 0x3C, 0x40, 0x44,
      0x48, 0x4C, 0x50, 0x54, 0x58, 0x5C] ∧
  ∀ (s : State) (r : Reg) (v : Word), s.phase = .idle → r ≠ .cmd →
    ∃ t, transaction (.write (BitVec.ofNat 23 (regOffset r)) v) s = t ∧
      (transaction (.read (BitVec.ofNat 23 (regOffset r))) t).response = .data (readBack s r v) ∧
      (∀ q, q ≠ r →
        (transaction (.read (BitVec.ofNat 23 (regOffset q))) t).response = .data (readReg s q)) ∧
      (∀ a, byteAt t a = byteAt s a) ∧ t.phase = .idle

/-- R40: a reserved offset reads 0; a write changes nothing, but for WERR while busy. -/
def Obligations.ReservedOffsetsReadZero : Prop :=
  ∀ (s : State) (a : Addr) (v : Word), a.toNat % 4 = 0 → 0x60 ≤ a.toNat → a.toNat ≤ 0xFC →
    transaction (.read a) s = { s with response := .data 0 } ∧
      (s.phase = .idle → transaction (.write a v) s = { s with response := .ok }) ∧
      (∀ w, s.phase = .pending w →
        transaction (.write a v) s = { s with response := .ok, statusWerr := true })

/-- R64: the windows' bases (R60); the word at `base + 4w` of a bit buffer is its entries 32w to 32w + 31,
lowest first, for a write and for a read. -/
def Obligations.BitWindowLayout : Prop :=
  (bitBase .ba = 0x100000 ∧ bitBase .bb = 0x200000) ∧
  ∀ (s : State) (b : BitBuf) (w : Nat) (v : Word), s.phase = .idle → w < Config.depth / 32 →
    ∃ t, transaction (.write (BitVec.ofNat 23 (bitBase b + 4 * w)) v) s = t ∧
      t = { setBitStore s b (bitStore t b) with response := .ok } ∧
      (∀ j, bitAt t b j =
        if 32 * w ≤ j ∧ j < 32 * w + 32 then v.getLsbD (j - 32 * w) else bitAt s b j) ∧
      ∃ d, (transaction (.read (BitVec.ofNat 23 (bitBase b + 4 * w))) s).response = .data d ∧
        ∀ k, k < 32 → d.getLsbD k = bitAt s b (32 * w + k)

/-- R65: the windows' bases (R60); the two words of an entry of a sample buffer, the low one at the lower
address; a write of one leaves the other half and every other entry. -/
def Obligations.SampleWindowLayout : Prop :=
  (sampleBase .x = 0x400000 ∧ sampleBase .y = 0x600000 ∧ ∀ b i, entryAddr b i = sampleBase b + 8 * i) ∧
  ∀ (s : State) (b : SampleBuf) (i : Nat) (v : Word), s.phase = .idle → i < Config.depth →
    ∃ lo hi, transaction (.write (BitVec.ofNat 23 (sampleBase b + 8 * i)) v) s = lo ∧
      transaction (.write (BitVec.ofNat 23 (sampleBase b + 8 * i + 4)) v) s = hi ∧
      lo = { setSampleStore s b (sampleStore lo b) with response := .ok } ∧
      hi = { setSampleStore s b (sampleStore hi b) with response := .ok } ∧
      sampleAt lo b i = (sampleAt s b i).extractLsb' 32 32 ++ v ∧
      sampleAt hi b i = v ++ (sampleAt s b i).extractLsb' 0 32 ∧
      (∀ j, j ≠ i → sampleAt lo b j = sampleAt s b j ∧ sampleAt hi b j = sampleAt s b j) ∧
      (transaction (.read (BitVec.ofNat 23 (sampleBase b + 8 * i))) s).response =
        .data ((sampleAt s b i).extractLsb' 0 32) ∧
      (transaction (.read (BitVec.ofNat 23 (sampleBase b + 8 * i + 4))) s).response =
        .data ((sampleAt s b i).extractLsb' 32 32)

/-! ### Reset and the whole machine -/

/-- R201: a reset at any point abandons what is pending, sets every register to its reset value and draws
new buffer contents. What lies outside the block stays (the model's fields, log 14). -/
def Obligations.ResetEventAbandonsAndClears : Prop :=
  ∀ (s : State) (rest : List Event), s.agenda = .reset :: rest →
    ∃ t, step s = .next t ∧ t.phase = .idle ∧
      (∀ r, readReg t r = if r = .capacity then 0x00040000 else 0) ∧
      (∀ b j, bitAt t b j = Config.resetBit (s.resetCount + 1) b j) ∧
      (∀ b a, sampleByte t b a = Config.resetByte (s.resetCount + 1) b a) ∧
      t.agenda = rest ∧ t.response = s.response ∧ t.drawCount = s.drawCount

/-- R49: the state after reset. The buffers' unspecified contents are the model's free values (log 2). -/
def Obligations.ResetStateValues : Prop :=
  State.reset.phase = .idle ∧ (∀ r, readReg State.reset r = if r = .capacity then 0x00040000 else 0) ∧
    (∀ b j, bitAt State.reset b j = Config.resetBit State.reset.resetCount b j) ∧
    ∀ b a, sampleByte State.reset b a = Config.resetByte State.reset.resetCount b a

/-- Nothing stops the block (R180, R186; read from the rules): every step answers a next state. -/
def Obligations.StepAlwaysAnswersNext : Prop := ∀ s, answersNext (step s)

/-- The invariant of the model (R25, R26, R45, R60): flags consistent, buffers canonical, kept by every
step from every state that has it. The buffers' form is the model's (log 2). -/
def Obligations.StepKeepsInvariant : Prop := ∀ s t : State, s.Inv → step s = .next t → t.Inv

/-- The invariant holds after reset (R49). -/
def Obligations.ResetHasInvariant : Prop := State.reset.Inv

/-- R107: after the events of the agenda and one step more, no command is pending. That the engine completes
when no event is left is the model's choice (log 1). -/
def Obligations.EveryRunComesToIdle : Prop :=
  ∀ s : State, ∃ t, runSteps (s.agenda.length + 1) s = some t ∧ t.phase = .idle ∧ t.agenda = []

/-- The memories' canonical form, the model's own (log 2): two that hold the same under every key are equal
data. -/
def Obligations.CanonicalMemoryIsUnique : Prop :=
  ∀ (lo hi : Nat) (m n : Memory), Store.wf lo hi m → Store.wf lo hi n →
    (∀ a, storeGet m a = storeGet n a) → m = n

/-! ### The SNR controller -/

/-- R121: NOISE_POWER, its word, its checks, its result and its frame. -/
def Obligations.NoisePowerRule : Prop :=
  encode .noisePower = 0x00000001 ∧ ∀ s : State,
    (Config.depth < s.lenX.toNat →
      exec .noisePower s =
        .next { s with errcode := 3, statusErr := true, statusDone := true, phase := .idle }) ∧
    (s.lenX.toNat = 0 →
      exec .noisePower s =
        .next { s with errcode := 5, statusErr := true, statusDone := true, phase := .idle }) ∧
    (0 < s.lenX.toNat → s.lenX.toNat ≤ Config.depth →
      ∃ t, exec .noisePower s = .next t ∧
        t = { s with
          sigpwr := meansq ((List.range s.lenX.toNat).map (sampleAt s .x))
          noisepwr := fdiv t.sigpwr (Config.fPow10 (fdiv s.snrDb ften))
          errcode := 0
          statusErr := false
          statusDone := true
          phase := .idle } ∧
        ∀ a, byteAt t a = byteAt s a)

/-- R122: EBN0, its word, its checks, its result and its frame. -/
def Obligations.Ebn0Rule : Prop :=
  encode .ebn0 = 0x00000002 ∧ ∀ s : State,
    (Config.depth < s.lenX.toNat →
      exec .ebn0 s =
        .next { s with errcode := 3, statusErr := true, statusDone := true, phase := .idle }) ∧
    (s.lenX.toNat = 0 →
      exec .ebn0 s =
        .next { s with errcode := 5, statusErr := true, statusDone := true, phase := .idle }) ∧
    (0 < s.lenX.toNat → s.lenX.toNat ≤ Config.depth →
      ∃ t, exec .ebn0 s = .next t ∧
        t = { s with
          sigpwr := meansq ((List.range s.lenX.toNat).map (sampleAt s .x))
          noisepwr := fdiv t.sigpwr (Config.fPow10 (fdiv s.snrDb ften))
          ebn0 := fmul ften
            (Config.fLog10 (fdiv (fdiv t.sigpwr s.bitrate) (fdiv t.noisepwr s.bandwidth)))
          errcode := 0
          statusErr := false
          statusDone := true
          phase := .idle } ∧
        ∀ a, byteAt t a = byteAt s a)

/-- R110 and R111: the mean square is the sum of squares from +0.0 in index order, divided once by the length,
whose binary64 value is exact (R11); the mean square difference is that of the differences, noisy less
original. -/
def Obligations.MeanSquareOrder : Prop :=
  sumSquares [] = fzero ∧
    (∀ (l : List F64) (v : F64), sumSquares (l ++ [v]) = fadd (sumSquares l) (fmul v v)) ∧
    (∀ l : List F64, meansq l = fdiv (sumSquares l) (f64 l.length)) ∧
    (∀ n : Nat, n ≤ 2 ^ 53 → isFinite (f64 n) = true ∧ unitsOf (f64 n) = n * 2 ^ 1074) ∧
    ∀ a b : List F64, a.length = b.length →
      meansqdiff a b =
        meansq ((List.range a.length).map (fun k => fsub (b.getD k fzero) (a.getD k fzero)))

/-! ### The noise generator -/

/-- R132 with R130, R131: NOISE_ADD, its word, its check, its empty case, every output entry and its frame. -/
def Obligations.NoiseAddRule : Prop :=
  encode .noiseAdd = 0x00000003 ∧ ∀ s : State,
    (Config.depth < s.lenX.toNat →
      exec .noiseAdd s =
        .next { s with errcode := 3, statusErr := true, statusDone := true, phase := .idle }) ∧
    (s.lenX.toNat = 0 →
      exec .noiseAdd s =
        .next
          { s with lenY := 0, errcode := 0, statusErr := false, statusDone := true, phase := .idle }) ∧
    (0 < s.lenX.toNat → s.lenX.toNat ≤ Config.depth →
      ∃ t, exec .noiseAdd s = .next t ∧
        t = { s with
          y := t.y
          lenY := s.lenX
          sigpwr := meansq ((List.range s.lenX.toNat).map (sampleAt s .x))
          noisepwr := fdiv t.sigpwr (Config.fPow10 (fdiv s.snrDb ften))
          errcode := 0
          statusErr := false
          statusDone := true
          phase := .idle } ∧
        (∀ i, i < s.lenX.toNat →
          sampleAt t .y i =
            fadd (sampleAt s .x i)
              (fmul (fsqrt t.noisepwr)
                (fmul (fsqrt (fmul fnegTwo (Config.fLn (Config.uniform s.seed (2 * i)))))
                  (Config.fCos (fmul twoPi (Config.uniform s.seed (2 * i + 1))))))) ∧
        (∀ i, s.lenX.toNat ≤ i → sampleAt t .y i = sampleAt s .y i) ∧
        ∀ a, (a < entryAddr .y 0 ∨ entryAddr .y s.lenX.toNat ≤ a) → byteAt t a = byteAt s a)

/-- R133: two NOISE_ADD commands with the same SEED, SNR_DB, length and input write the same output, bit for
bit. For an output that is a NaN this is the model's reading (log 5). -/
def Obligations.SameSeedSameNoise : Prop :=
  ∀ s u : State, u.seed = s.seed → u.snrDb = s.snrDb → u.lenX = s.lenX →
    0 < s.lenX.toNat → s.lenX.toNat ≤ Config.depth →
      (∀ i, i < s.lenX.toNat → sampleAt u .x i = sampleAt s .x i) →
        ∃ t v, exec .noiseAdd s = .next t ∧ exec .noiseAdd u = .next v ∧ v.lenY = t.lenY ∧
          v.sigpwr = t.sigpwr ∧ v.noisepwr = t.noisepwr ∧
          ∀ i, i < s.lenX.toNat → sampleAt v .y i = sampleAt t .y i

/-! ### The channel model -/

/-- R141 with R142, R144: ENCODE, its word, its checks in order, every output bit by its taps, and its frame. -/
def Obligations.EncodeRule : Prop :=
  encode .encode = 0x00000004 ∧ ∀ s : State,
    (s.ctrlMod.toNat = 3 ∨ 2 ≤ s.ctrlCod.toNat →
      exec .encode s =
        .next { s with errcode := 2, statusErr := true, statusDone := true, phase := .idle }) ∧
    ∀ (m : Modulation) (c : Coding), modulationOf s.ctrlMod = some m → codingOf s.ctrlCod = some c →
      (Config.depth < codedPerBit c * s.lenBa.toNat →
        exec .encode s =
          .next { s with errcode := 3, statusErr := true, statusDone := true, phase := .idle }) ∧
      (codedPerBit c * s.lenBa.toNat ≤ Config.depth →
        ∃ t, exec .encode s = .next t ∧
          t = { s with
            bb := t.bb
            lenBb := BitVec.ofNat 32 (codedPerBit c * s.lenBa.toNat)
            errcode := 0
            statusErr := false
            statusDone := true
            phase := .idle } ∧
          t.lenBb.toNat = codedPerBit c * s.lenBa.toNat ∧
          (∀ j, j < t.lenBb.toNat → bitAt t .bb j = codedBit s c j) ∧
          (∀ j, t.lenBb.toNat ≤ j → bitAt t .bb j = bitAt s .bb j) ∧
          ∀ a, (a < bitBase .bb ∨ bitBase .bb + (t.lenBb.toNat + 7) / 8 ≤ a) → byteAt t a = byteAt s a)

/-- R143 with R144: DECODE, its word, its checks in order, every output bit, and its frame. -/
def Obligations.DecodeRule : Prop :=
  encode .decode = 0x00000005 ∧ ∀ s : State,
    (s.ctrlMod.toNat = 3 ∨ 2 ≤ s.ctrlCod.toNat →
      exec .decode s =
        .next { s with errcode := 2, statusErr := true, statusDone := true, phase := .idle }) ∧
    ∀ (m : Modulation) (c : Coding), modulationOf s.ctrlMod = some m → codingOf s.ctrlCod = some c →
      (Config.depth < s.lenY.toNat →
        exec .decode s =
          .next { s with errcode := 3, statusErr := true, statusDone := true, phase := .idle }) ∧
      (s.lenY.toNat ≤ Config.depth →
        ∃ t, exec .decode s = .next t ∧
          t = { s with
            bb := t.bb
            lenBb := BitVec.ofNat 32 (decodedLength c s.lenY.toNat)
            errcode := 0
            statusErr := false
            statusDone := true
            phase := .idle } ∧
          t.lenBb.toNat = decodedLength c s.lenY.toNat ∧
          (∀ k, k < t.lenBb.toNat → bitAt t .bb k = decodedBit c (fun j => hard (sampleAt s .y j)) k) ∧
          (∀ k, t.lenBb.toNat ≤ k → bitAt t .bb k = bitAt s .bb k) ∧
          ∀ a, (a < bitBase .bb ∨ bitBase .bb + (t.lenBb.toNat + 7) / 8 ≤ a) → byteAt t a = byteAt s a)

/-- R145 with R146 to R148: MODULATE, its word, its checks in order, every output entry, and its frame. -/
def Obligations.ModulateRule : Prop :=
  encode .modulate = 0x00000006 ∧ ∀ s : State,
    (s.ctrlMod.toNat = 3 ∨ 2 ≤ s.ctrlCod.toNat →
      exec .modulate s =
        .next { s with errcode := 2, statusErr := true, statusDone := true, phase := .idle }) ∧
    ∀ (m : Modulation) (c : Coding), modulationOf s.ctrlMod = some m → codingOf s.ctrlCod = some c →
      (Config.depth < codedPerBit c * s.lenBa.toNat →
        exec .modulate s =
          .next { s with errcode := 3, statusErr := true, statusDone := true, phase := .idle }) ∧
      (codedPerBit c * s.lenBa.toNat ≤ Config.depth →
        ∃ t, exec .modulate s = .next t ∧
          t = { s with
            x := t.x
            lenX := BitVec.ofNat 32 (wholeSymbols m (codedPerBit c * s.lenBa.toNat))
            errcode := 0
            statusErr := false
            statusDone := true
            phase := .idle } ∧
          t.lenX.toNat = wholeSymbols m (codedPerBit c * s.lenBa.toNat) ∧
          (∀ j, j < t.lenX.toNat → sampleAt t .x j = symbolEntry m (codedBit s c) j) ∧
          (∀ j, t.lenX.toNat ≤ j → sampleAt t .x j = sampleAt s .x j) ∧
          ∀ a, (a < entryAddr .x 0 ∨ entryAddr .x t.lenX.toNat ≤ a) → byteAt t a = byteAt s a)

/-- R149 with R144, R150: DEMODULATE, its word, its checks in order, every output bit, and its frame. -/
def Obligations.DemodulateRule : Prop :=
  encode .demodulate = 0x00000007 ∧ ∀ s : State,
    (s.ctrlMod.toNat = 3 ∨ 2 ≤ s.ctrlCod.toNat →
      exec .demodulate s =
        .next { s with errcode := 2, statusErr := true, statusDone := true, phase := .idle }) ∧
    ∀ (m : Modulation) (c : Coding), modulationOf s.ctrlMod = some m → codingOf s.ctrlCod = some c →
      (Config.depth < s.lenY.toNat →
        exec .demodulate s =
          .next { s with errcode := 3, statusErr := true, statusDone := true, phase := .idle }) ∧
      (s.lenY.toNat ≤ Config.depth →
        ∃ t, exec .demodulate s = .next t ∧
          t = { s with
            bb := t.bb
            lenBb := BitVec.ofNat 32 (decodedLength c (wholeSymbols m s.lenY.toNat))
            errcode := 0
            statusErr := false
            statusDone := true
            phase := .idle } ∧
          t.lenBb.toNat = decodedLength c (wholeSymbols m s.lenY.toNat) ∧
          (∀ k, k < t.lenBb.toNat → bitAt t .bb k = decodedBit c (hardBit s m) k) ∧
          (∀ k, t.lenBb.toNat ≤ k → bitAt t .bb k = bitAt s .bb k) ∧
          ∀ a, (a < bitBase .bb ∨ bitBase .bb + (t.lenBb.toNat + 7) / 8 ≤ a) → byteAt t a = byteAt s a)

/-- R151 and R152: the decoder after the encoder gives the input delayed by one bit. MODULATE, the host's
copy of X into Y, DEMODULATE: without coding BB holds the input's whole symbols; with it the input delayed
by one bit, 16-QAM its first 2·floor(n/2) bits. -/
def Obligations.NoiselessRoundTrip : Prop :=
  (∀ b : List Bool, decodePairs (encodeSeq .convolutional b) = (false :: b).take b.length) ∧
  ∀ (s t u : State) (m : Modulation) (c : Coding),
    modulationOf s.ctrlMod = some m → codingOf s.ctrlCod = some c →
      codedPerBit c * s.lenBa.toNat ≤ Config.depth → exec .modulate s = .next t →
        u.ctrlMod = s.ctrlMod → u.ctrlCod = s.ctrlCod → u.lenY = t.lenX →
          (∀ i, i < t.lenX.toNat → sampleAt u .y i = sampleAt t .x i) →
            ∃ v, exec .demodulate u = .next v ∧ v.statusErr = false ∧
              (c = .none →
                v.lenBb.toNat = wholeSymbols m s.lenBa.toNat ∧
                  ∀ j, j < v.lenBb.toNat → bitAt v .bb j = bitAt s .ba j) ∧
              (c = .convolutional →
                v.lenBb.toNat = (if m = .qam16 then 2 * (s.lenBa.toNat / 2) else s.lenBa.toNat) ∧
                  ∀ j, j < v.lenBb.toNat → bitAt v .bb j = priorBit s j 1)

/-- R114: the hard decision is 1 exactly for the positive values, +∞ included; ±0.0, the negative values
and the NaNs give 0. -/
def Obligations.HardDecisionOfEveryValue : Prop :=
  ∀ v : F64, hard v = true ↔ isNaN v = false ∧ signBit v = false ∧ magnitudeBits v ≠ 0

/-- R150: the slicer's two bits for every value, by the value's class and magnitude, and its inverse on
the four levels. -/
def Obligations.SlicerOfEveryValue : Prop :=
  (∀ v : F64, isNaN v = true → hard v = false ∧ sliceLow v = true) ∧
    (∀ v : F64, isNaN v = false →
      (hard v = true ↔ signBit v = false ∧ magnitudeBits v ≠ 0) ∧
        (sliceLow v = false ↔ tQam.toNat < magnitudeBits v)) ∧
    ∀ hi lo : Bool,
      hard (levelOf (2 * flagBit hi + flagBit lo)) = hi ∧
        sliceLow (levelOf (2 * flagBit hi + flagBit lo)) = lo

/-- R112: each constant is the value of the stated operations and has the stated pattern. -/
def Obligations.ConstantsByTheirOperations : Prop :=
  (aQpsk = fdiv (fsqrt 0x4000000000000000) 0x4000000000000000 ∧ aQpsk = 0x3FE6A09E667F3BCD) ∧
    (fdiv fone (fsqrt ften) = 0x3FD43D136248490F) ∧
    (qM3 = fmul 0xC008000000000000 (fdiv fone (fsqrt ften)) ∧ qM3 = 0xBFEE5B9D136C6D96) ∧
    (qM1 = fmul fnegOne (fdiv fone (fsqrt ften)) ∧ qM1 = 0xBFD43D136248490F) ∧
    (qP1 = fmul fone (fdiv fone (fsqrt ften)) ∧ qP1 = 0x3FD43D136248490F) ∧
    (qP3 = fmul 0x4008000000000000 (fdiv fone (fsqrt ften)) ∧ qP3 = 0x3FEE5B9D136C6D96) ∧
    (tQam = fmul 0x4000000000000000 (fdiv fone (fsqrt ften)) ∧ tQam = 0x3FE43D136248490F) ∧
    (twoPi = fmul 0x4000000000000000 0x400921FB54442D18 ∧ twoPi = 0x401921FB54442D18) ∧
    fdiv 0xC008000000000000 (fsqrt ften) = qM3 ∧ fdiv 0x4008000000000000 (fsqrt ften) = qP3 ∧
    fdiv 0x4000000000000000 (fsqrt ften) = tQam ∧
    fdiv fone (fsqrt 0x4000000000000000) = 0x3FE6A09E667F3BCC

/-! ### The analyzer -/

/-- R170: SNR_MEASURE, its word, its checks in order, its result and its frame. -/
def Obligations.SnrMeasureRule : Prop :=
  encode .snrMeasure = 0x00000008 ∧ ∀ s : State,
    (Config.depth < s.lenX.toNat ∨ Config.depth < s.lenY.toNat →
      exec .snrMeasure s =
        .next { s with errcode := 3, statusErr := true, statusDone := true, phase := .idle }) ∧
    (s.lenX.toNat ≤ Config.depth → s.lenY.toNat ≤ Config.depth →
      (s.lenX ≠ s.lenY →
        exec .snrMeasure s =
          .next { s with errcode := 4, statusErr := true, statusDone := true, phase := .idle }) ∧
      (s.lenX = s.lenY → s.lenX.toNat = 0 →
        exec .snrMeasure s =
          .next { s with errcode := 5, statusErr := true, statusDone := true, phase := .idle }) ∧
      (s.lenX = s.lenY → 0 < s.lenX.toNat →
        ∃ t, exec .snrMeasure s = .next t ∧
          t = { s with
            sigpwr := meansq ((List.range s.lenX.toNat).map (sampleAt s .x))
            noisepwr := meansqdiff ((List.range s.lenX.toNat).map (sampleAt s .x))
              ((List.range s.lenX.toNat).map (sampleAt s .y))
            measSnr :=
              if feq t.noisepwr fzero then 0x7FF0000000000000
              else fmul ften (Config.fLog10 (fdiv t.sigpwr t.noisepwr))
            errcode := 0
            statusErr := false
            statusDone := true
            phase := .idle } ∧
          ∀ a, byteAt t a = byteAt s a))

/-! ### Errors -/

/-- R182: the code a completion reports is that of the first check that fails, 0 if none does; an illegal
word is check 1. -/
def Obligations.FirstFailingCheckIsReported : Prop :=
  (∀ (i : Instr) (s : State), ∃ t, exec i s = .next t ∧ t.errcode = firstFailing (checkTable i s) ∧
      (t.statusErr = true ↔ t.errcode ≠ 0)) ∧
    ∀ (s : State) (w : Word) (e : DecodeError), s.phase = .pending w → decode w = .error e →
      ∃ t, engineStep s = .next t ∧ t.errcode = 1 ∧ t.statusErr = true

/-- R184 with R183: a command that reports an error leaves every buffer and register as it found it but
STATUS and ERRCODE, and WERR keeps its value. -/
def Obligations.ErrorLeavesNoPartialResult : Prop :=
  ∀ (i : Instr) (s t : State), exec i s = .next t → t.statusErr = true →
    t = { s with errcode := t.errcode, statusErr := true, statusDone := true, phase := .idle } ∧
      t.errcode ≠ 0 ∧ ∀ a, byteAt t a = byteAt s a

/-- R85: a reserved scheme pair makes the four ChannelModel commands complete with UNSUPPORTED_SCHEME. The
scheme registers do not reach NOISE_POWER, EBN0, NOISE_ADD and SNR_MEASURE: with any other
values in them these commands leave the same state but for those values. -/
def Obligations.ReservedSchemeReachesOnlyChannelModel : Prop :=
  (∀ (i : Instr) (s : State), i = .encode ∨ i = .decode ∨ i = .modulate ∨ i = .demodulate →
    s.ctrlMod.toNat = 3 ∨ 2 ≤ s.ctrlCod.toNat →
      exec i s = .next { s with errcode := 2, statusErr := true, statusDone := true, phase := .idle }) ∧
  ∀ (i : Instr) (s t : State) (m c : BitVec 2),
    i = .noisePower ∨ i = .ebn0 ∨ i = .noiseAdd ∨ i = .snrMeasure → exec i s = .next t →
    exec i { s with ctrlMod := m, ctrlCod := c } = .next { t with ctrlMod := m, ctrlCod := c }

/-! ### Binary64 arithmetic -/

/-- R11 and R109: a sum of finite values is the exact sum rounded to nearest, ties to even, an infinity from
the overflow bound on; an exact zero sum is -0.0 only if both operands are negative zeros. So is a difference,
the sign of its second operand flipped. (IEEE 754: log 12.) -/
def Obligations.SumIsRoundedToNearest : Prop :=
  ∀ a b : F64, isFinite a = true → isFinite b = true →
    isRoundingOf (fadd a b) (unitsOf a + unitsOf b) 1 ∧
      isRoundingOf (fsub a b) (unitsOf a - unitsOf b) 1 ∧
      (unitsOf a + unitsOf b = 0 → fadd a b = zeroOf (signBit a && signBit b)) ∧
      (unitsOf a - unitsOf b = 0 → fsub a b = zeroOf (signBit a && !signBit b))

/-- R11 and R109: a product of finite values is the exact product rounded to nearest, ties to even, an infinity
from the overflow bound on; its sign is that of the operands' signs even where it is a zero. A unit is
2^-1074. (IEEE 754: log 12.) -/
def Obligations.ProductIsRoundedToNearest : Prop :=
  ∀ a b : F64, isFinite a = true → isFinite b = true →
    isRoundingOf (fmul a b) (unitsOf a * unitsOf b) (2 ^ 1074) ∧
      signBit (fmul a b) = (signBit a ^^ signBit b)

/-- R11 and R109: a quotient of a finite value by a finite value that is no zero is the exact quotient rounded
to nearest, ties to even, an infinity from the overflow bound on; its sign is that of the operands' signs even
where it is a zero. (IEEE 754: log 12.) -/
def Obligations.QuotientIsRoundedToNearest : Prop :=
  ∀ a b : F64, isFinite a = true → isFinite b = true → unitsOf b ≠ 0 →
    isRoundingOf (fdiv a b) ((unitsOf b).sign * unitsOf a * 2 ^ 1074) (unitsOf b).natAbs ∧
      signBit (fdiv a b) = (signBit a ^^ signBit b)

/-- R11 and R109: the square root of a positive finite value is finite, and every other finite value lies
on the far side of its midpoint with the exact root; the root of a zero is that zero, of +∞ is +∞. (IEEE 754:
log 12.) -/
def Obligations.RootIsRoundedToNearest : Prop :=
  (∀ a y : F64, isFinite a = true → 0 < unitsOf a → isFinite y = true → 0 ≤ unitsOf y →
    isFinite (fsqrt a) = true ∧ 0 < unitsOf (fsqrt a) ∧
      (unitsOf y < unitsOf (fsqrt a) →
        (unitsOf y + unitsOf (fsqrt a)) ^ 2 ≤ 4 * (unitsOf a * 2 ^ 1074)) ∧
      (unitsOf (fsqrt a) < unitsOf y →
        4 * (unitsOf a * 2 ^ 1074) ≤ (unitsOf y + unitsOf (fsqrt a)) ^ 2)) ∧
    (∀ neg : Bool, fsqrt (zeroOf neg) = zeroOf neg) ∧ fsqrt (infinityOf false) = infinityOf false

/-- R109: invalid operations and operations on a NaN give a NaN and the computation goes on. (IEEE 754:
log 12.) -/
def Obligations.InvalidOperationsGiveNaN : Prop :=
  (∀ a b : F64, isNaN a = true ∨ isNaN b = true →
      isNaN (fadd a b) = true ∧ isNaN (fsub a b) = true ∧ isNaN (fmul a b) = true ∧
        isNaN (fdiv a b) = true) ∧
    (∀ a : F64, isNaN a = true ∨ (signBit a = true ∧ magnitudeBits a ≠ 0) → isNaN (fsqrt a) = true) ∧
    (∀ b c : F64, magnitudeBits b = 0 → magnitudeBits c = 0 → isNaN (fdiv b c) = true) ∧
    ∀ a b : F64, magnitudeBits a = infPattern →
      (magnitudeBits b = infPattern → signBit a ≠ signBit b → isNaN (fadd a b) = true) ∧
      (magnitudeBits b = infPattern → signBit a = signBit b → isNaN (fsub a b) = true) ∧
      (magnitudeBits b = 0 → isNaN (fmul a b) = true ∧ isNaN (fmul b a) = true) ∧
      (magnitudeBits b = infPattern → isNaN (fdiv a b) = true)

/-- R11 and R109: the valid operations on an infinity, and the quotient of a finite value that is no zero by a
zero, for every sign. (IEEE 754: log 12.) -/
def Obligations.ValidOperationsOnInfinities : Prop :=
  (∀ (m : Bool) (b : F64), isFinite b = true →
      fadd (infinityOf m) b = infinityOf m ∧ fadd b (infinityOf m) = infinityOf m ∧
        fsub (infinityOf m) b = infinityOf m ∧ fsub b (infinityOf m) = infinityOf (!m) ∧
        fdiv (infinityOf m) b = infinityOf (m ^^ signBit b) ∧
        fdiv b (infinityOf m) = zeroOf (signBit b ^^ m)) ∧
    (∀ m : Bool, fadd (infinityOf m) (infinityOf m) = infinityOf m ∧
      fsub (infinityOf m) (infinityOf (!m)) = infinityOf m) ∧
    (∀ (m : Bool) (b : F64), isNaN b = false → magnitudeBits b ≠ 0 →
      fmul (infinityOf m) b = infinityOf (m ^^ signBit b) ∧
        fmul b (infinityOf m) = infinityOf (signBit b ^^ m)) ∧
    ∀ (m : Bool) (b : F64), isFinite b = true → magnitudeBits b ≠ 0 →
      fdiv b (zeroOf m) = infinityOf (signBit b ^^ m)

/-- R11: `fneg` flips the sign bit of every pattern, NaNs included, and keeps the other bits. -/
def Obligations.NegationFlipsTheSign : Prop :=
  ∀ a : F64, signBit (fneg a) = (!signBit a) ∧ magnitudeBits (fneg a) = magnitudeBits a

/-- R109: rounding overflows to an infinity exactly from half a last place above the largest finite value
on. (IEEE 754: log 12.) -/
def Obligations.RoundingOverflowsToInfinity : Prop :=
  ∀ (neg : Bool) (num den : Nat), 0 < den →
    (isFinite (roundRatio neg num den) = true ↔ 2 * num < (2 ^ 54 - 1) * 2 ^ 2045 * den) ∧
      (isFinite (roundRatio neg num den) = false →
        signBit (roundRatio neg num den) = neg ∧ magnitudeBits (roundRatio neg num den) = infPattern)

/-- R11: the ordered comparisons of finite values are those of their values, an infinity lies beyond them on
its side and equals only itself, and every comparison with a NaN is false. (IEEE 754: log 12.) -/
def Obligations.ComparisonsFollowTheValues : Prop :=
  (∀ a b : F64, isFinite a = true → isFinite b = true →
      (fgt a b = true ↔ unitsOf b < unitsOf a) ∧ (flt a b = true ↔ unitsOf a < unitsOf b) ∧
        (feq a b = true ↔ unitsOf a = unitsOf b)) ∧
    (∀ a b : F64, isNaN a = true ∨ isNaN b = true → fgt a b = false ∧ flt a b = false ∧ feq a b = false) ∧
    (∀ (a : F64) (neg : Bool), isFinite a = true →
      fgt (infinityOf neg) a = (!neg) ∧ flt a (infinityOf neg) = (!neg) ∧
        flt (infinityOf neg) a = neg ∧ fgt a (infinityOf neg) = neg ∧
        feq (infinityOf neg) a = false ∧ feq a (infinityOf neg) = false) ∧
    ∀ m n : Bool,
      fgt (infinityOf m) (infinityOf n) = (!m && n) ∧ flt (infinityOf m) (infinityOf n) = (m && !n) ∧
        feq (infinityOf m) (infinityOf n) = (m == n)
end

