-- ==== Sys2Proof/Laws/State.lean ====
section
/-! SUPPORT. What each named update of State leaves in each field: one lemma a field, true by rfl. -/

namespace Sys2Proof.Machine

variable (s : State)

/-! ### setWerr -/

@[simp] theorem setWerr_ctrlMod : (setWerr s).ctrlMod = s.ctrlMod := rfl
@[simp] theorem setWerr_ctrlCod : (setWerr s).ctrlCod = s.ctrlCod := rfl
@[simp] theorem setWerr_statusDone : (setWerr s).statusDone = s.statusDone := rfl
@[simp] theorem setWerr_statusErr : (setWerr s).statusErr = s.statusErr := rfl
@[simp] theorem setWerr_statusWerr : (setWerr s).statusWerr = true := rfl
@[simp] theorem setWerr_errcode : (setWerr s).errcode = s.errcode := rfl
@[simp] theorem setWerr_lenBa : (setWerr s).lenBa = s.lenBa := rfl
@[simp] theorem setWerr_lenBb : (setWerr s).lenBb = s.lenBb := rfl
@[simp] theorem setWerr_lenX : (setWerr s).lenX = s.lenX := rfl
@[simp] theorem setWerr_lenY : (setWerr s).lenY = s.lenY := rfl
@[simp] theorem setWerr_seed : (setWerr s).seed = s.seed := rfl
@[simp] theorem setWerr_snrDb : (setWerr s).snrDb = s.snrDb := rfl
@[simp] theorem setWerr_bitrate : (setWerr s).bitrate = s.bitrate := rfl
@[simp] theorem setWerr_bandwidth : (setWerr s).bandwidth = s.bandwidth := rfl
@[simp] theorem setWerr_sigpwr : (setWerr s).sigpwr = s.sigpwr := rfl
@[simp] theorem setWerr_noisepwr : (setWerr s).noisepwr = s.noisepwr := rfl
@[simp] theorem setWerr_ebn0 : (setWerr s).ebn0 = s.ebn0 := rfl
@[simp] theorem setWerr_measSnr : (setWerr s).measSnr = s.measSnr := rfl
@[simp] theorem setWerr_phase : (setWerr s).phase = s.phase := rfl
@[simp] theorem setWerr_ba : (setWerr s).ba = s.ba := rfl
@[simp] theorem setWerr_bb : (setWerr s).bb = s.bb := rfl
@[simp] theorem setWerr_x : (setWerr s).x = s.x := rfl
@[simp] theorem setWerr_y : (setWerr s).y = s.y := rfl
@[simp] theorem setWerr_agenda : (setWerr s).agenda = s.agenda := rfl
@[simp] theorem setWerr_response : (setWerr s).response = s.response := rfl
@[simp] theorem setWerr_drawCount : (setWerr s).drawCount = s.drawCount := rfl
@[simp] theorem setWerr_resetCount : (setWerr s).resetCount = s.resetCount := rfl

/-! ### acceptCommand -/

@[simp] theorem acceptCommand_ctrlMod (w : Word) : (acceptCommand w s).ctrlMod = s.ctrlMod := rfl
@[simp] theorem acceptCommand_ctrlCod (w : Word) : (acceptCommand w s).ctrlCod = s.ctrlCod := rfl
@[simp] theorem acceptCommand_statusDone (w : Word) : (acceptCommand w s).statusDone = false := rfl
@[simp] theorem acceptCommand_statusErr (w : Word) : (acceptCommand w s).statusErr = false := rfl
@[simp] theorem acceptCommand_statusWerr (w : Word) : (acceptCommand w s).statusWerr = false := rfl
@[simp] theorem acceptCommand_errcode (w : Word) : (acceptCommand w s).errcode = 0 := rfl
@[simp] theorem acceptCommand_lenBa (w : Word) : (acceptCommand w s).lenBa = s.lenBa := rfl
@[simp] theorem acceptCommand_lenBb (w : Word) : (acceptCommand w s).lenBb = s.lenBb := rfl
@[simp] theorem acceptCommand_lenX (w : Word) : (acceptCommand w s).lenX = s.lenX := rfl
@[simp] theorem acceptCommand_lenY (w : Word) : (acceptCommand w s).lenY = s.lenY := rfl
@[simp] theorem acceptCommand_seed (w : Word) : (acceptCommand w s).seed = s.seed := rfl
@[simp] theorem acceptCommand_snrDb (w : Word) : (acceptCommand w s).snrDb = s.snrDb := rfl
@[simp] theorem acceptCommand_bitrate (w : Word) : (acceptCommand w s).bitrate = s.bitrate := rfl
@[simp] theorem acceptCommand_bandwidth (w : Word) : (acceptCommand w s).bandwidth = s.bandwidth := rfl
@[simp] theorem acceptCommand_sigpwr (w : Word) : (acceptCommand w s).sigpwr = s.sigpwr := rfl
@[simp] theorem acceptCommand_noisepwr (w : Word) : (acceptCommand w s).noisepwr = s.noisepwr := rfl
@[simp] theorem acceptCommand_ebn0 (w : Word) : (acceptCommand w s).ebn0 = s.ebn0 := rfl
@[simp] theorem acceptCommand_measSnr (w : Word) : (acceptCommand w s).measSnr = s.measSnr := rfl
@[simp] theorem acceptCommand_phase (w : Word) : (acceptCommand w s).phase = .pending w := rfl
@[simp] theorem acceptCommand_ba (w : Word) : (acceptCommand w s).ba = s.ba := rfl
@[simp] theorem acceptCommand_bb (w : Word) : (acceptCommand w s).bb = s.bb := rfl
@[simp] theorem acceptCommand_x (w : Word) : (acceptCommand w s).x = s.x := rfl
@[simp] theorem acceptCommand_y (w : Word) : (acceptCommand w s).y = s.y := rfl
@[simp] theorem acceptCommand_agenda (w : Word) : (acceptCommand w s).agenda = s.agenda := rfl
@[simp] theorem acceptCommand_response (w : Word) : (acceptCommand w s).response = s.response := rfl
@[simp] theorem acceptCommand_drawCount (w : Word) : (acceptCommand w s).drawCount = s.drawCount := rfl
@[simp] theorem acceptCommand_resetCount (w : Word) : (acceptCommand w s).resetCount = s.resetCount := rfl

/-! ### flagsSuccess -/

@[simp] theorem flagsSuccess_ctrlMod : (flagsSuccess s).ctrlMod = s.ctrlMod := rfl
@[simp] theorem flagsSuccess_ctrlCod : (flagsSuccess s).ctrlCod = s.ctrlCod := rfl
@[simp] theorem flagsSuccess_statusDone : (flagsSuccess s).statusDone = true := rfl
@[simp] theorem flagsSuccess_statusErr : (flagsSuccess s).statusErr = false := rfl
@[simp] theorem flagsSuccess_statusWerr : (flagsSuccess s).statusWerr = s.statusWerr := rfl
@[simp] theorem flagsSuccess_errcode : (flagsSuccess s).errcode = 0 := rfl
@[simp] theorem flagsSuccess_lenBa : (flagsSuccess s).lenBa = s.lenBa := rfl
@[simp] theorem flagsSuccess_lenBb : (flagsSuccess s).lenBb = s.lenBb := rfl
@[simp] theorem flagsSuccess_lenX : (flagsSuccess s).lenX = s.lenX := rfl
@[simp] theorem flagsSuccess_lenY : (flagsSuccess s).lenY = s.lenY := rfl
@[simp] theorem flagsSuccess_seed : (flagsSuccess s).seed = s.seed := rfl
@[simp] theorem flagsSuccess_snrDb : (flagsSuccess s).snrDb = s.snrDb := rfl
@[simp] theorem flagsSuccess_bitrate : (flagsSuccess s).bitrate = s.bitrate := rfl
@[simp] theorem flagsSuccess_bandwidth : (flagsSuccess s).bandwidth = s.bandwidth := rfl
@[simp] theorem flagsSuccess_sigpwr : (flagsSuccess s).sigpwr = s.sigpwr := rfl
@[simp] theorem flagsSuccess_noisepwr : (flagsSuccess s).noisepwr = s.noisepwr := rfl
@[simp] theorem flagsSuccess_ebn0 : (flagsSuccess s).ebn0 = s.ebn0 := rfl
@[simp] theorem flagsSuccess_measSnr : (flagsSuccess s).measSnr = s.measSnr := rfl
@[simp] theorem flagsSuccess_phase : (flagsSuccess s).phase = .idle := rfl
@[simp] theorem flagsSuccess_ba : (flagsSuccess s).ba = s.ba := rfl
@[simp] theorem flagsSuccess_bb : (flagsSuccess s).bb = s.bb := rfl
@[simp] theorem flagsSuccess_x : (flagsSuccess s).x = s.x := rfl
@[simp] theorem flagsSuccess_y : (flagsSuccess s).y = s.y := rfl
@[simp] theorem flagsSuccess_agenda : (flagsSuccess s).agenda = s.agenda := rfl
@[simp] theorem flagsSuccess_response : (flagsSuccess s).response = s.response := rfl
@[simp] theorem flagsSuccess_drawCount : (flagsSuccess s).drawCount = s.drawCount := rfl
@[simp] theorem flagsSuccess_resetCount : (flagsSuccess s).resetCount = s.resetCount := rfl

/-! ### flagsError -/

@[simp] theorem flagsError_ctrlMod (e : ErrorCode) : (flagsError e s).ctrlMod = s.ctrlMod := rfl
@[simp] theorem flagsError_ctrlCod (e : ErrorCode) : (flagsError e s).ctrlCod = s.ctrlCod := rfl
@[simp] theorem flagsError_statusDone (e : ErrorCode) : (flagsError e s).statusDone = true := rfl
@[simp] theorem flagsError_statusErr (e : ErrorCode) : (flagsError e s).statusErr = true := rfl
@[simp] theorem flagsError_statusWerr (e : ErrorCode) : (flagsError e s).statusWerr = s.statusWerr := rfl
@[simp] theorem flagsError_errcode (e : ErrorCode) : (flagsError e s).errcode = errorNumber e := rfl
@[simp] theorem flagsError_lenBa (e : ErrorCode) : (flagsError e s).lenBa = s.lenBa := rfl
@[simp] theorem flagsError_lenBb (e : ErrorCode) : (flagsError e s).lenBb = s.lenBb := rfl
@[simp] theorem flagsError_lenX (e : ErrorCode) : (flagsError e s).lenX = s.lenX := rfl
@[simp] theorem flagsError_lenY (e : ErrorCode) : (flagsError e s).lenY = s.lenY := rfl
@[simp] theorem flagsError_seed (e : ErrorCode) : (flagsError e s).seed = s.seed := rfl
@[simp] theorem flagsError_snrDb (e : ErrorCode) : (flagsError e s).snrDb = s.snrDb := rfl
@[simp] theorem flagsError_bitrate (e : ErrorCode) : (flagsError e s).bitrate = s.bitrate := rfl
@[simp] theorem flagsError_bandwidth (e : ErrorCode) : (flagsError e s).bandwidth = s.bandwidth := rfl
@[simp] theorem flagsError_sigpwr (e : ErrorCode) : (flagsError e s).sigpwr = s.sigpwr := rfl
@[simp] theorem flagsError_noisepwr (e : ErrorCode) : (flagsError e s).noisepwr = s.noisepwr := rfl
@[simp] theorem flagsError_ebn0 (e : ErrorCode) : (flagsError e s).ebn0 = s.ebn0 := rfl
@[simp] theorem flagsError_measSnr (e : ErrorCode) : (flagsError e s).measSnr = s.measSnr := rfl
@[simp] theorem flagsError_phase (e : ErrorCode) : (flagsError e s).phase = .idle := rfl
@[simp] theorem flagsError_ba (e : ErrorCode) : (flagsError e s).ba = s.ba := rfl
@[simp] theorem flagsError_bb (e : ErrorCode) : (flagsError e s).bb = s.bb := rfl
@[simp] theorem flagsError_x (e : ErrorCode) : (flagsError e s).x = s.x := rfl
@[simp] theorem flagsError_y (e : ErrorCode) : (flagsError e s).y = s.y := rfl
@[simp] theorem flagsError_agenda (e : ErrorCode) : (flagsError e s).agenda = s.agenda := rfl
@[simp] theorem flagsError_response (e : ErrorCode) : (flagsError e s).response = s.response := rfl
@[simp] theorem flagsError_drawCount (e : ErrorCode) : (flagsError e s).drawCount = s.drawCount := rfl
@[simp] theorem flagsError_resetCount (e : ErrorCode) : (flagsError e s).resetCount = s.resetCount := rfl

/-! ### setPowers -/

@[simp] theorem setPowers_ctrlMod (ps pn : F64) : (setPowers s ps pn).ctrlMod = s.ctrlMod := rfl
@[simp] theorem setPowers_ctrlCod (ps pn : F64) : (setPowers s ps pn).ctrlCod = s.ctrlCod := rfl
@[simp] theorem setPowers_statusDone (ps pn : F64) : (setPowers s ps pn).statusDone = s.statusDone := rfl
@[simp] theorem setPowers_statusErr (ps pn : F64) : (setPowers s ps pn).statusErr = s.statusErr := rfl
@[simp] theorem setPowers_statusWerr (ps pn : F64) : (setPowers s ps pn).statusWerr = s.statusWerr := rfl
@[simp] theorem setPowers_errcode (ps pn : F64) : (setPowers s ps pn).errcode = s.errcode := rfl
@[simp] theorem setPowers_lenBa (ps pn : F64) : (setPowers s ps pn).lenBa = s.lenBa := rfl
@[simp] theorem setPowers_lenBb (ps pn : F64) : (setPowers s ps pn).lenBb = s.lenBb := rfl
@[simp] theorem setPowers_lenX (ps pn : F64) : (setPowers s ps pn).lenX = s.lenX := rfl
@[simp] theorem setPowers_lenY (ps pn : F64) : (setPowers s ps pn).lenY = s.lenY := rfl
@[simp] theorem setPowers_seed (ps pn : F64) : (setPowers s ps pn).seed = s.seed := rfl
@[simp] theorem setPowers_snrDb (ps pn : F64) : (setPowers s ps pn).snrDb = s.snrDb := rfl
@[simp] theorem setPowers_bitrate (ps pn : F64) : (setPowers s ps pn).bitrate = s.bitrate := rfl
@[simp] theorem setPowers_bandwidth (ps pn : F64) : (setPowers s ps pn).bandwidth = s.bandwidth := rfl
@[simp] theorem setPowers_sigpwr (ps pn : F64) : (setPowers s ps pn).sigpwr = ps := rfl
@[simp] theorem setPowers_noisepwr (ps pn : F64) : (setPowers s ps pn).noisepwr = pn := rfl
@[simp] theorem setPowers_ebn0 (ps pn : F64) : (setPowers s ps pn).ebn0 = s.ebn0 := rfl
@[simp] theorem setPowers_measSnr (ps pn : F64) : (setPowers s ps pn).measSnr = s.measSnr := rfl
@[simp] theorem setPowers_phase (ps pn : F64) : (setPowers s ps pn).phase = s.phase := rfl
@[simp] theorem setPowers_ba (ps pn : F64) : (setPowers s ps pn).ba = s.ba := rfl
@[simp] theorem setPowers_bb (ps pn : F64) : (setPowers s ps pn).bb = s.bb := rfl
@[simp] theorem setPowers_x (ps pn : F64) : (setPowers s ps pn).x = s.x := rfl
@[simp] theorem setPowers_y (ps pn : F64) : (setPowers s ps pn).y = s.y := rfl
@[simp] theorem setPowers_agenda (ps pn : F64) : (setPowers s ps pn).agenda = s.agenda := rfl
@[simp] theorem setPowers_response (ps pn : F64) : (setPowers s ps pn).response = s.response := rfl
@[simp] theorem setPowers_drawCount (ps pn : F64) : (setPowers s ps pn).drawCount = s.drawCount := rfl
@[simp] theorem setPowers_resetCount (ps pn : F64) : (setPowers s ps pn).resetCount = s.resetCount := rfl

/-! ### setBitStore -/

@[simp] theorem setBitStore_ctrlMod (b : BitBuf) (m : BitStore) : (setBitStore s b m).ctrlMod = s.ctrlMod := by cases b <;> rfl
@[simp] theorem setBitStore_ctrlCod (b : BitBuf) (m : BitStore) : (setBitStore s b m).ctrlCod = s.ctrlCod := by cases b <;> rfl
@[simp] theorem setBitStore_statusDone (b : BitBuf) (m : BitStore) : (setBitStore s b m).statusDone = s.statusDone := by cases b <;> rfl
@[simp] theorem setBitStore_statusErr (b : BitBuf) (m : BitStore) : (setBitStore s b m).statusErr = s.statusErr := by cases b <;> rfl
@[simp] theorem setBitStore_statusWerr (b : BitBuf) (m : BitStore) : (setBitStore s b m).statusWerr = s.statusWerr := by cases b <;> rfl
@[simp] theorem setBitStore_errcode (b : BitBuf) (m : BitStore) : (setBitStore s b m).errcode = s.errcode := by cases b <;> rfl
@[simp] theorem setBitStore_lenBa (b : BitBuf) (m : BitStore) : (setBitStore s b m).lenBa = s.lenBa := by cases b <;> rfl
@[simp] theorem setBitStore_lenBb (b : BitBuf) (m : BitStore) : (setBitStore s b m).lenBb = s.lenBb := by cases b <;> rfl
@[simp] theorem setBitStore_lenX (b : BitBuf) (m : BitStore) : (setBitStore s b m).lenX = s.lenX := by cases b <;> rfl
@[simp] theorem setBitStore_lenY (b : BitBuf) (m : BitStore) : (setBitStore s b m).lenY = s.lenY := by cases b <;> rfl
@[simp] theorem setBitStore_seed (b : BitBuf) (m : BitStore) : (setBitStore s b m).seed = s.seed := by cases b <;> rfl
@[simp] theorem setBitStore_snrDb (b : BitBuf) (m : BitStore) : (setBitStore s b m).snrDb = s.snrDb := by cases b <;> rfl
@[simp] theorem setBitStore_bitrate (b : BitBuf) (m : BitStore) : (setBitStore s b m).bitrate = s.bitrate := by cases b <;> rfl
@[simp] theorem setBitStore_bandwidth (b : BitBuf) (m : BitStore) : (setBitStore s b m).bandwidth = s.bandwidth := by cases b <;> rfl
@[simp] theorem setBitStore_sigpwr (b : BitBuf) (m : BitStore) : (setBitStore s b m).sigpwr = s.sigpwr := by cases b <;> rfl
@[simp] theorem setBitStore_noisepwr (b : BitBuf) (m : BitStore) : (setBitStore s b m).noisepwr = s.noisepwr := by cases b <;> rfl
@[simp] theorem setBitStore_ebn0 (b : BitBuf) (m : BitStore) : (setBitStore s b m).ebn0 = s.ebn0 := by cases b <;> rfl
@[simp] theorem setBitStore_measSnr (b : BitBuf) (m : BitStore) : (setBitStore s b m).measSnr = s.measSnr := by cases b <;> rfl
@[simp] theorem setBitStore_phase (b : BitBuf) (m : BitStore) : (setBitStore s b m).phase = s.phase := by cases b <;> rfl
@[simp] theorem setBitStore_x (b : BitBuf) (m : BitStore) : (setBitStore s b m).x = s.x := by cases b <;> rfl
@[simp] theorem setBitStore_y (b : BitBuf) (m : BitStore) : (setBitStore s b m).y = s.y := by cases b <;> rfl
@[simp] theorem setBitStore_agenda (b : BitBuf) (m : BitStore) : (setBitStore s b m).agenda = s.agenda := by cases b <;> rfl
@[simp] theorem setBitStore_response (b : BitBuf) (m : BitStore) : (setBitStore s b m).response = s.response := by cases b <;> rfl
@[simp] theorem setBitStore_drawCount (b : BitBuf) (m : BitStore) : (setBitStore s b m).drawCount = s.drawCount := by cases b <;> rfl
@[simp] theorem setBitStore_resetCount (b : BitBuf) (m : BitStore) : (setBitStore s b m).resetCount = s.resetCount := by cases b <;> rfl

/-! ### setSampleStore -/

@[simp] theorem setSampleStore_ctrlMod (b : SampleBuf) (m : Memory) : (setSampleStore s b m).ctrlMod = s.ctrlMod := by cases b <;> rfl
@[simp] theorem setSampleStore_ctrlCod (b : SampleBuf) (m : Memory) : (setSampleStore s b m).ctrlCod = s.ctrlCod := by cases b <;> rfl
@[simp] theorem setSampleStore_statusDone (b : SampleBuf) (m : Memory) : (setSampleStore s b m).statusDone = s.statusDone := by cases b <;> rfl
@[simp] theorem setSampleStore_statusErr (b : SampleBuf) (m : Memory) : (setSampleStore s b m).statusErr = s.statusErr := by cases b <;> rfl
@[simp] theorem setSampleStore_statusWerr (b : SampleBuf) (m : Memory) : (setSampleStore s b m).statusWerr = s.statusWerr := by cases b <;> rfl
@[simp] theorem setSampleStore_errcode (b : SampleBuf) (m : Memory) : (setSampleStore s b m).errcode = s.errcode := by cases b <;> rfl
@[simp] theorem setSampleStore_lenBa (b : SampleBuf) (m : Memory) : (setSampleStore s b m).lenBa = s.lenBa := by cases b <;> rfl
@[simp] theorem setSampleStore_lenBb (b : SampleBuf) (m : Memory) : (setSampleStore s b m).lenBb = s.lenBb := by cases b <;> rfl
@[simp] theorem setSampleStore_lenX (b : SampleBuf) (m : Memory) : (setSampleStore s b m).lenX = s.lenX := by cases b <;> rfl
@[simp] theorem setSampleStore_lenY (b : SampleBuf) (m : Memory) : (setSampleStore s b m).lenY = s.lenY := by cases b <;> rfl
@[simp] theorem setSampleStore_seed (b : SampleBuf) (m : Memory) : (setSampleStore s b m).seed = s.seed := by cases b <;> rfl
@[simp] theorem setSampleStore_snrDb (b : SampleBuf) (m : Memory) : (setSampleStore s b m).snrDb = s.snrDb := by cases b <;> rfl
@[simp] theorem setSampleStore_bitrate (b : SampleBuf) (m : Memory) : (setSampleStore s b m).bitrate = s.bitrate := by cases b <;> rfl
@[simp] theorem setSampleStore_bandwidth (b : SampleBuf) (m : Memory) : (setSampleStore s b m).bandwidth = s.bandwidth := by cases b <;> rfl
@[simp] theorem setSampleStore_sigpwr (b : SampleBuf) (m : Memory) : (setSampleStore s b m).sigpwr = s.sigpwr := by cases b <;> rfl
@[simp] theorem setSampleStore_noisepwr (b : SampleBuf) (m : Memory) : (setSampleStore s b m).noisepwr = s.noisepwr := by cases b <;> rfl
@[simp] theorem setSampleStore_ebn0 (b : SampleBuf) (m : Memory) : (setSampleStore s b m).ebn0 = s.ebn0 := by cases b <;> rfl
@[simp] theorem setSampleStore_measSnr (b : SampleBuf) (m : Memory) : (setSampleStore s b m).measSnr = s.measSnr := by cases b <;> rfl
@[simp] theorem setSampleStore_phase (b : SampleBuf) (m : Memory) : (setSampleStore s b m).phase = s.phase := by cases b <;> rfl
@[simp] theorem setSampleStore_ba (b : SampleBuf) (m : Memory) : (setSampleStore s b m).ba = s.ba := by cases b <;> rfl
@[simp] theorem setSampleStore_bb (b : SampleBuf) (m : Memory) : (setSampleStore s b m).bb = s.bb := by cases b <;> rfl
@[simp] theorem setSampleStore_agenda (b : SampleBuf) (m : Memory) : (setSampleStore s b m).agenda = s.agenda := by cases b <;> rfl
@[simp] theorem setSampleStore_response (b : SampleBuf) (m : Memory) : (setSampleStore s b m).response = s.response := by cases b <;> rfl
@[simp] theorem setSampleStore_drawCount (b : SampleBuf) (m : Memory) : (setSampleStore s b m).drawCount = s.drawCount := by cases b <;> rfl
@[simp] theorem setSampleStore_resetCount (b : SampleBuf) (m : Memory) : (setSampleStore s b m).resetCount = s.resetCount := by cases b <;> rfl

/-! ### putBits -/

@[simp] theorem putBits_ctrlMod (b : BitBuf) (k : Nat) (out : List Bool) : (putBits s b k out).ctrlMod = s.ctrlMod := by cases b <;> rfl
@[simp] theorem putBits_ctrlCod (b : BitBuf) (k : Nat) (out : List Bool) : (putBits s b k out).ctrlCod = s.ctrlCod := by cases b <;> rfl
@[simp] theorem putBits_statusDone (b : BitBuf) (k : Nat) (out : List Bool) : (putBits s b k out).statusDone = s.statusDone := by cases b <;> rfl
@[simp] theorem putBits_statusErr (b : BitBuf) (k : Nat) (out : List Bool) : (putBits s b k out).statusErr = s.statusErr := by cases b <;> rfl
@[simp] theorem putBits_statusWerr (b : BitBuf) (k : Nat) (out : List Bool) : (putBits s b k out).statusWerr = s.statusWerr := by cases b <;> rfl
@[simp] theorem putBits_errcode (b : BitBuf) (k : Nat) (out : List Bool) : (putBits s b k out).errcode = s.errcode := by cases b <;> rfl
@[simp] theorem putBits_lenBa (b : BitBuf) (k : Nat) (out : List Bool) : (putBits s b k out).lenBa = s.lenBa := by cases b <;> rfl
@[simp] theorem putBits_lenBb (b : BitBuf) (k : Nat) (out : List Bool) : (putBits s b k out).lenBb = s.lenBb := by cases b <;> rfl
@[simp] theorem putBits_lenX (b : BitBuf) (k : Nat) (out : List Bool) : (putBits s b k out).lenX = s.lenX := by cases b <;> rfl
@[simp] theorem putBits_lenY (b : BitBuf) (k : Nat) (out : List Bool) : (putBits s b k out).lenY = s.lenY := by cases b <;> rfl
@[simp] theorem putBits_seed (b : BitBuf) (k : Nat) (out : List Bool) : (putBits s b k out).seed = s.seed := by cases b <;> rfl
@[simp] theorem putBits_snrDb (b : BitBuf) (k : Nat) (out : List Bool) : (putBits s b k out).snrDb = s.snrDb := by cases b <;> rfl
@[simp] theorem putBits_bitrate (b : BitBuf) (k : Nat) (out : List Bool) : (putBits s b k out).bitrate = s.bitrate := by cases b <;> rfl
@[simp] theorem putBits_bandwidth (b : BitBuf) (k : Nat) (out : List Bool) : (putBits s b k out).bandwidth = s.bandwidth := by cases b <;> rfl
@[simp] theorem putBits_sigpwr (b : BitBuf) (k : Nat) (out : List Bool) : (putBits s b k out).sigpwr = s.sigpwr := by cases b <;> rfl
@[simp] theorem putBits_noisepwr (b : BitBuf) (k : Nat) (out : List Bool) : (putBits s b k out).noisepwr = s.noisepwr := by cases b <;> rfl
@[simp] theorem putBits_ebn0 (b : BitBuf) (k : Nat) (out : List Bool) : (putBits s b k out).ebn0 = s.ebn0 := by cases b <;> rfl
@[simp] theorem putBits_measSnr (b : BitBuf) (k : Nat) (out : List Bool) : (putBits s b k out).measSnr = s.measSnr := by cases b <;> rfl
@[simp] theorem putBits_phase (b : BitBuf) (k : Nat) (out : List Bool) : (putBits s b k out).phase = s.phase := by cases b <;> rfl
@[simp] theorem putBits_x (b : BitBuf) (k : Nat) (out : List Bool) : (putBits s b k out).x = s.x := by cases b <;> rfl
@[simp] theorem putBits_y (b : BitBuf) (k : Nat) (out : List Bool) : (putBits s b k out).y = s.y := by cases b <;> rfl
@[simp] theorem putBits_agenda (b : BitBuf) (k : Nat) (out : List Bool) : (putBits s b k out).agenda = s.agenda := by cases b <;> rfl
@[simp] theorem putBits_response (b : BitBuf) (k : Nat) (out : List Bool) : (putBits s b k out).response = s.response := by cases b <;> rfl
@[simp] theorem putBits_drawCount (b : BitBuf) (k : Nat) (out : List Bool) : (putBits s b k out).drawCount = s.drawCount := by cases b <;> rfl
@[simp] theorem putBits_resetCount (b : BitBuf) (k : Nat) (out : List Bool) : (putBits s b k out).resetCount = s.resetCount := by cases b <;> rfl

/-! ### putSampleBytes -/

@[simp] theorem putSampleBytes_ctrlMod (b : SampleBuf) (a : Nat) (out : List Byte) : (putSampleBytes s b a out).ctrlMod = s.ctrlMod := by cases b <;> rfl
@[simp] theorem putSampleBytes_ctrlCod (b : SampleBuf) (a : Nat) (out : List Byte) : (putSampleBytes s b a out).ctrlCod = s.ctrlCod := by cases b <;> rfl
@[simp] theorem putSampleBytes_statusDone (b : SampleBuf) (a : Nat) (out : List Byte) : (putSampleBytes s b a out).statusDone = s.statusDone := by cases b <;> rfl
@[simp] theorem putSampleBytes_statusErr (b : SampleBuf) (a : Nat) (out : List Byte) : (putSampleBytes s b a out).statusErr = s.statusErr := by cases b <;> rfl
@[simp] theorem putSampleBytes_statusWerr (b : SampleBuf) (a : Nat) (out : List Byte) : (putSampleBytes s b a out).statusWerr = s.statusWerr := by cases b <;> rfl
@[simp] theorem putSampleBytes_errcode (b : SampleBuf) (a : Nat) (out : List Byte) : (putSampleBytes s b a out).errcode = s.errcode := by cases b <;> rfl
@[simp] theorem putSampleBytes_lenBa (b : SampleBuf) (a : Nat) (out : List Byte) : (putSampleBytes s b a out).lenBa = s.lenBa := by cases b <;> rfl
@[simp] theorem putSampleBytes_lenBb (b : SampleBuf) (a : Nat) (out : List Byte) : (putSampleBytes s b a out).lenBb = s.lenBb := by cases b <;> rfl
@[simp] theorem putSampleBytes_lenX (b : SampleBuf) (a : Nat) (out : List Byte) : (putSampleBytes s b a out).lenX = s.lenX := by cases b <;> rfl
@[simp] theorem putSampleBytes_lenY (b : SampleBuf) (a : Nat) (out : List Byte) : (putSampleBytes s b a out).lenY = s.lenY := by cases b <;> rfl
@[simp] theorem putSampleBytes_seed (b : SampleBuf) (a : Nat) (out : List Byte) : (putSampleBytes s b a out).seed = s.seed := by cases b <;> rfl
@[simp] theorem putSampleBytes_snrDb (b : SampleBuf) (a : Nat) (out : List Byte) : (putSampleBytes s b a out).snrDb = s.snrDb := by cases b <;> rfl
@[simp] theorem putSampleBytes_bitrate (b : SampleBuf) (a : Nat) (out : List Byte) : (putSampleBytes s b a out).bitrate = s.bitrate := by cases b <;> rfl
@[simp] theorem putSampleBytes_bandwidth (b : SampleBuf) (a : Nat) (out : List Byte) : (putSampleBytes s b a out).bandwidth = s.bandwidth := by cases b <;> rfl
@[simp] theorem putSampleBytes_sigpwr (b : SampleBuf) (a : Nat) (out : List Byte) : (putSampleBytes s b a out).sigpwr = s.sigpwr := by cases b <;> rfl
@[simp] theorem putSampleBytes_noisepwr (b : SampleBuf) (a : Nat) (out : List Byte) : (putSampleBytes s b a out).noisepwr = s.noisepwr := by cases b <;> rfl
@[simp] theorem putSampleBytes_ebn0 (b : SampleBuf) (a : Nat) (out : List Byte) : (putSampleBytes s b a out).ebn0 = s.ebn0 := by cases b <;> rfl
@[simp] theorem putSampleBytes_measSnr (b : SampleBuf) (a : Nat) (out : List Byte) : (putSampleBytes s b a out).measSnr = s.measSnr := by cases b <;> rfl
@[simp] theorem putSampleBytes_phase (b : SampleBuf) (a : Nat) (out : List Byte) : (putSampleBytes s b a out).phase = s.phase := by cases b <;> rfl
@[simp] theorem putSampleBytes_ba (b : SampleBuf) (a : Nat) (out : List Byte) : (putSampleBytes s b a out).ba = s.ba := by cases b <;> rfl
@[simp] theorem putSampleBytes_bb (b : SampleBuf) (a : Nat) (out : List Byte) : (putSampleBytes s b a out).bb = s.bb := by cases b <;> rfl
@[simp] theorem putSampleBytes_agenda (b : SampleBuf) (a : Nat) (out : List Byte) : (putSampleBytes s b a out).agenda = s.agenda := by cases b <;> rfl
@[simp] theorem putSampleBytes_response (b : SampleBuf) (a : Nat) (out : List Byte) : (putSampleBytes s b a out).response = s.response := by cases b <;> rfl
@[simp] theorem putSampleBytes_drawCount (b : SampleBuf) (a : Nat) (out : List Byte) : (putSampleBytes s b a out).drawCount = s.drawCount := by cases b <;> rfl
@[simp] theorem putSampleBytes_resetCount (b : SampleBuf) (a : Nat) (out : List Byte) : (putSampleBytes s b a out).resetCount = s.resetCount := by cases b <;> rfl

/-! ### putSamples -/

@[simp] theorem putSamples_ctrlMod (b : SampleBuf) (k : Nat) (out : List F64) : (putSamples s b k out).ctrlMod = s.ctrlMod := by cases b <;> rfl
@[simp] theorem putSamples_ctrlCod (b : SampleBuf) (k : Nat) (out : List F64) : (putSamples s b k out).ctrlCod = s.ctrlCod := by cases b <;> rfl
@[simp] theorem putSamples_statusDone (b : SampleBuf) (k : Nat) (out : List F64) : (putSamples s b k out).statusDone = s.statusDone := by cases b <;> rfl
@[simp] theorem putSamples_statusErr (b : SampleBuf) (k : Nat) (out : List F64) : (putSamples s b k out).statusErr = s.statusErr := by cases b <;> rfl
@[simp] theorem putSamples_statusWerr (b : SampleBuf) (k : Nat) (out : List F64) : (putSamples s b k out).statusWerr = s.statusWerr := by cases b <;> rfl
@[simp] theorem putSamples_errcode (b : SampleBuf) (k : Nat) (out : List F64) : (putSamples s b k out).errcode = s.errcode := by cases b <;> rfl
@[simp] theorem putSamples_lenBa (b : SampleBuf) (k : Nat) (out : List F64) : (putSamples s b k out).lenBa = s.lenBa := by cases b <;> rfl
@[simp] theorem putSamples_lenBb (b : SampleBuf) (k : Nat) (out : List F64) : (putSamples s b k out).lenBb = s.lenBb := by cases b <;> rfl
@[simp] theorem putSamples_lenX (b : SampleBuf) (k : Nat) (out : List F64) : (putSamples s b k out).lenX = s.lenX := by cases b <;> rfl
@[simp] theorem putSamples_lenY (b : SampleBuf) (k : Nat) (out : List F64) : (putSamples s b k out).lenY = s.lenY := by cases b <;> rfl
@[simp] theorem putSamples_seed (b : SampleBuf) (k : Nat) (out : List F64) : (putSamples s b k out).seed = s.seed := by cases b <;> rfl
@[simp] theorem putSamples_snrDb (b : SampleBuf) (k : Nat) (out : List F64) : (putSamples s b k out).snrDb = s.snrDb := by cases b <;> rfl
@[simp] theorem putSamples_bitrate (b : SampleBuf) (k : Nat) (out : List F64) : (putSamples s b k out).bitrate = s.bitrate := by cases b <;> rfl
@[simp] theorem putSamples_bandwidth (b : SampleBuf) (k : Nat) (out : List F64) : (putSamples s b k out).bandwidth = s.bandwidth := by cases b <;> rfl
@[simp] theorem putSamples_sigpwr (b : SampleBuf) (k : Nat) (out : List F64) : (putSamples s b k out).sigpwr = s.sigpwr := by cases b <;> rfl
@[simp] theorem putSamples_noisepwr (b : SampleBuf) (k : Nat) (out : List F64) : (putSamples s b k out).noisepwr = s.noisepwr := by cases b <;> rfl
@[simp] theorem putSamples_ebn0 (b : SampleBuf) (k : Nat) (out : List F64) : (putSamples s b k out).ebn0 = s.ebn0 := by cases b <;> rfl
@[simp] theorem putSamples_measSnr (b : SampleBuf) (k : Nat) (out : List F64) : (putSamples s b k out).measSnr = s.measSnr := by cases b <;> rfl
@[simp] theorem putSamples_phase (b : SampleBuf) (k : Nat) (out : List F64) : (putSamples s b k out).phase = s.phase := by cases b <;> rfl
@[simp] theorem putSamples_ba (b : SampleBuf) (k : Nat) (out : List F64) : (putSamples s b k out).ba = s.ba := by cases b <;> rfl
@[simp] theorem putSamples_bb (b : SampleBuf) (k : Nat) (out : List F64) : (putSamples s b k out).bb = s.bb := by cases b <;> rfl
@[simp] theorem putSamples_agenda (b : SampleBuf) (k : Nat) (out : List F64) : (putSamples s b k out).agenda = s.agenda := by cases b <;> rfl
@[simp] theorem putSamples_response (b : SampleBuf) (k : Nat) (out : List F64) : (putSamples s b k out).response = s.response := by cases b <;> rfl
@[simp] theorem putSamples_drawCount (b : SampleBuf) (k : Nat) (out : List F64) : (putSamples s b k out).drawCount = s.drawCount := by cases b <;> rfl
@[simp] theorem putSamples_resetCount (b : SampleBuf) (k : Nat) (out : List F64) : (putSamples s b k out).resetCount = s.resetCount := by cases b <;> rfl

/-! ### outputBits -/

@[simp] theorem outputBits_ctrlMod (out : List Bool) : (outputBits s out).ctrlMod = s.ctrlMod := rfl
@[simp] theorem outputBits_ctrlCod (out : List Bool) : (outputBits s out).ctrlCod = s.ctrlCod := rfl
@[simp] theorem outputBits_statusDone (out : List Bool) : (outputBits s out).statusDone = s.statusDone := rfl
@[simp] theorem outputBits_statusErr (out : List Bool) : (outputBits s out).statusErr = s.statusErr := rfl
@[simp] theorem outputBits_statusWerr (out : List Bool) : (outputBits s out).statusWerr = s.statusWerr := rfl
@[simp] theorem outputBits_errcode (out : List Bool) : (outputBits s out).errcode = s.errcode := rfl
@[simp] theorem outputBits_lenBa (out : List Bool) : (outputBits s out).lenBa = s.lenBa := rfl
@[simp] theorem outputBits_lenBb (out : List Bool) : (outputBits s out).lenBb = BitVec.ofNat 32 out.length := rfl
@[simp] theorem outputBits_lenX (out : List Bool) : (outputBits s out).lenX = s.lenX := rfl
@[simp] theorem outputBits_lenY (out : List Bool) : (outputBits s out).lenY = s.lenY := rfl
@[simp] theorem outputBits_seed (out : List Bool) : (outputBits s out).seed = s.seed := rfl
@[simp] theorem outputBits_snrDb (out : List Bool) : (outputBits s out).snrDb = s.snrDb := rfl
@[simp] theorem outputBits_bitrate (out : List Bool) : (outputBits s out).bitrate = s.bitrate := rfl
@[simp] theorem outputBits_bandwidth (out : List Bool) : (outputBits s out).bandwidth = s.bandwidth := rfl
@[simp] theorem outputBits_sigpwr (out : List Bool) : (outputBits s out).sigpwr = s.sigpwr := rfl
@[simp] theorem outputBits_noisepwr (out : List Bool) : (outputBits s out).noisepwr = s.noisepwr := rfl
@[simp] theorem outputBits_ebn0 (out : List Bool) : (outputBits s out).ebn0 = s.ebn0 := rfl
@[simp] theorem outputBits_measSnr (out : List Bool) : (outputBits s out).measSnr = s.measSnr := rfl
@[simp] theorem outputBits_phase (out : List Bool) : (outputBits s out).phase = s.phase := rfl
@[simp] theorem outputBits_ba (out : List Bool) : (outputBits s out).ba = s.ba := rfl
@[simp] theorem outputBits_bb (out : List Bool) : (outputBits s out).bb = storeSetMany s.bb 0 out := rfl
@[simp] theorem outputBits_x (out : List Bool) : (outputBits s out).x = s.x := rfl
@[simp] theorem outputBits_y (out : List Bool) : (outputBits s out).y = s.y := rfl
@[simp] theorem outputBits_agenda (out : List Bool) : (outputBits s out).agenda = s.agenda := rfl
@[simp] theorem outputBits_response (out : List Bool) : (outputBits s out).response = s.response := rfl
@[simp] theorem outputBits_drawCount (out : List Bool) : (outputBits s out).drawCount = s.drawCount := rfl
@[simp] theorem outputBits_resetCount (out : List Bool) : (outputBits s out).resetCount = s.resetCount := rfl

/-! ### outputX -/

@[simp] theorem outputX_ctrlMod (out : List F64) : (outputX s out).ctrlMod = s.ctrlMod := rfl
@[simp] theorem outputX_ctrlCod (out : List F64) : (outputX s out).ctrlCod = s.ctrlCod := rfl
@[simp] theorem outputX_statusDone (out : List F64) : (outputX s out).statusDone = s.statusDone := rfl
@[simp] theorem outputX_statusErr (out : List F64) : (outputX s out).statusErr = s.statusErr := rfl
@[simp] theorem outputX_statusWerr (out : List F64) : (outputX s out).statusWerr = s.statusWerr := rfl
@[simp] theorem outputX_errcode (out : List F64) : (outputX s out).errcode = s.errcode := rfl
@[simp] theorem outputX_lenBa (out : List F64) : (outputX s out).lenBa = s.lenBa := rfl
@[simp] theorem outputX_lenBb (out : List F64) : (outputX s out).lenBb = s.lenBb := rfl
@[simp] theorem outputX_lenX (out : List F64) : (outputX s out).lenX = BitVec.ofNat 32 out.length := rfl
@[simp] theorem outputX_lenY (out : List F64) : (outputX s out).lenY = s.lenY := rfl
@[simp] theorem outputX_seed (out : List F64) : (outputX s out).seed = s.seed := rfl
@[simp] theorem outputX_snrDb (out : List F64) : (outputX s out).snrDb = s.snrDb := rfl
@[simp] theorem outputX_bitrate (out : List F64) : (outputX s out).bitrate = s.bitrate := rfl
@[simp] theorem outputX_bandwidth (out : List F64) : (outputX s out).bandwidth = s.bandwidth := rfl
@[simp] theorem outputX_sigpwr (out : List F64) : (outputX s out).sigpwr = s.sigpwr := rfl
@[simp] theorem outputX_noisepwr (out : List F64) : (outputX s out).noisepwr = s.noisepwr := rfl
@[simp] theorem outputX_ebn0 (out : List F64) : (outputX s out).ebn0 = s.ebn0 := rfl
@[simp] theorem outputX_measSnr (out : List F64) : (outputX s out).measSnr = s.measSnr := rfl
@[simp] theorem outputX_phase (out : List F64) : (outputX s out).phase = s.phase := rfl
@[simp] theorem outputX_ba (out : List F64) : (outputX s out).ba = s.ba := rfl
@[simp] theorem outputX_bb (out : List F64) : (outputX s out).bb = s.bb := rfl
@[simp] theorem outputX_x (out : List F64) : (outputX s out).x = storeSetMany s.x (entryAddr .x 0) (out.flatMap sampleBytes) := rfl
@[simp] theorem outputX_y (out : List F64) : (outputX s out).y = s.y := rfl
@[simp] theorem outputX_agenda (out : List F64) : (outputX s out).agenda = s.agenda := rfl
@[simp] theorem outputX_response (out : List F64) : (outputX s out).response = s.response := rfl
@[simp] theorem outputX_drawCount (out : List F64) : (outputX s out).drawCount = s.drawCount := rfl
@[simp] theorem outputX_resetCount (out : List F64) : (outputX s out).resetCount = s.resetCount := rfl

/-! ### outputY -/

@[simp] theorem outputY_ctrlMod (out : List F64) : (outputY s out).ctrlMod = s.ctrlMod := rfl
@[simp] theorem outputY_ctrlCod (out : List F64) : (outputY s out).ctrlCod = s.ctrlCod := rfl
@[simp] theorem outputY_statusDone (out : List F64) : (outputY s out).statusDone = s.statusDone := rfl
@[simp] theorem outputY_statusErr (out : List F64) : (outputY s out).statusErr = s.statusErr := rfl
@[simp] theorem outputY_statusWerr (out : List F64) : (outputY s out).statusWerr = s.statusWerr := rfl
@[simp] theorem outputY_errcode (out : List F64) : (outputY s out).errcode = s.errcode := rfl
@[simp] theorem outputY_lenBa (out : List F64) : (outputY s out).lenBa = s.lenBa := rfl
@[simp] theorem outputY_lenBb (out : List F64) : (outputY s out).lenBb = s.lenBb := rfl
@[simp] theorem outputY_lenX (out : List F64) : (outputY s out).lenX = s.lenX := rfl
@[simp] theorem outputY_lenY (out : List F64) : (outputY s out).lenY = BitVec.ofNat 32 out.length := rfl
@[simp] theorem outputY_seed (out : List F64) : (outputY s out).seed = s.seed := rfl
@[simp] theorem outputY_snrDb (out : List F64) : (outputY s out).snrDb = s.snrDb := rfl
@[simp] theorem outputY_bitrate (out : List F64) : (outputY s out).bitrate = s.bitrate := rfl
@[simp] theorem outputY_bandwidth (out : List F64) : (outputY s out).bandwidth = s.bandwidth := rfl
@[simp] theorem outputY_sigpwr (out : List F64) : (outputY s out).sigpwr = s.sigpwr := rfl
@[simp] theorem outputY_noisepwr (out : List F64) : (outputY s out).noisepwr = s.noisepwr := rfl
@[simp] theorem outputY_ebn0 (out : List F64) : (outputY s out).ebn0 = s.ebn0 := rfl
@[simp] theorem outputY_measSnr (out : List F64) : (outputY s out).measSnr = s.measSnr := rfl
@[simp] theorem outputY_phase (out : List F64) : (outputY s out).phase = s.phase := rfl
@[simp] theorem outputY_ba (out : List F64) : (outputY s out).ba = s.ba := rfl
@[simp] theorem outputY_bb (out : List F64) : (outputY s out).bb = s.bb := rfl
@[simp] theorem outputY_x (out : List F64) : (outputY s out).x = s.x := rfl
@[simp] theorem outputY_y (out : List F64) : (outputY s out).y = storeSetMany s.y (entryAddr .y 0) (out.flatMap sampleBytes) := rfl
@[simp] theorem outputY_agenda (out : List F64) : (outputY s out).agenda = s.agenda := rfl
@[simp] theorem outputY_response (out : List F64) : (outputY s out).response = s.response := rfl
@[simp] theorem outputY_drawCount (out : List F64) : (outputY s out).drawCount = s.drawCount := rfl
@[simp] theorem outputY_resetCount (out : List F64) : (outputY s out).resetCount = s.resetCount := rfl

/-! ### resetBlock -/

@[simp] theorem resetBlock_ctrlMod : (resetBlock s).ctrlMod = State.reset.ctrlMod := rfl
@[simp] theorem resetBlock_ctrlCod : (resetBlock s).ctrlCod = State.reset.ctrlCod := rfl
@[simp] theorem resetBlock_statusDone : (resetBlock s).statusDone = State.reset.statusDone := rfl
@[simp] theorem resetBlock_statusErr : (resetBlock s).statusErr = State.reset.statusErr := rfl
@[simp] theorem resetBlock_statusWerr : (resetBlock s).statusWerr = State.reset.statusWerr := rfl
@[simp] theorem resetBlock_errcode : (resetBlock s).errcode = State.reset.errcode := rfl
@[simp] theorem resetBlock_lenBa : (resetBlock s).lenBa = State.reset.lenBa := rfl
@[simp] theorem resetBlock_lenBb : (resetBlock s).lenBb = State.reset.lenBb := rfl
@[simp] theorem resetBlock_lenX : (resetBlock s).lenX = State.reset.lenX := rfl
@[simp] theorem resetBlock_lenY : (resetBlock s).lenY = State.reset.lenY := rfl
@[simp] theorem resetBlock_seed : (resetBlock s).seed = State.reset.seed := rfl
@[simp] theorem resetBlock_snrDb : (resetBlock s).snrDb = State.reset.snrDb := rfl
@[simp] theorem resetBlock_bitrate : (resetBlock s).bitrate = State.reset.bitrate := rfl
@[simp] theorem resetBlock_bandwidth : (resetBlock s).bandwidth = State.reset.bandwidth := rfl
@[simp] theorem resetBlock_sigpwr : (resetBlock s).sigpwr = State.reset.sigpwr := rfl
@[simp] theorem resetBlock_noisepwr : (resetBlock s).noisepwr = State.reset.noisepwr := rfl
@[simp] theorem resetBlock_ebn0 : (resetBlock s).ebn0 = State.reset.ebn0 := rfl
@[simp] theorem resetBlock_measSnr : (resetBlock s).measSnr = State.reset.measSnr := rfl
@[simp] theorem resetBlock_phase : (resetBlock s).phase = State.reset.phase := rfl
@[simp] theorem resetBlock_ba : (resetBlock s).ba = State.reset.ba := rfl
@[simp] theorem resetBlock_bb : (resetBlock s).bb = State.reset.bb := rfl
@[simp] theorem resetBlock_x : (resetBlock s).x = State.reset.x := rfl
@[simp] theorem resetBlock_y : (resetBlock s).y = State.reset.y := rfl
@[simp] theorem resetBlock_agenda : (resetBlock s).agenda = s.agenda := rfl
@[simp] theorem resetBlock_response : (resetBlock s).response = s.response := rfl
@[simp] theorem resetBlock_drawCount : (resetBlock s).drawCount = s.drawCount := rfl
@[simp] theorem resetBlock_resetCount : (resetBlock s).resetCount = s.resetCount + 1 := rfl

/-! ### Reading a buffer back through an update of the stores -/

@[simp] theorem bitStore_setBitStore_same (b : BitBuf) (m : BitStore) :
    bitStore (setBitStore s b m) b = m := by cases b <;> rfl
theorem bitStore_setBitStore_other (b c : BitBuf) (m : BitStore) (h : c ≠ b) :
    bitStore (setBitStore s b m) c = bitStore s c := by cases b <;> cases c <;> first | rfl | exact absurd rfl h
@[simp] theorem sampleStore_setSampleStore_same (b : SampleBuf) (m : Memory) :
    sampleStore (setSampleStore s b m) b = m := by cases b <;> rfl
theorem sampleStore_setSampleStore_other (b c : SampleBuf) (m : Memory) (h : c ≠ b) :
    sampleStore (setSampleStore s b m) c = sampleStore s c := by
  cases b <;> cases c <;> first | rfl | exact absurd rfl h
@[simp] theorem sampleStore_setBitStore (b : BitBuf) (c : SampleBuf) (m : BitStore) :
    sampleStore (setBitStore s b m) c = sampleStore s c := by cases b <;> cases c <;> rfl
@[simp] theorem bitStore_setSampleStore (b : SampleBuf) (c : BitBuf) (m : Memory) :
    bitStore (setSampleStore s b m) c = bitStore s c := by cases b <;> cases c <;> rfl

end Sys2Proof.Machine
end

