-- ==== Sys2Proof/Laws/Memory.lean ====
section
/-! SUPPORT. The sparse memories: reading after a write, the canonical form kept, equal memories equal
data; and from them, reading the buffers' entries back. -/

namespace Sys2Proof.Machine

variable {α : Type}

@[simp] theorem storeGet_nil (q : Nat) : storeGet ([] : Store α) q = none := rfl

theorem storeGet_cons (k : Nat) (v : α) (m : Store α) (q : Nat) :
    storeGet ((k, v) :: m) q = if q = k then some v else storeGet m q := rfl

/-- Reading after one write. -/
theorem storeGet_storeSet (m : Store α) (k : Nat) (v : α) (q : Nat) :
    storeGet (storeSet m k v) q = if q = k then some v else storeGet m q := by
  induction m with
  | nil => rfl
  | cons c rest ih =>
    obtain ⟨k', v'⟩ := c
    simp only [storeSet]
    split
    · simp only [storeGet_cons]
    · split
      · next h => subst h; simp only [storeGet_cons]; split <;> simp_all
      · next h =>
        simp only [storeGet_cons, ih]
        by_cases hq : q = k'
        · simp [hq]; omega
        · simp [hq]

/-- Reading after a sequence was written under consecutive keys. -/
theorem storeGet_storeSetMany (m : Store α) (k : Nat) (vs : List α) (q : Nat) :
    storeGet (storeSetMany m k vs) q = if k ≤ q ∧ q < k + vs.length then vs[q - k]? else storeGet m q := by
  induction vs generalizing m k with
  | nil => simp [storeSetMany]
  | cons v rest ih =>
    simp only [storeSetMany, ih, storeGet_storeSet, List.length_cons]
    by_cases hq : q = k
    · subst hq; simp
    · by_cases h : k ≤ q ∧ q < k + (rest.length + 1)
      · have h' : k + 1 ≤ q ∧ q < k + 1 + rest.length := by omega
        obtain ⟨d, hd⟩ : ∃ d, q = k + 1 + d := ⟨q - (k + 1), by omega⟩
        subst hd
        have e1 : k + 1 + d - (k + 1) = d := by omega
        have e2 : k + 1 + d - k = d + 1 := by omega
        rw [if_pos h', if_pos h, e1, e2, List.getElem?_cons_succ]
      · have h' : ¬(k + 1 ≤ q ∧ q < k + 1 + rest.length) := by omega
        rw [if_neg h', if_neg h, if_neg hq]

theorem storeGet_storeSetMany_inside (m : Store α) (k : Nat) (vs : List α) (i : Nat) (h : i < vs.length) :
    storeGet (storeSetMany m k vs) (k + i) = some vs[i] := by
  rw [storeGet_storeSetMany, if_pos ⟨by omega, by omega⟩]
  simp [h]

theorem storeGet_storeSetMany_outside (m : Store α) (k : Nat) (vs : List α) (q : Nat)
    (h : q < k ∨ k + vs.length ≤ q) : storeGet (storeSetMany m k vs) q = storeGet m q := by
  rw [storeGet_storeSetMany, if_neg (by omega)]

theorem mem_storeSet (m : Store α) (k : Nat) (v : α) (c : Nat × α) (h : c ∈ storeSet m k v) :
    c = (k, v) ∨ c ∈ m := by
  induction m with
  | nil => simpa [storeSet] using h
  | cons d rest ih =>
    obtain ⟨k', v'⟩ := d
    simp only [storeSet] at h
    split at h
    · simpa using h
    · split at h
      · simp only [List.mem_cons] at h ⊢; tauto
      · simp only [List.mem_cons] at h ⊢
        rcases h with h | h
        · exact .inr (.inl h)
        · rcases ih h with h | h <;> tauto

/-- One write in range keeps the canonical form. -/
theorem storeSet_wf {lo hi : Nat} {m : Store α} (k : Nat) (v : α) (h : Store.wf lo hi m)
    (hk : lo ≤ k ∧ k < hi) : Store.wf lo hi (storeSet m k v) := by
  refine ⟨?_, ?_⟩
  · have hp := h.1
    clear h
    induction m with
    | nil => simp [storeSet]
    | cons d rest ih =>
      obtain ⟨k', v'⟩ := d
      rw [List.pairwise_cons] at hp
      simp only [storeSet]
      split
      · next hlt =>
        refine List.pairwise_cons.2 ⟨?_, List.pairwise_cons.2 hp⟩
        intro c hc
        rcases List.mem_cons.1 hc with rfl | hc
        · exact hlt
        · exact lt_trans hlt (hp.1 c hc)
      · split
        · next heq => subst heq; exact List.pairwise_cons.2 hp
        · next hlt hne =>
          refine List.pairwise_cons.2 ⟨?_, ih hp.2⟩
          intro c hc
          rcases mem_storeSet rest k v c hc with rfl | hc
          · show k' < k; omega
          · exact hp.1 c hc
  · intro c hc
    rcases mem_storeSet m k v c hc with rfl | hc
    · exact hk
    · exact h.2 c hc

/-- A sequence of writes in range keeps the canonical form. -/
theorem storeSetMany_wf {lo hi : Nat} {m : Store α} (k : Nat) (vs : List α) (h : Store.wf lo hi m)
    (hlo : lo ≤ k) (hhi : k + vs.length ≤ hi) : Store.wf lo hi (storeSetMany m k vs) := by
  induction vs generalizing m k with
  | nil => exact h
  | cons v rest ih =>
    rw [List.length_cons] at hhi
    exact ih (k + 1) (storeSet_wf k v h ⟨hlo, by omega⟩) (by omega) (by omega)

theorem storeGet_eq_none_of_lt (m : Store α) (q : Nat) (h : ∀ c ∈ m, q < c.1) : storeGet m q = none := by
  induction m with
  | nil => rfl
  | cons d rest ih =>
    obtain ⟨k, v⟩ := d
    have hk : q < k := h (k, v) (by simp)
    rw [storeGet_cons, if_neg (by omega), ih (fun c hc => h c (by simp [hc]))]

/-- Equal memories are equal data: two canonical memories that hold the same under every key are one. -/
theorem store_ext (m n : Store α) (hm : m.Pairwise (fun c d => c.1 < d.1))
    (hn : n.Pairwise (fun c d => c.1 < d.1)) (h : ∀ q, storeGet m q = storeGet n q) : m = n := by
  induction m generalizing n with
  | nil =>
    cases n with
    | nil => rfl
    | cons d rest => have := h d.1; simp [storeGet] at this
  | cons c m ih =>
    obtain ⟨k, v⟩ := c
    cases n with
    | nil => have := h k; simp [storeGet] at this
    | cons d n =>
      obtain ⟨k', v'⟩ := d
      rw [List.pairwise_cons] at hm hn
      have hk : k = k' := by
        rcases lt_trichotomy k k' with hlt | heq | hlt
        · have := h k
          rw [storeGet_cons, if_pos rfl, storeGet_eq_none_of_lt ((k', v') :: n) k] at this
          · simp at this
          · intro c hc
            rcases List.mem_cons.1 hc with rfl | hc
            · exact hlt
            · exact lt_trans hlt (hn.1 c hc)
        · exact heq
        · have := h k'
          rw [storeGet_cons k' v' n, if_pos rfl, storeGet_eq_none_of_lt ((k, v) :: m) k'] at this
          · simp at this
          · intro c hc
            rcases List.mem_cons.1 hc with rfl | hc
            · exact hlt
            · exact lt_trans hlt (hm.1 c hc)
      subst hk
      have hv : v = v' := by simpa [storeGet_cons] using h k
      subst hv
      congr 1
      refine ih n hm.2 hn.2 (fun q => ?_)
      have := h q
      rw [storeGet_cons, storeGet_cons] at this
      by_cases hq : q = k
      · subst hq
        rw [storeGet_eq_none_of_lt m q hm.1, storeGet_eq_none_of_lt n q hn.1]
      · simpa [hq] using this

end Sys2Proof.Machine
end

