-- ==== Sys2Proof/Laws/Buffers.lean ====
section
/-! SUPPORT. The buffers' entries: what a write of a sequence leaves in every entry (R44), the halves and
bytes of a word (R65, R66), and the canonical form kept. -/

namespace Sys2Proof.Machine

/-! ### Halves, bytes and words -/

@[simp] theorem joinHalves_hi_lo (v : F64) : joinHalves (hiHalf v) (loHalf v) = v := by
  apply BitVec.eq_of_getLsbD_eq
  intro i hi
  simp only [joinHalves, hiHalf, loHalf, BitVec.getLsbD_append, BitVec.getLsbD_extractLsb']
  by_cases h : i < 32
  · simp [h]
  · have h1 : i - 32 < 32 := by omega
    have h2 : 32 + (i - 32) = i := by omega
    simp [h, h1, h2]

@[simp] theorem loHalf_joinHalves (hi lo : Word) : loHalf (joinHalves hi lo) = lo := by
  apply BitVec.eq_of_getLsbD_eq
  intro i hi
  simp only [joinHalves, loHalf, BitVec.getLsbD_extractLsb', BitVec.getLsbD_append, Nat.zero_add, hi,
    decide_true, Bool.true_and, if_true]

@[simp] theorem hiHalf_joinHalves (hi lo : Word) : hiHalf (joinHalves hi lo) = hi := by
  apply BitVec.eq_of_getLsbD_eq
  intro i hi
  have h : ¬ 32 + i < 32 := by omega
  have h2 : 32 + i - 32 = i := by omega
  simp only [joinHalves, hiHalf, BitVec.getLsbD_extractLsb', BitVec.getLsbD_append, hi, h, h2,
    decide_true, Bool.true_and, if_false]

/-- A word is its four bytes, the byte at the lowest address lowest (R66). -/
theorem word_of_bytes (v : Word) :
    ((byteOf v 3 ++ byteOf v 2) ++ byteOf v 1) ++ byteOf v 0 = v := by
  apply BitVec.eq_of_getLsbD_eq
  intro i hi
  simp only [byteOf, BitVec.getLsbD_append, BitVec.getLsbD_extractLsb']
  by_cases h0 : i < 8
  · simp [h0]
  · by_cases h1 : i - 8 < 8
    · have e : 8 + (i - 8) = i := by omega
      simp [h0, h1, e]
    · by_cases h2 : i - 8 - 8 < 8
      · have e : 16 + (i - 8 - 8) = i := by omega
        simp [h0, h1, h2, e]
      · have h3 : i - 8 - 8 - 8 < 8 := by omega
        have e : 24 + (i - 8 - 8 - 8) = i := by omega
        simp [h0, h1, h2, h3, e]

@[simp] theorem wordBytes_length (v : Word) : (wordBytes v).length = 4 := rfl
@[simp] theorem sampleBytes_length (v : F64) : (sampleBytes v).length = 8 := rfl

theorem flatMap_sampleBytes_length (out : List F64) :
    (out.flatMap sampleBytes).length = 8 * out.length := by
  induction out with
  | nil => rfl
  | cons v rest ih => simp [List.flatMap_cons, ih]; omega

theorem flatMap_sampleBytes_get (out : List F64) (i r : Nat) (hi : i < out.length) (hr : r < 8) :
    (out.flatMap sampleBytes)[8 * i + r]? = (sampleBytes out[i])[r]? := by
  induction out generalizing i with
  | nil => simp at hi
  | cons v rest ih =>
    rw [List.flatMap_cons]
    cases i with
    | zero =>
      rw [List.getElem?_append_left (by simp; omega)]
      simp
    | succ i =>
      rw [List.getElem?_append_right (by simp; omega)]
      have e : 8 * (i + 1) + r - (sampleBytes v).length = 8 * i + r := by simp; omega
      rw [e, ih i (by simpa using hi)]
      simp

/-! ### Bit entries -/

/-- A bit entry depends only on the buffer's store and on the draw in force. -/
theorem bitAt_congr {s t : State} (b : BitBuf) (h : bitStore t b = bitStore s b)
    (hr : t.resetCount = s.resetCount) (j : Nat) : bitAt t b j = bitAt s b j := by
  unfold bitAt; rw [h, hr]

theorem bitAt_putBits_inside (s : State) (b : BitBuf) (k : Nat) (out : List Bool) (i : Nat)
    (h : i < out.length) : bitAt (putBits s b k out) b (k + i) = out[i] := by
  simp [bitAt, putBits, storeGet_storeSetMany_inside _ _ _ _ h]

theorem bitAt_putBits_outside (s : State) (b : BitBuf) (k : Nat) (out : List Bool) (j : Nat)
    (h : j < k ∨ k + out.length ≤ j) : bitAt (putBits s b k out) b j = bitAt s b j := by
  simp [bitAt, putBits, storeGet_storeSetMany_outside _ _ _ _ h]

theorem bitAt_putBits_other (s : State) (b c : BitBuf) (k : Nat) (out : List Bool) (j : Nat) (h : c ≠ b) :
    bitAt (putBits s b k out) c j = bitAt s c j := by
  apply bitAt_congr
  · exact bitStore_setBitStore_other s b c _ h
  · simp

@[simp] theorem bitAt_putSampleBytes (s : State) (b : SampleBuf) (a : Nat) (bytes : List Byte) (c : BitBuf)
    (j : Nat) : bitAt (putSampleBytes s b a bytes) c j = bitAt s c j := by
  apply bitAt_congr <;> simp [putSampleBytes]

/-- The entries of BB after an output: below the length the output, above it as before (R44). -/
theorem bitAt_outputBits (s : State) (out : List Bool) (j : Nat) :
    bitAt (outputBits s out) .bb j = if h : j < out.length then out[j] else bitAt s .bb j := by
  have e : bitAt (outputBits s out) .bb j = bitAt (putBits s .bb 0 out) .bb j := bitAt_congr _ rfl rfl j
  rw [e]
  split
  · next h => have := bitAt_putBits_inside s .bb 0 out j h; rwa [Nat.zero_add] at this
  · next h => exact bitAt_putBits_outside s .bb 0 out j (by omega)

/-! ### Sample entries -/

theorem sampleByte_congr {s t : State} (b : SampleBuf) (h : sampleStore t b = sampleStore s b)
    (hr : t.resetCount = s.resetCount) (a : Nat) : sampleByte t b a = sampleByte s b a := by
  unfold sampleByte; rw [h, hr]

/-- A sample entry depends only on the buffer's store and on the draw in force. -/
theorem sampleAt_congr {s t : State} (b : SampleBuf) (h : sampleStore t b = sampleStore s b)
    (hr : t.resetCount = s.resetCount) (i : Nat) : sampleAt t b i = sampleAt s b i := by
  simp only [sampleAt, sampleWord, sampleByte_congr b h hr]

theorem sampleByte_putSampleBytes_inside (s : State) (b : SampleBuf) (a : Nat) (bytes : List Byte) (i : Nat)
    (v : Byte) (h : bytes[i]? = some v) : sampleByte (putSampleBytes s b a bytes) b (a + i) = v := by
  obtain ⟨hi, hv⟩ := List.getElem?_eq_some_iff.1 h
  simp [sampleByte, putSampleBytes, storeGet_storeSetMany_inside _ _ _ _ hi, hv]

theorem sampleByte_putSampleBytes_outside (s : State) (b : SampleBuf) (a : Nat) (bytes : List Byte) (q : Nat)
    (h : q < a ∨ a + bytes.length ≤ q) :
    sampleByte (putSampleBytes s b a bytes) b q = sampleByte s b q := by
  simp [sampleByte, putSampleBytes, storeGet_storeSetMany_outside _ _ _ _ h]

theorem sampleByte_putSampleBytes_other (s : State) (b c : SampleBuf) (a : Nat) (bytes : List Byte) (q : Nat)
    (h : c ≠ b) : sampleByte (putSampleBytes s b a bytes) c q = sampleByte s c q := by
  apply sampleByte_congr
  · exact sampleStore_setSampleStore_other s b c _ h
  · simp

/-- A word written reads back (R65, R66). -/
theorem sampleWord_putSampleWord_same (s : State) (b : SampleBuf) (a : Nat) (v : Word) :
    sampleWord (putSampleWord s b a v) b a = v := by
  have h (i : Nat) (hi : i < 4) : sampleByte (putSampleWord s b a v) b (a + i) = byteOf v i :=
    sampleByte_putSampleBytes_inside s b a (wordBytes v) i (byteOf v i)
      (by rcases i with _ | _ | _ | _ | i <;> first | rfl | omega)
  have h0 := h 0 (by omega)
  rw [Nat.add_zero] at h0
  unfold sampleWord
  rw [h 3 (by omega), h 2 (by omega), h 1 (by omega), h0, word_of_bytes]

/-- A word written leaves every other word of the buffer that does not overlap it. -/
theorem sampleWord_putSampleWord_apart (s : State) (b : SampleBuf) (a q : Nat) (v : Word)
    (h : q + 4 ≤ a ∨ a + 4 ≤ q) : sampleWord (putSampleWord s b a v) b q = sampleWord s b q := by
  have e (i : Nat) (hi : i < 4) : sampleByte (putSampleWord s b a v) b (q + i) = sampleByte s b (q + i) :=
    sampleByte_putSampleBytes_outside s b a (wordBytes v) (q + i) (by simp; omega)
  have e0 := e 0 (by omega)
  rw [Nat.add_zero] at e0
  unfold sampleWord
  rw [e 3 (by omega), e 2 (by omega), e 1 (by omega), e0]

theorem sampleWord_putSampleWord_other (s : State) (b c : SampleBuf) (a q : Nat) (v : Word) (h : c ≠ b) :
    sampleWord (putSampleWord s b a v) c q = sampleWord s c q := by
  simp only [sampleWord, putSampleWord, sampleByte_putSampleBytes_other _ _ _ _ _ _ h]

/-- An entry inside a written sequence. -/
theorem sampleAt_putSamples_inside (s : State) (b : SampleBuf) (k : Nat) (out : List F64) (i : Nat)
    (h : i < out.length) : sampleAt (putSamples s b k out) b (k + i) = out[i] := by
  have hb (r : Nat) (hr : r < 8) (v : Byte) (hv : (sampleBytes out[i])[r]? = some v) :
      sampleByte (putSamples s b k out) b (entryAddr b k + (8 * i + r)) = v :=
    sampleByte_putSampleBytes_inside s b _ _ _ v (by rw [flatMap_sampleBytes_get out i r h hr, hv])
  have ea (r : Nat) : entryAddr b (k + i) + r = entryAddr b k + (8 * i + r) := by
    simp only [entryAddr]; omega
  have h0 := hb 0 (by omega) (byteOf (loHalf out[i]) 0) rfl
  rw [← ea 0, Nat.add_zero] at h0
  have h1 := hb 1 (by omega) (byteOf (loHalf out[i]) 1) rfl
  have h2 := hb 2 (by omega) (byteOf (loHalf out[i]) 2) rfl
  have h3 := hb 3 (by omega) (byteOf (loHalf out[i]) 3) rfl
  have h4 := hb 4 (by omega) (byteOf (hiHalf out[i]) 0) rfl
  have h5 := hb 5 (by omega) (byteOf (hiHalf out[i]) 1) rfl
  have h6 := hb 6 (by omega) (byteOf (hiHalf out[i]) 2) rfl
  have h7 := hb 7 (by omega) (byteOf (hiHalf out[i]) 3) rfl
  rw [← ea] at h1 h2 h3 h4 h5 h6 h7
  simp only [sampleAt, sampleWord, Nat.add_assoc, Nat.reduceAdd]
  rw [h0, h1, h2, h3, h4, h5, h6, h7, word_of_bytes, word_of_bytes, joinHalves_hi_lo]

/-- An entry outside a written sequence. -/
theorem sampleAt_putSamples_outside (s : State) (b : SampleBuf) (k : Nat) (out : List F64) (j : Nat)
    (h : j < k ∨ k + out.length ≤ j) : sampleAt (putSamples s b k out) b j = sampleAt s b j := by
  have e (r : Nat) (hr : r < 8) :
      sampleByte (putSamples s b k out) b (entryAddr b j + r) = sampleByte s b (entryAddr b j + r) := by
    apply sampleByte_putSampleBytes_outside
    rw [flatMap_sampleBytes_length]
    simp only [entryAddr]
    omega
  have e0 := e 0 (by omega)
  rw [Nat.add_zero] at e0
  simp only [sampleAt, sampleWord, Nat.add_assoc, Nat.reduceAdd]
  rw [e 1 (by omega), e 2 (by omega), e 3 (by omega), e 4 (by omega), e 5 (by omega), e 6 (by omega),
    e 7 (by omega), e0]

theorem sampleAt_putSamples_other (s : State) (b c : SampleBuf) (k : Nat) (out : List F64) (j : Nat)
    (h : c ≠ b) : sampleAt (putSamples s b k out) c j = sampleAt s c j := by
  apply sampleAt_congr
  · exact sampleStore_setSampleStore_other s b c _ h
  · simp

@[simp] theorem sampleByte_putBits (s : State) (b : BitBuf) (k : Nat) (out : List Bool) (c : SampleBuf)
    (a : Nat) : sampleByte (putBits s b k out) c a = sampleByte s c a := by
  apply sampleByte_congr <;> simp [putBits]

/-- The entries of X after an output (R44). -/
theorem sampleAt_outputX (s : State) (out : List F64) (j : Nat) :
    sampleAt (outputX s out) .x j = if h : j < out.length then out[j] else sampleAt s .x j := by
  have e : sampleAt (outputX s out) .x j = sampleAt (putSamples s .x 0 out) .x j :=
    sampleAt_congr _ rfl rfl j
  rw [e]
  split
  · next h => have := sampleAt_putSamples_inside s .x 0 out j h; rwa [Nat.zero_add] at this
  · next h => exact sampleAt_putSamples_outside s .x 0 out j (by omega)

/-- The entries of Y after an output (R44). -/
theorem sampleAt_outputY (s : State) (out : List F64) (j : Nat) :
    sampleAt (outputY s out) .y j = if h : j < out.length then out[j] else sampleAt s .y j := by
  have e : sampleAt (outputY s out) .y j = sampleAt (putSamples s .y 0 out) .y j :=
    sampleAt_congr _ rfl rfl j
  rw [e]
  split
  · next h => have := sampleAt_putSamples_inside s .y 0 out j h; rwa [Nat.zero_add] at this
  · next h => exact sampleAt_putSamples_outside s .y 0 out j (by omega)

/-! ### Bit words -/

@[simp] theorem flagBit_true : flagBit true = 1 := rfl
@[simp] theorem flagBit_false : flagBit false = 0 := rfl

theorem bitsToNat_append (l r : List Bool) :
    bitsToNat (l ++ r) = bitsToNat l + 2 ^ l.length * bitsToNat r := by
  induction l with
  | nil => simp [bitsToNat]
  | cons v rest ih =>
    simp only [List.cons_append, bitsToNat, ih, List.length_cons, Nat.pow_succ]
    ring

theorem bitsToNat_lt (l : List Bool) : bitsToNat l < 2 ^ l.length := by
  induction l with
  | nil => simp [bitsToNat]
  | cons v rest ih =>
    simp only [bitsToNat, List.length_cons, Nat.pow_succ]
    cases v <;> simp only [flagBit_true, flagBit_false] <;> omega

/-- Bit `k` of a packed sequence is its entry `k` (R64). -/
theorem testBit_bitsToNat (l : List Bool) (k : Nat) :
    (bitsToNat l).testBit k = l.getD k false := by
  induction l generalizing k with
  | nil => simp [bitsToNat]
  | cons v rest ih =>
    cases k with
    | zero => cases v <;> simp [bitsToNat, Nat.testBit_zero]
    | succ k =>
      rw [Nat.testBit_succ]
      have : bitsToNat (v :: rest) / 2 = bitsToNat rest := by
        cases v <;> simp only [bitsToNat, flagBit_true, flagBit_false] <;> omega
      rw [this, ih]
      simp

/-- Bit `k` of the word read from a bit buffer (R64). -/
theorem bitWord_getLsbD (s : State) (b : BitBuf) (w k : Nat) (h : k < 32) :
    (bitWord s b w).getLsbD k = bitAt s b (32 * w + k) := by
  rw [bitWord, BitVec.getLsbD_ofNat, testBit_bitsToNat]
  simp [h]

/-- The entries of a bit buffer after a word write (R64). -/
theorem bitAt_putBitWord (s : State) (b : BitBuf) (w : Nat) (v : Word) (j : Nat) :
    bitAt (putBitWord s b w v) b j =
      if 32 * w ≤ j ∧ j < 32 * w + 32 then v.getLsbD (j - 32 * w) else bitAt s b j := by
  unfold putBitWord
  split
  · next h =>
    have := bitAt_putBits_inside s b (32 * w) ((List.range 32).map (fun k => v.getLsbD k)) (j - 32 * w)
      (by simp; omega)
    have e : 32 * w + (j - 32 * w) = j := by omega
    rw [e] at this
    rw [this]; simp
  · next h => exact bitAt_putBits_outside s b _ _ _ (by simp; omega)

/-- A word written to a bit buffer reads back (R64). -/
theorem bitWord_putBitWord_same (s : State) (b : BitBuf) (w : Nat) (v : Word) :
    bitWord (putBitWord s b w v) b w = v := by
  apply BitVec.eq_of_getLsbD_eq
  intro k hk
  rw [bitWord_getLsbD _ _ _ _ hk, bitAt_putBitWord, if_pos (by omega)]
  congr 1; omega

/-! ### One byte of the windows -/

/-- A byte of the windows depends only on the buffers' entries (R60, R64 to R66). -/
theorem byteAt_of_entries {s t : State} (a : Nat) (hb : ∀ b j, bitAt t b j = bitAt s b j)
    (hs : ∀ b, sampleByte t b a = sampleByte s b a) : byteAt t a = byteAt s a := by
  simp only [byteAt, hb, hs]

theorem byteAt_congr {s t : State} (hb : ∀ b, bitStore t b = bitStore s b)
    (hs : ∀ b, sampleStore t b = sampleStore s b) (hr : t.resetCount = s.resetCount) (a : Nat) :
    byteAt t a = byteAt s a :=
  byteAt_of_entries a (fun b => bitAt_congr b (hb b) hr) (fun b => sampleByte_congr b (hs b) hr a)

theorem sampleByte_putSampleBytes_apart (s : State) (b c : SampleBuf) (k a : Nat) (bytes : List Byte)
    (h : a < k ∨ k + bytes.length ≤ a) : sampleByte (putSampleBytes s b k bytes) c a = sampleByte s c a := by
  by_cases hc : c = b
  · subst hc; exact sampleByte_putSampleBytes_outside s c k bytes a h
  · exact sampleByte_putSampleBytes_other s b c k bytes a hc

/-- Every byte outside a written sample sequence reads as before. -/
theorem byteAt_putSamples (s : State) (b : SampleBuf) (k : Nat) (out : List F64) (a : Nat)
    (h : a < entryAddr b k ∨ entryAddr b (k + out.length) ≤ a) :
    byteAt (putSamples s b k out) a = byteAt s a := by
  apply byteAt_of_entries
  · intro c j; exact bitAt_putSampleBytes _ _ _ _ _ _
  · intro c
    apply sampleByte_putSampleBytes_apart
    rw [flatMap_sampleBytes_length]
    unfold entryAddr at *
    omega

/-- Every byte outside a bit sequence written from entry 0 on reads as before. -/
theorem byteAt_putBits (s : State) (b : BitBuf) (out : List Bool) (a : Nat)
    (h : a < bitBase b ∨ bitBase b + (out.length + 7) / 8 ≤ a) :
    byteAt (putBits s b 0 out) a = byteAt s a := by
  have hm (c : BitBuf) (hc : bitBase c ≤ a) :
      (List.range 8).map (fun k => bitAt (putBits s b 0 out) c (8 * (a - bitBase c) + k)) =
        (List.range 8).map (fun k => bitAt s c (8 * (a - bitBase c) + k)) := by
    apply List.map_congr_left
    intro k hk
    have hk := List.mem_range.1 hk
    by_cases e : c = b
    · subst e; apply bitAt_putBits_outside; omega
    · exact bitAt_putBits_other _ _ _ _ _ _ e
  unfold byteAt
  split
  · next h => rw [hm _ h.1]
  · split
    · next h => rw [hm _ h.1]
    · simp only [sampleByte_putBits]

/-! ### The canonical form is kept -/

theorem wf_congr {s t : State} (hba : t.ba = s.ba) (hbb : t.bb = s.bb) (hx : t.x = s.x) (hy : t.y = s.y)
    (h : Memory.wf s) : Memory.wf t := by
  unfold Memory.wf at *; rwa [hba, hbb, hx, hy]

theorem putBits_wf {s : State} (b : BitBuf) (k : Nat) (out : List Bool) (h : Memory.wf s)
    (hk : k + out.length ≤ Config.depth) : Memory.wf (putBits s b k out) := by
  obtain ⟨⟨h1, h2⟩, h3, h4⟩ := h
  cases b
  · exact ⟨⟨storeSetMany_wf k out h1 (Nat.zero_le _) hk, h2⟩, h3, h4⟩
  · exact ⟨⟨h1, storeSetMany_wf k out h2 (Nat.zero_le _) hk⟩, h3, h4⟩

theorem putSampleBytes_wf {s : State} (b : SampleBuf) (a : Nat) (bytes : List Byte) (h : Memory.wf s)
    (hlo : sampleBase b ≤ a) (hhi : a + bytes.length ≤ sampleBase b + sampleWindow) :
    Memory.wf (putSampleBytes s b a bytes) := by
  obtain ⟨⟨h1, h2⟩, h3, h4⟩ := h
  cases b
  · exact ⟨⟨h1, h2⟩, storeSetMany_wf a bytes h3 hlo hhi, h4⟩
  · exact ⟨⟨h1, h2⟩, h3, storeSetMany_wf a bytes h4 hlo hhi⟩

theorem putSamples_wf {s : State} (b : SampleBuf) (k : Nat) (out : List F64) (h : Memory.wf s)
    (hk : k + out.length ≤ Config.depth) : Memory.wf (putSamples s b k out) := by
  apply putSampleBytes_wf b _ _ h
  · simp [entryAddr]
  · rw [flatMap_sampleBytes_length]
    simp only [entryAddr, sampleWindow]
    omega

theorem outputBits_wf {s : State} (out : List Bool) (h : Memory.wf s) (hk : out.length ≤ Config.depth) :
    Memory.wf (outputBits s out) :=
  wf_congr rfl rfl rfl rfl (putBits_wf .bb 0 out h (by omega))

theorem outputX_wf {s : State} (out : List F64) (h : Memory.wf s) (hk : out.length ≤ Config.depth) :
    Memory.wf (outputX s out) :=
  wf_congr rfl rfl rfl rfl (putSamples_wf .x 0 out h (by omega))

theorem outputY_wf {s : State} (out : List F64) (h : Memory.wf s) (hk : out.length ≤ Config.depth) :
    Memory.wf (outputY s out) :=
  wf_congr rfl rfl rfl rfl (putSamples_wf .y 0 out h (by omega))

theorem reset_wf : Memory.wf State.reset := by decide

end Sys2Proof.Machine
end

