-- ==== Sys2Proof/Laws/Channel.lean ====
section
/-! SUPPORT. The convolutional code, the mapper and the slicer as functions of sequences: lengths, the
entry at each index, and what undoes what (R142 to R152). -/

namespace Sys2Proof.Machine

-- One theorem at a time: each `decide +kernel` holds a thread until the kernel is done with all before it.
set_option Elab.async false

/-! ### The code -/

@[simp] theorem convNext_bit0 (reg : BitVec 3) (u : Bool) : (convNext reg u).getLsbD 0 = u := by
  revert reg u; decide
@[simp] theorem convNext_bit1 (reg : BitVec 3) (u : Bool) : (convNext reg u).getLsbD 1 = reg.getLsbD 0 := by
  revert reg u; decide

theorem convEncode_length (reg : BitVec 3) (b : List Bool) : (convEncode reg b).length = 2 * b.length := by
  induction b generalizing reg with
  | nil => rfl
  | cons u rest ih => simp only [convEncode, List.length_cons, ih]; omega

/-- The input delayed behind the two register bits that reach an output: entry `k + 2` is bit `k` (R142). -/
def delayLine (reg : BitVec 3) (b : List Bool) : List Bool := reg.getLsbD 1 :: reg.getLsbD 0 :: b

/-- Both output bits of input `k` by their taps (R142). -/
theorem convEncode_taps (reg : BitVec 3) (b : List Bool) (k : Nat) (hk : k < b.length) :
    (convEncode reg b)[2 * k]? =
        some (((delayLine reg b).getD (k + 2) false ^^ (delayLine reg b).getD (k + 1) false) ^^
          (delayLine reg b).getD k false) ∧
      (convEncode reg b)[2 * k + 1]? =
        some ((delayLine reg b).getD (k + 2) false ^^ (delayLine reg b).getD k false) := by
  induction b generalizing reg k with
  | nil => simp at hk
  | cons u rest ih =>
    cases k with
    | zero => simp [convEncode, delayLine, convC0, convC1]
    | succ k =>
      have h := ih (convNext reg u) k (by simpa using hk)
      have e : 2 * (k + 1) = 2 * k + 1 + 1 := by omega
      simp only [convEncode, e, List.getElem?_cons_succ, h, delayLine, convNext_bit0, convNext_bit1,
        List.getD_cons_succ]
      trivial

theorem decodePairs_length : ∀ h : List Bool, (decodePairs h).length = h.length / 2
  | [] => by simp [decodePairs]
  | [_] => by simp [decodePairs]
  | _ :: _ :: rest => by
    have := decodePairs_length rest
    simp only [decodePairs, List.length_cons, this]; omega

/-- Decoded bit `k` is the exclusive or of its pair (R144). -/
theorem decodePairs_get : ∀ (h : List Bool) (k : Nat), 2 * k + 1 < h.length →
    (decodePairs h)[k]? = some (h.getD (2 * k) false ^^ h.getD (2 * k + 1) false)
  | [], k, hk => by simp at hk
  | [_], k, hk => by simp at hk
  | a :: b :: rest, k, hk => by
    cases k with
    | zero => simp [decodePairs]
    | succ k =>
      have := decodePairs_get rest k (by simp at hk; omega)
      have e : 2 * (k + 1) = 2 * k + 1 + 1 := by omega
      simp only [decodePairs, List.getElem?_cons_succ, this, e, List.getD_cons_succ]

/-- The decoder after the encoder gives the input delayed by one bit (R152). -/
theorem decodePairs_convEncode (reg : BitVec 3) (b : List Bool) :
    decodePairs (convEncode reg b) = (reg.getLsbD 0 :: b).take b.length := by
  induction b generalizing reg with
  | nil => rfl
  | cons u rest ih =>
    simp only [convEncode, decodePairs, ih, convNext_bit0, List.length_cons, List.take_succ_cons]
    congr 1
    revert reg u
    decide +revert

theorem encodeSeq_length (c : Coding) (b : List Bool) : (encodeSeq c b).length = codedPerBit c * b.length := by
  cases c
  · simp [encodeSeq, codedPerBit]
  · simp [encodeSeq, codedPerBit, convEncode_length]

theorem decodeHard_length_le (c : Coding) (h : List Bool) : (decodeHard c h).length ≤ h.length := by
  cases c
  · exact le_refl _
  · simp only [decodeHard, decodePairs_length]; omega

/-! ### The mapper -/

theorem mapPairs_eq : ∀ c : List Bool, mapPairs c = (c.take (2 * (c.length / 2))).map mapQpsk
  | [] => by simp [mapPairs]
  | [_] => by simp [mapPairs]
  | a :: b :: rest => by
    have e : 2 * ((rest.length + 1 + 1) / 2) = 2 * (rest.length / 2) + 1 + 1 := by omega
    simp only [mapPairs, mapPairs_eq rest, List.length_cons, e, List.take_succ_cons, List.map_cons]

theorem mapGroups_length : ∀ c : List Bool, (mapGroups c).length = 4 * (c.length / 4)
  | [] => by simp [mapGroups]
  | [_] => by simp [mapGroups]
  | [_, _] => by simp [mapGroups]
  | [_, _, _] => by simp [mapGroups]
  | _ :: _ :: _ :: _ :: rest => by
    have := mapGroups_length rest
    simp only [mapGroups, List.length_cons, this]; omega

/-- The four entries of 16-QAM group `g` (R148). -/
theorem mapGroups_get : ∀ (c : List Bool) (g : Nat), 4 * g + 3 < c.length →
    (mapGroups c)[4 * g]? = some (qamLevel (c.getD (4 * g) false) (c.getD (4 * g + 1) false)) ∧
      (mapGroups c)[4 * g + 1]? = some (qamLevel (c.getD (4 * g + 2) false) (c.getD (4 * g + 3) false)) ∧
      (mapGroups c)[4 * g + 2]? = some (qamLevel (c.getD (4 * g) false) (c.getD (4 * g + 1) false)) ∧
      (mapGroups c)[4 * g + 3]? = some (qamLevel (c.getD (4 * g + 2) false) (c.getD (4 * g + 3) false))
  | [], g, h => by simp at h
  | [_], g, h => by simp at h
  | [_, _], g, h => by simp at h
  | [_, _, _], g, h => by simp at h
  | a :: b :: d :: e :: rest, g, h => by
    cases g with
    | zero => simp [mapGroups]
    | succ g =>
      have := mapGroups_get rest g (by simp at h; omega)
      have e : 4 * (g + 1) = 4 * g + 1 + 1 + 1 + 1 := by omega
      simpa only [mapGroups, e, List.getElem?_cons_succ, List.getD_cons_succ] using this

/-- The length of the modulator's output (R145). -/
theorem mapSymbols_length (m : Modulation) (c : List Bool) :
    (mapSymbols m c).length = bitsPerSymbol m * (c.length / bitsPerSymbol m) := by
  cases m
  · simp [mapSymbols, bitsPerSymbol]
  · simp only [mapSymbols, bitsPerSymbol, mapPairs_eq, List.length_map, List.length_take]; omega
  · simp only [mapSymbols, bitsPerSymbol, mapGroups_length]

theorem mapSymbols_length_le (m : Modulation) (c : List Bool) : (mapSymbols m c).length ≤ c.length := by
  rw [mapSymbols_length]; exact Nat.mul_div_le _ _

/-! ### The slicer -/

theorem sliceGroups_length : ∀ v : List F64, (sliceGroups v).length = 4 * (v.length / 4)
  | [] => by simp [sliceGroups]
  | [_] => by simp [sliceGroups]
  | [_, _] => by simp [sliceGroups]
  | [_, _, _] => by simp [sliceGroups]
  | _ :: _ :: _ :: _ :: rest => by
    have := sliceGroups_length rest
    simp only [sliceGroups, List.length_cons, this]; omega

/-- The four hard bits of 16-QAM group `g`: entries 4g and 4g+1 only (R149). -/
theorem sliceGroups_get : ∀ (v : List F64) (g : Nat), 4 * g + 3 < v.length →
    (sliceGroups v)[4 * g]? = some (hard (v.getD (4 * g) fzero)) ∧
      (sliceGroups v)[4 * g + 1]? = some (sliceLow (v.getD (4 * g) fzero)) ∧
      (sliceGroups v)[4 * g + 2]? = some (hard (v.getD (4 * g + 1) fzero)) ∧
      (sliceGroups v)[4 * g + 3]? = some (sliceLow (v.getD (4 * g + 1) fzero))
  | [], g, h => by simp at h
  | [_], g, h => by simp at h
  | [_, _], g, h => by simp at h
  | [_, _, _], g, h => by simp at h
  | a :: b :: d :: e :: rest, g, h => by
    cases g with
    | zero => simp [sliceGroups]
    | succ g =>
      have := sliceGroups_get rest g (by simp at h; omega)
      have e : 4 * (g + 1) = 4 * g + 1 + 1 + 1 + 1 := by omega
      simpa only [sliceGroups, e, List.getElem?_cons_succ, List.getD_cons_succ] using this

/-- The number of hard bits of the slicer (R149). -/
theorem sliceSymbols_length (m : Modulation) (v : List F64) :
    (sliceSymbols m v).length = bitsPerSymbol m * (v.length / bitsPerSymbol m) := by
  cases m
  · simp [sliceSymbols, bitsPerSymbol]
  · simp only [sliceSymbols, bitsPerSymbol, List.length_map, List.length_take]; omega
  · simp only [sliceSymbols, bitsPerSymbol, sliceGroups_length]

theorem sliceSymbols_length_le (m : Modulation) (v : List F64) : (sliceSymbols m v).length ≤ v.length := by
  rw [sliceSymbols_length]; exact Nat.mul_div_le _ _

/-! ### The slicer undoes the mapper -/

@[simp] theorem hard_mapBpsk (b : Bool) : hard (mapBpsk b) = b := by revert b; decide +kernel
@[simp] theorem hard_mapQpsk (b : Bool) : hard (mapQpsk b) = b := by revert b; decide +kernel
@[simp] theorem hard_qamLevel (hi lo : Bool) : hard (qamLevel hi lo) = hi := by revert hi lo; decide +kernel
@[simp] theorem sliceLow_qamLevel (hi lo : Bool) : sliceLow (qamLevel hi lo) = lo := by
  revert hi lo; decide +kernel

theorem sliceGroups_mapGroups : ∀ c : List Bool, sliceGroups (mapGroups c) = c.take (4 * (c.length / 4))
  | [] => by simp [mapGroups, sliceGroups]
  | [_] => by simp [mapGroups, sliceGroups]
  | [_, _] => by simp [mapGroups, sliceGroups]
  | [_, _, _] => by simp [mapGroups, sliceGroups]
  | a :: b :: d :: e :: rest => by
    have e4 : 4 * ((rest.length + 1 + 1 + 1 + 1) / 4) = 4 * (rest.length / 4) + 1 + 1 + 1 + 1 := by omega
    simp only [mapGroups, sliceGroups, hard_qamLevel, sliceLow_qamLevel, sliceGroups_mapGroups rest,
      List.length_cons, e4, List.take_succ_cons]

/-- Slicing what was mapped gives the bits of the whole symbols (R151). -/
theorem sliceSymbols_mapSymbols (m : Modulation) (c : List Bool) :
    sliceSymbols m (mapSymbols m c) = c.take (bitsPerSymbol m * (c.length / bitsPerSymbol m)) := by
  cases m
  · simp only [mapSymbols, sliceSymbols, bitsPerSymbol, List.map_map, Nat.div_one, Nat.one_mul,
      List.take_length]
    exact (List.map_congr_left (fun b _ => hard_mapBpsk b)).trans (List.map_id c)
  · have hl := mapSymbols_length .qpsk c
    simp only [mapSymbols, bitsPerSymbol] at hl
    simp only [mapSymbols, sliceSymbols, bitsPerSymbol, hl]
    have e : 2 * (2 * (c.length / 2) / 2) = 2 * (c.length / 2) := by omega
    rw [e, ← hl, List.take_length, hl, mapPairs_eq, List.map_map]
    exact (List.map_congr_left (fun b _ => hard_mapQpsk b)).trans (List.map_id _)
  · exact sliceGroups_mapGroups c

end Sys2Proof.Machine
end

