-- ==== Sys2Proof/Laws/Exec.lean ====
section
/-! SUPPORT. What the completion of each command can do, said once: with which error it completes and
when, and on success which state it leaves (R102, R121 to R170, R182 to R184). -/

namespace Sys2Proof.Machine

@[simp] theorem complete_ok (s t : State) : complete s (.ok t) = .next (flagsSuccess t) := rfl
@[simp] theorem complete_error (s : State) (e : ErrorCode) : complete s (.error e) = .next (flagsError e s) := rfl

/-- A completion always answers a next state: the success of some state, or an error on the state it
found. -/
theorem complete_cases (s : State) (o : Except ErrorCode State) :
    (∃ t, o = .ok t ∧ complete s o = .next (flagsSuccess t)) ∨
      (∃ e, o = .error e ∧ complete s o = .next (flagsError e s)) := by
  cases o with
  | ok t => exact .inl ⟨t, rfl, rfl⟩
  | error e => exact .inr ⟨e, rfl, rfl⟩

@[simp] theorem overCapacity_eq_false {n : Nat} : overCapacity n = false ↔ n ≤ Config.depth := by
  simp [overCapacity]
@[simp] theorem overCapacity_eq_true {n : Nat} : overCapacity n = true ↔ Config.depth < n := by
  simp [overCapacity]

theorem bitSeq_length (s : State) (b : BitBuf) (n : Nat) : (bitSeq s b n).length = n := by simp [bitSeq]
theorem sampleSeq_length (s : State) (b : SampleBuf) (n : Nat) : (sampleSeq s b n).length = n := by
  simp [sampleSeq]

/-- Entry `k` of a bit sequence read from a buffer. -/
theorem bitSeq_getD (s : State) (b : BitBuf) (n k : Nat) (h : k < n) (d : Bool) :
    (bitSeq s b n).getD k d = bitAt s b k := by simp [bitSeq, h]

/-- Entry `k` of a sample sequence read from a buffer. -/
theorem sampleSeq_getD (s : State) (b : SampleBuf) (n k : Nat) (h : k < n) (d : F64) :
    (sampleSeq s b n).getD k d = sampleAt s b k := by simp [sampleSeq, h]

/-! ### Success -/

theorem execNoisePower_success (s : State) (h1 : s.lenX.toNat ≤ Config.depth) (h2 : s.lenX.toNat ≠ 0) :
    execNoisePower s =
      .next (flagsSuccess (setPowers s (meansq (sampleSeq s .x s.lenX.toNat))
        (targetNoisePower (meansq (sampleSeq s .x s.lenX.toNat)) s.snrDb))) := by
  simp only [execNoisePower, overCapacity_eq_false.2 h1, if_neg h2, complete_ok, Bool.false_eq_true, if_false]

theorem execEbn0_success (s : State) (h1 : s.lenX.toNat ≤ Config.depth) (h2 : s.lenX.toNat ≠ 0) :
    execEbn0 s =
      .next (flagsSuccess
        { setPowers s (meansq (sampleSeq s .x s.lenX.toNat))
            (targetNoisePower (meansq (sampleSeq s .x s.lenX.toNat)) s.snrDb) with
          ebn0 := ebn0Db (meansq (sampleSeq s .x s.lenX.toNat))
            (targetNoisePower (meansq (sampleSeq s .x s.lenX.toNat)) s.snrDb) s.bitrate s.bandwidth }) := by
  simp only [execEbn0, overCapacity_eq_false.2 h1, if_neg h2, complete_ok, Bool.false_eq_true, if_false]

theorem execNoiseAdd_empty (s : State) (h : s.lenX.toNat = 0) :
    execNoiseAdd s = .next (flagsSuccess { s with lenY := 0 }) := by
  have h1 : overCapacity s.lenX.toNat = false := overCapacity_eq_false.2 (by omega)
  simp only [execNoiseAdd, h1, if_pos h, complete_ok, Bool.false_eq_true, if_false]

/-- The noisy sequence of R132. -/
def noisySeq (s : State) : List F64 :=
  (List.range s.lenX.toNat).map
    (noisySample s (fsqrt (targetNoisePower (meansq (sampleSeq s .x s.lenX.toNat)) s.snrDb)))

theorem execNoiseAdd_success (s : State) (h1 : s.lenX.toNat ≤ Config.depth) (h2 : s.lenX.toNat ≠ 0) :
    execNoiseAdd s =
      .next (flagsSuccess (setPowers (outputY s (noisySeq s)) (meansq (sampleSeq s .x s.lenX.toNat))
        (targetNoisePower (meansq (sampleSeq s .x s.lenX.toNat)) s.snrDb))) := by
  simp only [execNoiseAdd, overCapacity_eq_false.2 h1, if_neg h2, complete_ok, Bool.false_eq_true, if_false,
    noisySeq]

theorem execEncode_success (s : State) (m : Modulation) (c : Coding) (hs : schemeOf s = some (m, c))
    (h1 : s.lenBa.toNat ≤ Config.depth) (h2 : codedPerBit c * s.lenBa.toNat ≤ Config.depth) :
    execEncode s = .next (flagsSuccess (outputBits s (encodeSeq c (bitSeq s .ba s.lenBa.toNat)))) := by
  simp only [execEncode, hs, overCapacity_eq_false.2 h1, overCapacity_eq_false.2 h2, complete_ok,
    Bool.false_eq_true, if_false]

theorem execDecode_success (s : State) (m : Modulation) (c : Coding) (hs : schemeOf s = some (m, c))
    (h1 : s.lenY.toNat ≤ Config.depth) :
    execDecode s =
      .next (flagsSuccess (outputBits s (decodeHard c ((sampleSeq s .y s.lenY.toNat).map hard)))) := by
  simp only [execDecode, hs, overCapacity_eq_false.2 h1, complete_ok, Bool.false_eq_true, if_false]

theorem execModulate_success (s : State) (m : Modulation) (c : Coding) (hs : schemeOf s = some (m, c))
    (h1 : s.lenBa.toNat ≤ Config.depth) (h2 : codedPerBit c * s.lenBa.toNat ≤ Config.depth) :
    execModulate s =
      .next (flagsSuccess (outputX s (mapSymbols m (encodeSeq c (bitSeq s .ba s.lenBa.toNat))))) := by
  simp only [execModulate, hs, overCapacity_eq_false.2 h1, overCapacity_eq_false.2 h2, complete_ok,
    Bool.false_eq_true, if_false]

theorem execDemodulate_success (s : State) (m : Modulation) (c : Coding) (hs : schemeOf s = some (m, c))
    (h1 : s.lenY.toNat ≤ Config.depth) :
    execDemodulate s =
      .next (flagsSuccess (outputBits s
        (decodeHard c (sliceSymbols m (sampleSeq s .y s.lenY.toNat))))) := by
  simp only [execDemodulate, hs, overCapacity_eq_false.2 h1, complete_ok, Bool.false_eq_true, if_false]

theorem execSnrMeasure_success (s : State) (h1 : s.lenX.toNat ≤ Config.depth) (h2 : s.lenX = s.lenY)
    (h3 : s.lenX.toNat ≠ 0) :
    execSnrMeasure s =
      .next (flagsSuccess
        { setPowers s (meansq (sampleSeq s .x s.lenX.toNat))
            (meansqdiff (sampleSeq s .x s.lenX.toNat) (sampleSeq s .y s.lenX.toNat)) with
          measSnr := measuredSnr (meansq (sampleSeq s .x s.lenX.toNat))
            (meansqdiff (sampleSeq s .x s.lenX.toNat) (sampleSeq s .y s.lenX.toNat)) }) := by
  simp only [execSnrMeasure, ← h2, overCapacity_eq_false.2 h1, if_neg h3, complete_ok, Bool.or_self, ne_eq,
    not_true_eq_false, Bool.false_eq_true, if_false]

/-! ### What a completion can leave -/

/-- Every completion of a command either reports an error on the state it found, or succeeds from a state
`u` that still has the canonical form, with the events to come and the draws as they were. -/
theorem exec_cases (i : Instr) (s : State) :
    (∃ e, exec i s = .next (flagsError e s)) ∨
      ∃ u, exec i s = .next (flagsSuccess u) ∧ (Memory.wf s → Memory.wf u) ∧ u.agenda = s.agenda ∧
        u.resetCount = s.resetCount ∧ u.drawCount = s.drawCount ∧ u.response = s.response ∧
        u.statusWerr = s.statusWerr := by
  cases i
  · simp only [exec, execNoisePower]
    split
    · exact .inl ⟨_, rfl⟩
    · split
      · exact .inl ⟨_, rfl⟩
      · exact .inr ⟨_, rfl, wf_congr rfl rfl rfl rfl, by simp⟩
  · simp only [exec, execEbn0]
    split
    · exact .inl ⟨_, rfl⟩
    · split
      · exact .inl ⟨_, rfl⟩
      · exact .inr ⟨_, rfl, wf_congr rfl rfl rfl rfl, by simp⟩
  · simp only [exec, execNoiseAdd]
    split
    · exact .inl ⟨_, rfl⟩
    · next h =>
      split
      · exact .inr ⟨_, rfl, wf_congr rfl rfl rfl rfl, by simp⟩
      · refine .inr ⟨_, rfl, fun hw => wf_congr rfl rfl rfl rfl (outputY_wf _ hw ?_), by simp⟩
        simpa using h
  · simp only [exec, execEncode]
    split
    · exact .inl ⟨_, rfl⟩
    · split
      · exact .inl ⟨_, rfl⟩
      · split
        · exact .inl ⟨_, rfl⟩
        · next h =>
          refine .inr ⟨_, rfl, fun hw => outputBits_wf _ hw ?_, by simp⟩
          rw [encodeSeq_length, bitSeq_length]; simpa using h
  · simp only [exec, execDecode]
    split
    · exact .inl ⟨_, rfl⟩
    · split
      · exact .inl ⟨_, rfl⟩
      · next h =>
        refine .inr ⟨_, rfl, fun hw => outputBits_wf _ hw ?_, by simp⟩
        refine le_trans (decodeHard_length_le _ _) ?_
        rw [List.length_map, sampleSeq_length]; simpa using h
  · simp only [exec, execModulate]
    split
    · exact .inl ⟨_, rfl⟩
    · split
      · exact .inl ⟨_, rfl⟩
      · split
        · exact .inl ⟨_, rfl⟩
        · next h =>
          refine .inr ⟨_, rfl, fun hw => outputX_wf _ hw ?_, by simp⟩
          refine le_trans (mapSymbols_length_le _ _) ?_
          rw [encodeSeq_length, bitSeq_length]; simpa using h
  · simp only [exec, execDemodulate]
    split
    · exact .inl ⟨_, rfl⟩
    · split
      · exact .inl ⟨_, rfl⟩
      · next h =>
        refine .inr ⟨_, rfl, fun hw => outputBits_wf _ hw ?_, by simp⟩
        refine le_trans (decodeHard_length_le _ _) (le_trans (sliceSymbols_length_le _ _) ?_)
        rw [sampleSeq_length]; simpa using h
  · simp only [exec, execSnrMeasure]
    split
    · exact .inl ⟨_, rfl⟩
    · split
      · exact .inl ⟨_, rfl⟩
      · split
        · exact .inl ⟨_, rfl⟩
        · exact .inr ⟨_, rfl, wf_congr rfl rfl rfl rfl, by simp⟩

end Sys2Proof.Machine
end

