-- ==== Sys2Proof/Laws/Bus.lean ====
section
/-! SUPPORT. The bus: what an address selects lies inside its buffer (R60, R63), what a transaction and an
event can leave, and the canonical form kept (R104, R186, R201). -/

namespace Sys2Proof.Machine

-- One theorem at a time: each `decide +kernel` holds a thread until the kernel is done with all before it.
set_option Elab.async false

/-- A location lies inside the block: buffer words below the end of their window (R60). -/
def locationInside : Location → Prop
  | .register _ => True
  | .reserved => True
  | .bitWord _ w => 32 * w + 32 ≤ Config.depth
  | .sampleLo _ i => i < Config.depth
  | .sampleHi _ i => i < Config.depth

theorem regLocation_inside (n : Nat) : locationInside (regLocation n) := by
  unfold regLocation
  split <;> trivial

theorem sampleLocation_inside (b : SampleBuf) (off : Nat) (h : off < sampleWindow) :
    locationInside (sampleLocation b off) := by
  have hw : sampleWindow = 8 * Config.depth := rfl
  unfold sampleLocation
  split <;> simp only [locationInside] <;> omega

/-- Whatever an address selects lies inside the block. -/
theorem mapped_inside (n : Nat) (loc : Location) (h : mapped n = some loc) : locationInside loc := by
  have hb : bitWindow = 32768 := rfl
  have hd : Config.depth = 262144 := rfl
  have sampleCase (b : SampleBuf) (h' : sampleBase b ≤ n ∧ n < sampleBase b + sampleWindow)
      (h : some (sampleLocation b (n - sampleBase b)) = some loc) : locationInside loc := by
    rw [← Option.some.inj h]
    have hoff : n - sampleBase b < sampleWindow := by omega
    exact sampleLocation_inside b (n - sampleBase b) hoff
  unfold mapped at h
  split at h
  · cases h; exact regLocation_inside n
  · split at h
    · next h' => cases h; simp only [locationInside]; omega
    · split at h
      · next h' => cases h; simp only [locationInside]; omega
      · split at h
        · next h' => exact sampleCase .x h' h
        · split at h
          · next h' => exact sampleCase .y h' h
          · cases h

theorem locate_inside (a : Addr) (loc : Location) (h : locate a = some loc) : locationInside loc := by
  unfold locate at h
  split at h
  · exact mapped_inside _ _ h
  · cases h

theorem writeReg_stores (s : State) (r : Reg) (v : Word) :
    (writeReg s r v).ba = s.ba ∧ (writeReg s r v).bb = s.bb ∧ (writeReg s r v).x = s.x ∧
      (writeReg s r v).y = s.y := by
  cases r <;> exact ⟨rfl, rfl, rfl, rfl⟩

/-- A write of a location inside the block keeps the canonical form. -/
theorem writeLocation_wf (s : State) (loc : Location) (v : Word) (hl : locationInside loc)
    (h : Memory.wf s) : Memory.wf (writeLocation s loc v) := by
  have hw : sampleWindow = 8 * Config.depth := rfl
  cases loc with
  | register r =>
    obtain ⟨h1, h2, h3, h4⟩ := writeReg_stores s r v
    exact wf_congr h1 h2 h3 h4 h
  | reserved => exact h
  | bitWord b w =>
    simp only [locationInside] at hl
    exact putBits_wf b _ _ h (by simpa using hl)
  | sampleLo b i =>
    simp only [locationInside] at hl
    exact putSampleBytes_wf b _ _ h (by simp [entryAddr]) (by simp only [entryAddr, wordBytes_length]; omega)
  | sampleHi b i =>
    simp only [locationInside] at hl
    exact putSampleBytes_wf b _ _ h (by simp only [entryAddr]; omega)
      (by simp only [entryAddr, wordBytes_length]; omega)

/-! ### Addresses -/

theorem addrAligned_eq (a : Addr) : addrAligned a = true ↔ a.toNat % 4 = 0 := by
  simp [addrAligned]

/-- The addresses of a sample buffer's window (R60). -/
theorem mapped_sample (b : SampleBuf) (off : Nat) (h : off < sampleWindow) :
    mapped (sampleBase b + off) = some (sampleLocation b off) := by
  have e3 : bitWindow = 0x8000 := rfl
  have e4 : sampleWindow = 0x200000 := rfl
  have e5 : bitBase .ba = 0x100000 := rfl
  have e6 : bitBase .bb = 0x200000 := rfl
  have e7 : sampleBase .x = 0x400000 := rfl
  have e8 : sampleBase .y = 0x600000 := rfl
  unfold mapped
  rw [e4] at h
  rw [e3, e4, e5, e6, e7, e8]
  cases b
  · rw [e7, if_neg (by omega), if_neg (by omega), if_neg (by omega), if_pos (by omega),
      Nat.add_sub_cancel_left]
  · rw [e8, if_neg (by omega), if_neg (by omega), if_neg (by omega), if_neg (by omega), if_pos (by omega),
      Nat.add_sub_cancel_left]

/-- The addresses of a bit buffer's window (R60). -/
theorem mapped_bit (b : BitBuf) (off : Nat) (h : off < bitWindow) :
    mapped (bitBase b + off) = some (.bitWord b (off / 4)) := by
  have e3 : bitWindow = 0x8000 := rfl
  have e5 : bitBase .ba = 0x100000 := rfl
  have e6 : bitBase .bb = 0x200000 := rfl
  unfold mapped
  rw [e3] at h
  rw [e3, e5, e6]
  cases b
  · rw [e5, if_neg (by omega), if_pos (by omega), Nat.add_sub_cancel_left]
  · rw [e6, if_neg (by omega), if_neg (by omega), if_pos (by omega), Nat.add_sub_cancel_left]

/-- The word addresses of a sample buffer's window (R65). -/
theorem locate_sample (b : SampleBuf) (off : Nat) (h : off < sampleWindow) (h4 : off % 4 = 0) :
    locate (BitVec.ofNat 23 (sampleBase b + off)) = some (sampleLocation b off) := by
  have hb : sampleBase b % 4 = 0 ∧ sampleBase b ≤ 0x600000 := by cases b <;> decide +kernel
  have e4 : sampleWindow = 0x200000 := rfl
  have h' := h
  rw [e4] at h'
  have hn : (BitVec.ofNat 23 (sampleBase b + off)).toNat = sampleBase b + off := by
    rw [BitVec.toNat_ofNat]; omega
  rw [locate, if_pos ((addrAligned_eq _).2 (by omega)), hn, mapped_sample b off h]

/-- The word addresses of a bit buffer's window (R64). -/
theorem locate_bit (b : BitBuf) (w : Nat) (h : 4 * w < bitWindow) :
    locate (BitVec.ofNat 23 (bitBase b + 4 * w)) = some (.bitWord b w) := by
  have hb : bitBase b % 4 = 0 ∧ bitBase b ≤ 0x200000 := by cases b <;> decide +kernel
  have e4 : bitWindow = 0x8000 := rfl
  have h' := h
  rw [e4] at h'
  have hn : (BitVec.ofNat 23 (bitBase b + 4 * w)).toNat = bitBase b + 4 * w := by
    rw [BitVec.toNat_ofNat]; omega
  have hw : 4 * w / 4 = w := by omega
  rw [locate, if_pos ((addrAligned_eq _).2 (by omega)), hn, mapped_bit b _ h, hw]

/-- The offset of every register selects it (R22). -/
theorem locate_register (r : Reg) : locate (BitVec.ofNat 23 (regOffset r)) = some (.register r) := by
  cases r <;> decide +kernel

/-- The mapped addresses are those of R60. -/
theorem mapped_isSome (n : Nat) : (mapped n).isSome = true ↔ addrMapped n := by
  have e1 : bitBase .ba = 0x100000 := rfl
  have e2 : bitBase .bb = 0x200000 := rfl
  have e3 : bitWindow = 0x8000 := rfl
  have e4 : sampleBase .x = 0x400000 := rfl
  have e5 : sampleBase .y = 0x600000 := rfl
  have e6 : sampleWindow = 0x200000 := rfl
  unfold mapped addrMapped
  rw [e1, e2, e3, e4, e5, e6]
  repeat' split
  all_goals simp only [Option.isSome_some, Option.isSome_none, true_iff, Bool.false_eq_true, false_iff]
  all_goals omega

/-! ### Transactions -/

theorem isBusy_idle {s : State} (h : s.phase = .idle) : isBusy s = false := by simp [isBusy, h]
theorem isBusy_pending {s : State} {w : Word} (h : s.phase = .pending w) : isBusy s = true := by
  simp [isBusy, h]
theorem inPendingSet_idle {s : State} (h : s.phase = .idle) (loc : Location) : inPendingSet s loc = false := by
  simp [inPendingSet, h]

/-- A write of a mapped location while idle (R22, R64, R65). -/
theorem transaction_write_idle {s : State} {a : Addr} {loc : Location} (v : Word) (hl : locate a = some loc)
    (hp : s.phase = .idle) : transaction (.write a v) s = { writeLocation s loc v with response := .ok } := by
  simp only [transaction, hl, busWrite, isBusy_idle hp, Bool.false_eq_true, if_false]

/-- A write of a mapped location while a command is pending (R104). -/
theorem transaction_write_busy {s : State} {a : Addr} {loc : Location} {w : Word} (v : Word)
    (hl : locate a = some loc) (hp : s.phase = .pending w) :
    transaction (.write a v) s = { setWerr s with response := .ok } := by
  simp only [transaction, hl, busWrite, isBusy_pending hp, if_true]

/-- A read of a mapped location outside the write set of a pending command (R68, R71). -/
theorem transaction_read {s : State} {a : Addr} {loc : Location} (hl : locate a = some loc)
    (hp : inPendingSet s loc = false) :
    transaction (.read a) s = { s with response := .data (readLocation s loc) } := by
  simp only [transaction, hl, busRead, hp, Bool.false_eq_true, if_false]

theorem transaction_misaddressed {s : State} (t : Transaction)
    (hl : locate (match t with | .read a => a | .write a _ => a) = none) :
    transaction t s = { s with response := .busErr } := by
  cases t <;> simp only [transaction] at * <;> rw [hl]

/-- Everything a transaction can do: BUSERR, a read, a dropped write, or a write (R63, R104). -/
theorem transaction_cases (t : Transaction) (s : State) :
    transaction t s = { s with response := .busErr } ∨
      (∃ r d, transaction t s = { s with response := r, drawCount := d }) ∨
      (isBusy s = true ∧ transaction t s = { setWerr s with response := .ok }) ∨
      (isBusy s = false ∧
        ∃ loc v, locationInside loc ∧ transaction t s = { writeLocation s loc v with response := .ok }) := by
  cases t with
  | read a =>
    simp only [transaction]
    split
    · exact .inl rfl
    · refine .inr (.inl ?_)
      unfold busRead
      split
      · exact ⟨_, _, rfl⟩
      · exact ⟨_, s.drawCount, rfl⟩
  | write a v =>
    simp only [transaction]
    split
    · exact .inl rfl
    · next loc h =>
      unfold busWrite
      cases hb : isBusy s
      · exact .inr (.inr (.inr ⟨rfl, loc, v, locate_inside a loc h, rfl⟩))
      · exact .inr (.inr (.inl ⟨rfl, rfl⟩))

theorem transaction_wf (t : Transaction) (s : State) (h : Memory.wf s) : Memory.wf (transaction t s) := by
  rcases transaction_cases t s with he | ⟨r, d, he⟩ | ⟨_, he⟩ | ⟨_, loc, v, hl, he⟩ <;> rw [he]
  · exact wf_congr rfl rfl rfl rfl h
  · exact wf_congr rfl rfl rfl rfl h
  · exact wf_congr rfl rfl rfl rfl h
  · exact wf_congr rfl rfl rfl rfl (writeLocation_wf s loc v hl h)

/-- What a location reads as depends only on the register or the buffer it names, and on the draw in
force. -/
theorem readLocation_congr {s t : State} (loc : Location) (hr : t.resetCount = s.resetCount)
    (hreg : ∀ r, loc = .register r → readReg t r = readReg s r)
    (hbit : ∀ b w, loc = .bitWord b w → bitStore t b = bitStore s b)
    (hlo : ∀ b i, loc = .sampleLo b i → sampleStore t b = sampleStore s b)
    (hhi : ∀ b i, loc = .sampleHi b i → sampleStore t b = sampleStore s b) :
    readLocation t loc = readLocation s loc := by
  cases loc with
  | register r => exact hreg r rfl
  | reserved => rfl
  | bitWord b w => simp only [readLocation, bitWord, bitAt_congr b (hbit b w rfl) hr]
  | sampleLo b i => simp only [readLocation, sampleWord, sampleByte_congr b (hlo b i rfl) hr]
  | sampleHi b i => simp only [readLocation, sampleWord, sampleByte_congr b (hhi b i rfl) hr]

theorem readReg_flagsSuccess (s : State) (r : Reg) (h1 : r ≠ .status) (h2 : r ≠ .errcode) :
    readReg (flagsSuccess s) r = readReg s r := by
  cases r <;> first | rfl | exact absurd rfl h1 | exact absurd rfl h2

theorem readReg_flagsError (e : ErrorCode) (s : State) (r : Reg) (h1 : r ≠ .status) (h2 : r ≠ .errcode) :
    readReg (flagsError e s) r = readReg s r := by
  cases r <;> first | rfl | exact absurd rfl h1 | exact absurd rfl h2

theorem resetBlock_wf (s : State) : Memory.wf (resetBlock s) := wf_congr rfl rfl rfl rfl reset_wf

/-- The engine's step: nothing while idle, else a completion (R102). -/
theorem engineStep_cases (s : State) :
    (s.phase = .idle ∧ engineStep s = .next s) ∨
      ∃ w, s.phase = .pending w ∧
        ((∃ e, engineStep s = .next (flagsError e s)) ∨
          ∃ u, engineStep s = .next (flagsSuccess u) ∧ (Memory.wf s → Memory.wf u) ∧
            u.agenda = s.agenda ∧ u.resetCount = s.resetCount ∧ u.drawCount = s.drawCount ∧
            u.response = s.response ∧ u.statusWerr = s.statusWerr) := by
  unfold engineStep
  split
  · next h => exact .inl ⟨h, rfl⟩
  · next w h =>
    refine .inr ⟨w, h, ?_⟩
    split
    · next i _ => exact exec_cases i s
    · exact .inl ⟨_, rfl⟩

end Sys2Proof.Machine
end

