-- ==== Sys2Proof/Laws/Entries.lean ====
section
/-! SUPPORT. Entry by entry: the coded stream by its taps, the symbols, the hard bits and the decoded bits
of the commands' sequences (R142 to R150), and what an output leaves (R44). -/

namespace Sys2Proof.Machine

/-! ### The scheme pair -/

theorem scheme_reserved : ∀ m c : BitVec 2, m.toNat = 3 ∨ 2 ≤ c.toNat → modulationOf m = none ∨ codingOf c = none := by
  decide

theorem schemeOf_reserved (s : State) (h : s.ctrlMod.toNat = 3 ∨ 2 ≤ s.ctrlCod.toNat) : schemeOf s = none := by
  unfold schemeOf
  rcases scheme_reserved _ _ h with h | h <;> rw [h]
  cases modulationOf s.ctrlMod <;> rfl

theorem schemeOf_some (s : State) (m : Modulation) (c : Coding) (h1 : modulationOf s.ctrlMod = some m)
    (h2 : codingOf s.ctrlCod = some c) : schemeOf s = some (m, c) := by
  simp only [schemeOf, h1, h2]

theorem le_codedPerBit (c : Coding) (n : Nat) : n ≤ codedPerBit c * n := by
  cases c <;> simp only [codedPerBit] <;> omega

/-! ### Sequences entry by entry -/

theorem delayLine_getD (s : State) (n k d : Nat) (hk : k < n) (hd : d ≤ 2) :
    (delayLine 0 (bitSeq s .ba n)).getD (k + 2 - d) false = priorBit s k d := by
  unfold delayLine priorBit
  interval_cases d
  · have := bitSeq_getD s .ba n k hk false
    simpa using this
  · rcases k with _ | k
    · simp
    · have := bitSeq_getD s .ba n k (by omega) false
      simpa using this
  · rcases k with _ | _ | k
    · simp
    · simp
    · have := bitSeq_getD s .ba n k (by omega) false
      simpa using this

theorem encodeSeq_bitSeq_length (s : State) (c : Coding) (n : Nat) :
    (encodeSeq c (bitSeq s .ba n)).length = codedPerBit c * n := by
  rw [encodeSeq_length, bitSeq_length]

/-- An entry of the coded stream, by its taps (R142, R144). -/
theorem encodeSeq_getElem (s : State) (c : Coding) (n j : Nat)
    (h : j < (encodeSeq c (bitSeq s .ba n)).length) :
    (encodeSeq c (bitSeq s .ba n))[j] = codedBit s c j := by
  have hj := h
  rw [encodeSeq_bitSeq_length] at hj
  cases c
  · simp [encodeSeq, bitSeq, codedBit]
  · simp only [codedPerBit] at hj
    have hk : j / 2 < n := by omega
    have ht := convEncode_taps 0 (bitSeq s .ba n) (j / 2) (by rw [bitSeq_length]; exact hk)
    have p0 := delayLine_getD s n (j / 2) 0 hk (by omega)
    have p1 := delayLine_getD s n (j / 2) 1 hk (by omega)
    have p2 := delayLine_getD s n (j / 2) 2 hk (by omega)
    have p0' : priorBit s (j / 2) 0 = bitAt s .ba (j / 2) := by simp [priorBit]
    simp only [Nat.sub_zero, Nat.add_sub_cancel, show j / 2 + 2 - 1 = j / 2 + 1 by omega] at p0 p1 p2
    rw [p0, p1, p2, p0'] at ht
    simp only [encodeSeq, codedBit]
    rcases Nat.mod_two_eq_zero_or_one j with hm | hm
    · have e : 2 * (j / 2) = j := by omega
      rw [e] at ht
      rw [if_pos hm]
      exact (List.getElem?_eq_some_iff.1 ht.1).2
    · have e : 2 * (j / 2) + 1 = j := by omega
      rw [e] at ht
      rw [if_neg (by omega)]
      exact (List.getElem?_eq_some_iff.1 ht.2).2

theorem wholeSymbols_eq (m : Modulation) (n : Nat) :
    bitsPerSymbol m * (n / bitsPerSymbol m) = wholeSymbols m n := by
  cases m <;> simp [bitsPerSymbol, wholeSymbols]

theorem wholeSymbols_le (m : Modulation) (n : Nat) : wholeSymbols m n ≤ n := by
  rw [← wholeSymbols_eq]; exact Nat.mul_div_le _ _

theorem qamLevel_eq (hi lo : Bool) : qamLevel hi lo = levelOf (2 * flagBit hi + flagBit lo) := by
  cases hi <;> cases lo <;> rfl

/-- An entry of the symbols of a coded sequence (R146 to R148). -/
theorem mapSymbols_getElem (m : Modulation) (c : List Bool) (f : Nat → Bool)
    (hf : ∀ j, j < c.length → c.getD j false = f j) (j : Nat) (h : j < (mapSymbols m c).length) :
    (mapSymbols m c)[j] = symbolEntry m f j := by
  have hj := h
  rw [mapSymbols_length] at hj
  cases m
  · have hj' : j < c.length := by simpa [bitsPerSymbol] using hj
    have := hf j hj'
    simp [hj'] at this
    simp [mapSymbols, symbolEntry, mapBpsk, this]
  · have hj' : j < c.length := by simp only [bitsPerSymbol] at hj; omega
    have := hf j hj'
    simp [hj'] at this
    simp [mapSymbols, symbolEntry, mapPairs_eq, mapQpsk, this]
  · simp only [bitsPerSymbol] at hj
    obtain ⟨g0, g1, g2, g3⟩ := mapGroups_get c (j / 4) (by omega)
    rw [hf _ (by omega), hf _ (by omega), qamLevel_eq] at g0 g1 g2 g3
    have hr : j = 4 * (j / 4) ∨ j = 4 * (j / 4) + 1 ∨ j = 4 * (j / 4) + 2 ∨ j = 4 * (j / 4) + 3 := by omega
    have key (v : F64) (k : Nat) (e : j = k) (g : (mapGroups c)[k]? = some v)
        (h : j < (mapGroups c).length) : (mapGroups c)[j] = v := by
      subst e; exact (List.getElem?_eq_some_iff.1 g).2
    simp only [symbolEntry, mapSymbols]
    rcases hr with hr | hr | hr | hr
    · rw [if_pos (by omega)]; exact key _ _ hr g0 h
    · rw [if_neg (by omega)]; exact key _ _ hr g1 h
    · rw [if_pos (by omega)]; exact key _ _ hr g2 h
    · rw [if_neg (by omega)]; exact key _ _ hr g3 h

/-- A hard bit of the sequence in Y (R149). -/
theorem sliceSymbols_getD (s : State) (m : Modulation) (n j : Nat)
    (h : j < (sliceSymbols m (sampleSeq s .y n)).length) :
    (sliceSymbols m (sampleSeq s .y n)).getD j false = hardBit s m j := by
  rw [sliceSymbols_length, sampleSeq_length] at h
  cases m
  · have hj : j < n := by simpa [bitsPerSymbol] using h
    simp [sliceSymbols, hardBit, sampleSeq, hj]
  · have hj : j < 2 * (n / 2) := by simpa [bitsPerSymbol] using h
    have hn : j < n := by omega
    simp [sliceSymbols, hardBit, sampleSeq, hn, hj]
  · simp only [bitsPerSymbol] at h
    obtain ⟨g0, g1, g2, g3⟩ := sliceGroups_get (sampleSeq s .y n) (j / 4) (by rw [sampleSeq_length]; omega)
    rw [sampleSeq_getD s .y n _ (by omega)] at g0 g1 g2 g3
    have hr : j = 4 * (j / 4) ∨ j = 4 * (j / 4) + 1 ∨ j = 4 * (j / 4) + 2 ∨ j = 4 * (j / 4) + 3 := by omega
    have key (v : Bool) (k : Nat) (e : j = k) (g : (sliceGroups (sampleSeq s .y n))[k]? = some v) :
        (sliceGroups (sampleSeq s .y n))[j]?.getD false = v := by rw [e, g]; rfl
    simp only [hardBit, sliceSymbols, List.getD]
    rcases hr with hr | hr | hr | hr
    · rw [if_pos (by omega)]; exact key _ _ hr g0
    · rw [if_neg (by omega), if_pos (by omega)]; exact key _ _ hr g1
    · rw [if_neg (by omega), if_neg (by omega), if_pos (by omega)]; exact key _ _ hr g2
    · rw [if_neg (by omega), if_neg (by omega), if_neg (by omega)]; exact key _ _ hr g3

theorem decodeHard_length (c : Coding) (h : List Bool) : (decodeHard c h).length = decodedLength c h.length := by
  cases c <;> simp [decodeHard, decodedLength, decodePairs_length]

theorem decodedLength_le (c : Coding) (n : Nat) : decodedLength c n ≤ n := by
  cases c <;> simp only [decodedLength] <;> omega

/-- A decoded bit (R143, R144). -/
theorem decodeHard_getElem (c : Coding) (h : List Bool) (k : Nat) (f : Nat → Bool)
    (hf : ∀ j, j < h.length → h.getD j false = f j) (hk : k < (decodeHard c h).length) :
    (decodeHard c h)[k] = decodedBit c f k := by
  cases c
  · have hk' : k < h.length := hk
    show h[k] = f k
    rw [← hf k hk']
    simp [hk']
  · have hk' : k < (decodePairs h).length := hk
    have hg := decodePairs_get h k (by rw [decodePairs_length] at hk'; omega)
    rw [decodePairs_length] at hk'
    rw [hf _ (by omega), hf _ (by omega)] at hg
    exact (List.getElem?_eq_some_iff.1 hg).2

/-! ### Outputs -/

theorem length_toNat (n : Nat) (h : n ≤ Config.depth) : (BitVec.ofNat 32 n).toNat = n := by
  have hd : Config.depth = 262144 := rfl
  rw [BitVec.toNat_ofNat]
  exact Nat.mod_eq_of_lt (by omega)

/-- Everything a successful output to BB leaves (R44, R102). -/
theorem outputBits_spec (s : State) (out : List Bool) (n : Nat) (hn : out.length = n) (hd : n ≤ Config.depth)
    (f : Nat → Bool) (hf : ∀ (j : Nat) (h : j < out.length), out[j] = f j) :
    ∃ t, flagsSuccess (outputBits s out) = t ∧
      t = { s with
        bb := t.bb
        lenBb := BitVec.ofNat 32 n
        errcode := 0
        statusErr := false
        statusDone := true
        phase := .idle } ∧
      t.lenBb.toNat = n ∧ (∀ j, j < t.lenBb.toNat → bitAt t .bb j = f j) ∧
      (∀ j, t.lenBb.toNat ≤ j → bitAt t .bb j = bitAt s .bb j) ∧
      ∀ a, (a < bitBase .bb ∨ bitBase .bb + (t.lenBb.toNat + 7) / 8 ≤ a) → byteAt t a = byteAt s a := by
  subst hn
  have hl : (flagsSuccess (outputBits s out)).lenBb.toNat = out.length := length_toNat _ hd
  refine ⟨_, rfl, rfl, hl, ?_, ?_, ?_⟩
  · intro j hj
    have := bitAt_outputBits s out j
    rw [dif_pos (by omega)] at this
    rw [← hf]
    exact this
  · intro j hj
    have := bitAt_outputBits s out j
    rw [dif_neg (by omega)] at this
    exact this
  · intro a ha
    rw [hl] at ha
    exact byteAt_putBits s .bb out a ha

/-- Everything a successful output to X leaves (R44, R102). -/
theorem outputX_spec (s : State) (out : List F64) (n : Nat) (hn : out.length = n) (hd : n ≤ Config.depth)
    (f : Nat → F64) (hf : ∀ (j : Nat) (h : j < out.length), out[j] = f j) :
    ∃ t, flagsSuccess (outputX s out) = t ∧
      t = { s with
        x := t.x
        lenX := BitVec.ofNat 32 n
        errcode := 0
        statusErr := false
        statusDone := true
        phase := .idle } ∧
      t.lenX.toNat = n ∧ (∀ j, j < t.lenX.toNat → sampleAt t .x j = f j) ∧
      (∀ j, t.lenX.toNat ≤ j → sampleAt t .x j = sampleAt s .x j) ∧
      ∀ a, (a < entryAddr .x 0 ∨ entryAddr .x t.lenX.toNat ≤ a) → byteAt t a = byteAt s a := by
  subst hn
  have hl : (flagsSuccess (outputX s out)).lenX.toNat = out.length := length_toNat _ hd
  refine ⟨_, rfl, rfl, hl, ?_, ?_, ?_⟩
  · intro j hj
    have := sampleAt_outputX s out j
    rw [dif_pos (by omega)] at this
    rw [← hf]
    exact this
  · intro j hj
    have := sampleAt_outputX s out j
    rw [dif_neg (by omega)] at this
    exact this
  · intro a ha
    rw [hl] at ha
    exact byteAt_putSamples s .x 0 out a (by rwa [Nat.zero_add])

end Sys2Proof.Machine
end

