-- ==== Sys2Proof/Laws/Float.lean ====
section
/-! SUPPORT. Rounding is to the nearest binary64 value, ties to even (R11, R109): `roundPattern` against
every finite pattern, and `roundRatio` against every finite value. -/

namespace Sys2Proof.Machine

-- One theorem at a time: each `decide +kernel` holds a thread until the kernel is done with all before it.
set_option Elab.async false

/-! ### Patterns and their magnitudes -/

/-- The magnitude of the pattern that a significand `m` and an exponent `e` make. -/
theorem patternMagnitude_of_parts (e m : Nat) (hm : m ≤ 2 ^ 53) (he : e = 0 ∨ 2 ^ 52 ≤ m) :
    patternMagnitude (e * 2 ^ 52 + m) = m * 2 ^ e := by
  unfold patternMagnitude
  rw [Nat.shiftLeft_eq]
  by_cases h0 : e * 2 ^ 52 + m < 2 ^ 52
  · have : e = 0 := by omega
    subst this
    rw [if_pos h0, Nat.zero_mul, Nat.zero_add, Nat.pow_zero, Nat.mul_one]
  · rw [if_neg h0]
    have hm' : 2 ^ 52 ≤ m := by omega
    rcases Nat.lt_or_ge m (2 ^ 53) with h | h
    · have h1 : (e * 2 ^ 52 + m) / 2 ^ 52 = e + 1 := by omega
      have h2 : (e * 2 ^ 52 + m) % 2 ^ 52 = m - 2 ^ 52 := by omega
      have h4 : 2 ^ 52 + (m - 2 ^ 52) = m := by omega
      have h5 : e + 1 - 1 = e := by omega
      rw [h1, h2, h4, h5]
    · have hm2 : m = 2 ^ 53 := by omega
      have h1 : (e * 2 ^ 52 + m) / 2 ^ 52 = e + 2 := by omega
      have h2 : (e * 2 ^ 52 + m) % 2 ^ 52 = 0 := by omega
      have h3 : e + 2 - 1 = e + 1 := by omega
      rw [h1, h2, h3, hm2, Nat.pow_succ 2 e]
      ring

/-- Every pattern is a significand and an exponent. -/
theorem pattern_parts (p : Nat) : ∃ e m, p = e * 2 ^ 52 + m ∧ m < 2 ^ 53 ∧ (e = 0 ∨ 2 ^ 52 ≤ m) := by
  rcases Nat.lt_or_ge p (2 ^ 52) with h | h
  · exact ⟨0, p, by omega, by omega, .inl rfl⟩
  · exact ⟨p / 2 ^ 52 - 1, p % 2 ^ 52 + 2 ^ 52, by omega, by omega, .inr (by omega)⟩

/-- A magnitude is a multiple of 2^e, or lies below the values whose last place is 2^e. -/
theorem patternMagnitude_multiple (p e : Nat) :
    (∃ k, patternMagnitude p = k * 2 ^ e) ∨ patternMagnitude p < 2 ^ 52 * 2 ^ e := by
  obtain ⟨e', m, rfl, hm, he⟩ := pattern_parts p
  rw [patternMagnitude_of_parts e' m (by omega) he]
  rcases Nat.lt_or_ge e' e with h | h
  · right
    calc m * 2 ^ e' < 2 ^ 53 * 2 ^ e' := Nat.mul_lt_mul_of_pos_right hm (by positivity)
      _ = 2 ^ 52 * 2 ^ (e' + 1) := by rw [Nat.pow_succ]; ring
      _ ≤ 2 ^ 52 * 2 ^ e := Nat.mul_le_mul_left _ (Nat.pow_le_pow_right (by norm_num) h)
  · left
    refine ⟨m * 2 ^ (e' - e), ?_⟩
    rw [Nat.mul_assoc, ← Nat.pow_add]
    congr 2; omega

/-! ### Rounding a ratio of naturals -/

/-- The rounded integer is within one half, and even at exactly one half. -/
theorem nearestEven_spec (num den : Nat) (hd : 0 < den) :
    2 * num ≤ 2 * (nearestEven num den * den) + den ∧ 2 * (nearestEven num den * den) ≤ 2 * num + den ∧
      (2 * num = 2 * (nearestEven num den * den) + den ∨ 2 * (nearestEven num den * den) = 2 * num + den →
        nearestEven num den % 2 = 0) := by
  have hq : num / den * den + num % den = num := by
    rw [Nat.mul_comm]; exact Nat.div_add_mod num den
  have hr : num % den < den := Nat.mod_lt _ hd
  have hs : (num / den + 1) * den = num / den * den + den := by ring
  unfold nearestEven
  split
  · next h =>
    rw [hs]
    generalize num / den * den = qd at *
    refine ⟨by omega, by omega, ?_⟩
    intro ht
    rcases h with h | ⟨h, ho⟩ <;> omega
  · next h =>
    generalize num / den * den = qd at *
    refine ⟨by omega, by omega, ?_⟩
    intro ht
    have : den = 2 * (num % den) := by omega
    by_contra hodd
    exact h (.inr ⟨this, by omega⟩)

/-- The significand of a rounded ratio: 53 bits or just 2^53, and normal unless the exponent is 0. -/
theorem roundParts (num den : Nat) (hd : 0 < den) :
    nearestEven num (den * 2 ^ ulpExponent num den) ≤ 2 ^ 53 ∧
      (ulpExponent num den = 0 ∨
        (2 ^ 52 ≤ nearestEven num (den * 2 ^ ulpExponent num den) ∧
          2 ^ 52 * 2 ^ ulpExponent num den * den ≤ num)) := by
  set e := ulpExponent num den with he
  have hD : 0 < den * 2 ^ e := by positivity
  obtain ⟨h1, h2, h3⟩ := nearestEven_spec num (den * 2 ^ e) hD
  have hq : num < (num / den + 1) * den := by
    have := Nat.lt_mul_div_succ num hd
    rwa [Nat.mul_comm] at this
  have hlog : num / den < 2 ^ 53 * 2 ^ e := by
    have hl : num / den < 2 ^ (Nat.log2 (num / den) + 1) := Nat.lt_log2_self
    calc num / den < 2 ^ (Nat.log2 (num / den) + 1) := hl
      _ ≤ 2 ^ (53 + e) := Nat.pow_le_pow_right (by norm_num) (by simp only [he, ulpExponent]; omega)
      _ = 2 ^ 53 * 2 ^ e := Nat.pow_add _ _ _
  have hnum : num < 2 ^ 53 * (den * 2 ^ e) := by
    calc num < (num / den + 1) * den := hq
      _ ≤ 2 ^ 53 * 2 ^ e * den := Nat.mul_le_mul_right _ hlog
      _ = 2 ^ 53 * (den * 2 ^ e) := by ring
  constructor
  · by_contra hc
    have : (2 ^ 53 + 1) * (den * 2 ^ e) ≤ nearestEven num (den * 2 ^ e) * (den * 2 ^ e) :=
      Nat.mul_le_mul_right _ (by omega)
    rw [Nat.add_mul, Nat.one_mul] at this
    omega
  · rcases Nat.eq_zero_or_pos e with h0 | hpos
    · exact .inl h0
    · right
      have hne : num / den ≠ 0 := by
        intro hz
        rw [he, ulpExponent, hz] at hpos
        simp at hpos
      have hlo : 2 ^ 52 * 2 ^ e ≤ num / den := by
        calc 2 ^ 52 * 2 ^ e = 2 ^ (52 + e) := (Nat.pow_add _ _ _).symm
          _ ≤ 2 ^ Nat.log2 (num / den) :=
            Nat.pow_le_pow_right (by norm_num) (by simp only [he, ulpExponent] at hpos ⊢; omega)
          _ ≤ num / den := Nat.log2_self_le hne
      have hle : 2 ^ 52 * 2 ^ e * den ≤ num :=
        le_trans (Nat.mul_le_mul_right _ hlo) (Nat.div_mul_le_self _ _)
      refine ⟨?_, hle⟩
      by_contra hc
      have : (nearestEven num (den * 2 ^ e) + 1) * (den * 2 ^ e) ≤ 2 ^ 52 * (den * 2 ^ e) :=
        Nat.mul_le_mul_right _ (by omega)
      rw [Nat.add_mul, Nat.one_mul] at this
      have h4 : 2 ^ 52 * (den * 2 ^ e) = 2 ^ 52 * 2 ^ e * den := by ring
      omega

/-- The magnitude of a rounded ratio that does not overflow. -/
theorem roundPattern_magnitude (num den : Nat) (hd : 0 < den) (hfin : roundPattern num den < infPattern) :
    roundPattern num den =
        ulpExponent num den * 2 ^ 52 + nearestEven num (den * 2 ^ ulpExponent num den) ∧
      patternMagnitude (roundPattern num den) =
        nearestEven num (den * 2 ^ ulpExponent num den) * 2 ^ ulpExponent num den := by
  have hp : roundPattern num den =
      ulpExponent num den * 2 ^ 52 + nearestEven num (den * 2 ^ ulpExponent num den) := by
    unfold roundPattern at *
    omega
  refine ⟨hp, ?_⟩
  obtain ⟨h1, h2⟩ := roundParts num den hd
  rw [hp]
  exact patternMagnitude_of_parts _ _ h1 (h2.imp id (fun h => h.1))

/-- Distance of two naturals, as a natural. -/
theorem dist_le_of_within {m k D num : Nat} (h1 : 2 * num ≤ 2 * (m * D) + D)
    (h2 : 2 * (m * D) ≤ 2 * num + D) :
    (((m * D : Nat) : Int) - num).natAbs ≤ (((k * D : Nat) : Int) - num).natAbs ∧
      ((((m * D : Nat) : Int) - num).natAbs = (((k * D : Nat) : Int) - num).natAbs → k ≠ m →
        2 * num = 2 * (m * D) + D ∨ 2 * (m * D) = 2 * num + D) := by
  rcases lt_trichotomy k m with h | rfl | h
  · have : (k + 1) * D ≤ m * D := Nat.mul_le_mul_right _ h
    rw [Nat.add_mul, Nat.one_mul] at this
    generalize m * D = a at *
    generalize k * D = b at *
    constructor
    · omega
    · intro h _; omega
  · exact ⟨le_refl _, fun _ h => absurd rfl h⟩
  · have : (m + 1) * D ≤ k * D := Nat.mul_le_mul_right _ h
    rw [Nat.add_mul, Nat.one_mul] at this
    generalize m * D = a at *
    generalize k * D = b at *
    constructor
    · omega
    · intro h _; omega

/-- The rounded pattern is nearest to `num / den` units among all patterns, and even at a tie (R109). -/
theorem roundPattern_nearest (num den : Nat) (hd : 0 < den) (hfin : roundPattern num den < infPattern)
    (p : Nat) :
    (((patternMagnitude (roundPattern num den) * den : Nat) : Int) - num).natAbs ≤
        (((patternMagnitude p * den : Nat) : Int) - num).natAbs ∧
      ((((patternMagnitude (roundPattern num den) * den : Nat) : Int) - num).natAbs =
          (((patternMagnitude p * den : Nat) : Int) - num).natAbs →
        patternMagnitude p ≠ patternMagnitude (roundPattern num den) → roundPattern num den % 2 = 0) := by
  obtain ⟨hpat, hmag⟩ := roundPattern_magnitude num den hd hfin
  obtain ⟨_, hnorm⟩ := roundParts num den hd
  rw [hmag]
  set e := ulpExponent num den with he
  set m := nearestEven num (den * 2 ^ e) with hm
  obtain ⟨h1, h2, h3⟩ := nearestEven_spec num (den * 2 ^ e) (by positivity)
  rw [← hm] at h1 h2 h3
  have hr : m * 2 ^ e * den = m * (den * 2 ^ e) := by ring
  have hpar : m % 2 = 0 → roundPattern num den % 2 = 0 := by rw [hpat]; omega
  have hmul (k : Nat) := dist_le_of_within (k := k) h1 h2
  rcases patternMagnitude_multiple p e with ⟨k, hk⟩ | hlt
  · have hk' : patternMagnitude p * den = k * (den * 2 ^ e) := by rw [hk]; ring
    rw [hr, hk']
    refine ⟨(hmul k).1, fun heq hne => hpar (h3 ((hmul k).2 heq ?_))⟩
    rintro rfl
    exact hne hk
  · have hge : 2 ^ 52 * 2 ^ e * den ≤ num ∨ e = 0 := hnorm.symm.imp (fun h => h.2) id
    rcases hge with hge | h0
    · have hb := (hmul (2 ^ 52)).1
      have hk' : 2 ^ 52 * (den * 2 ^ e) = 2 ^ 52 * 2 ^ e * den := by ring
      rw [hk'] at hb
      rw [hr]
      have hlt' : patternMagnitude p * den < 2 ^ 52 * 2 ^ e * den := Nat.mul_lt_mul_of_pos_right hlt hd
      generalize m * (den * 2 ^ e) = a at *
      generalize 2 ^ 52 * 2 ^ e * den = b at *
      generalize patternMagnitude p * den = c at *
      constructor
      · omega
      · intro heq; omega
    · rw [h0] at hlt hr ⊢
      rw [h0] at hmul h3
      have hk' : patternMagnitude p * den = patternMagnitude p * (den * 2 ^ 0) := by ring
      rw [hr, hk']
      refine ⟨(hmul _).1, fun heq hne => hpar (h3 ((hmul _).2 heq ?_))⟩
      intro hc
      exact hne (by rw [hc]; ring)

/-! ### Signed values -/

theorem roundPattern_le (num den : Nat) : roundPattern num den ≤ infPattern := Nat.min_le_left _ _

theorem packBits_toNat (neg : Bool) (p : Nat) (hp : p < 2 ^ 63) :
    (packBits neg p).toNat = (if neg then 2 ^ 63 else 0) + p := by
  unfold packBits
  rw [BitVec.toNat_ofNat]
  cases neg <;> simp <;> omega

@[simp] theorem magnitudeBits_packBits (neg : Bool) (p : Nat) (hp : p < 2 ^ 63) :
    magnitudeBits (packBits neg p) = p := by
  unfold magnitudeBits
  rw [packBits_toNat neg p hp]
  cases neg <;> simp <;> omega

@[simp] theorem signBit_packBits (neg : Bool) (p : Nat) (hp : p < 2 ^ 63) :
    signBit (packBits neg p) = neg := by
  unfold signBit
  rw [← BitVec.testBit_toNat, packBits_toNat neg p hp]
  cases neg
  · simp only [Bool.false_eq_true, if_false, Nat.zero_add]
    exact Nat.testBit_lt_two_pow hp
  · simp only [if_true]
    rw [Nat.testBit_two_pow_add_eq, Nat.testBit_lt_two_pow hp]
    rfl

theorem infPattern_lt : infPattern < 2 ^ 63 := by decide

/-- A finite pattern unpacks to its sign and magnitude. -/
theorem unpack_of_finite (a : F64) (h : isFinite a = true) :
    unpack a = .fin (signBit a) (patternMagnitude (magnitudeBits a)) := by
  unfold unpack
  rw [if_pos (by simpa [isFinite] using h)]

/-- The value of a rounded ratio that does not overflow. -/
theorem unitsOf_roundRatio (neg : Bool) (num den : Nat) :
    unitsOf (roundRatio neg num den) = signedUnits neg (patternMagnitude (roundPattern num den)) := by
  have hp : roundPattern num den < 2 ^ 63 := lt_of_le_of_lt (roundPattern_le num den) infPattern_lt
  unfold unitsOf roundRatio
  rw [signBit_packBits neg _ hp, magnitudeBits_packBits neg _ hp]

theorem isFinite_roundRatio (neg : Bool) (num den : Nat) :
    isFinite (roundRatio neg num den) = true ↔ roundPattern num den < infPattern := by
  have hp : roundPattern num den < 2 ^ 63 := lt_of_le_of_lt (roundPattern_le num den) infPattern_lt
  unfold isFinite roundRatio
  rw [magnitudeBits_packBits neg _ hp]
  exact decide_eq_true_iff

theorem packBits_lsb (neg : Bool) (p : Nat) (hp : p < 2 ^ 63) :
    (packBits neg p).getLsbD 0 = decide (p % 2 = 1) := by
  rw [← BitVec.testBit_toNat, packBits_toNat neg p hp, Nat.testBit_zero]
  cases neg <;> simp
  omega

/-- The rounded value is nearest to the signed ratio among all finite values, and its last bit is 0 at a
tie (R109). -/
theorem roundRatio_nearest (neg : Bool) (num den : Nat) (hd : 0 < den)
    (hfin : isFinite (roundRatio neg num den) = true) (y : F64) :
    (unitsOf (roundRatio neg num den) * (den : Int) - signedUnits neg num).natAbs ≤
        (unitsOf y * (den : Int) - signedUnits neg num).natAbs ∧
      ((unitsOf (roundRatio neg num den) * (den : Int) - signedUnits neg num).natAbs =
          (unitsOf y * (den : Int) - signedUnits neg num).natAbs →
        unitsOf y ≠ unitsOf (roundRatio neg num den) →
          (roundRatio neg num den).getLsbD 0 = false) := by
  have hfin' := (isFinite_roundRatio neg num den).1 hfin
  have hp : roundPattern num den < 2 ^ 63 := lt_of_le_of_lt (roundPattern_le num den) infPattern_lt
  obtain ⟨hn, ht⟩ := roundPattern_nearest num den hd hfin' (magnitudeBits y)
  obtain ⟨hn0, ht0⟩ := roundPattern_nearest num den hd hfin' 0
  have hz : patternMagnitude 0 = 0 := rfl
  rw [hz, Nat.zero_mul] at hn0 ht0
  have hpar : roundPattern num den % 2 = 0 → (roundRatio neg num den).getLsbD 0 = false := by
    intro h
    rw [roundRatio, packBits_lsb neg _ hp, h]; rfl
  rw [unitsOf_roundRatio]
  unfold unitsOf
  generalize patternMagnitude (roundPattern num den) = r at *
  generalize patternMagnitude (magnitudeBits y) = u at *
  push_cast at hn ht hn0 ht0
  have hru : (u : Int) ≠ r → u ≠ r := fun h hc => h (by rw [hc])
  have hu0 : 0 ≤ (u : Int) * den := by positivity
  have hud : (u : Int) * den = 0 → u = 0 := by
    intro h
    rcases mul_eq_zero.1 h with h | h <;> omega
  have hr0 : 0 ≤ (r : Int) * den := by positivity
  cases neg <;> cases signBit y <;>
    simp only [signedUnits, Bool.false_eq_true, if_false, if_true, neg_mul] at *
  · exact ⟨hn, fun h hne => hpar (ht h (hru (by simpa using hne)))⟩
  · generalize (u : Int) * den = a at *
    generalize (r : Int) * den = b at *
    refine ⟨by omega, fun h hne => ?_⟩
    have ha : a = 0 := by omega
    have hu : u = 0 := hud ha
    subst hu
    exact hpar (ht0 (by omega) (by intro hc; apply hne; rw [← hc]; simp))
  · generalize (u : Int) * den = a at *
    generalize (r : Int) * den = b at *
    refine ⟨by omega, fun h hne => ?_⟩
    have ha : a = 0 := by omega
    have hu : u = 0 := hud ha
    subst hu
    exact hpar (ht0 (by omega) (by intro hc; apply hne; rw [← hc]; simp))
  · generalize (u : Int) * den = a at *
    generalize (r : Int) * den = b at *
    refine ⟨by omega, fun h hne => ?_⟩
    exact hpar (ht (by omega) (by intro hc; apply hne; rw [hc]))

theorem signBit_roundRatio (neg : Bool) (num den : Nat) : signBit (roundRatio neg num den) = neg :=
  signBit_packBits neg _ (lt_of_le_of_lt (roundPattern_le num den) infPattern_lt)

theorem magnitudeBits_roundRatio (neg : Bool) (num den : Nat) :
    magnitudeBits (roundRatio neg num den) = roundPattern num den :=
  magnitudeBits_packBits neg _ (lt_of_le_of_lt (roundPattern_le num den) infPattern_lt)

/-- Rounding stays below the infinity exactly below half a last place above the largest finite value: at the
last exponent the significand rounds up to 2^53 from there on (R109). -/
theorem roundPattern_lt_infPattern (num den : Nat) (hd : 0 < den) :
    roundPattern num den < infPattern ↔ 2 * num < (2 ^ 54 - 1) * 2 ^ 2045 * den := by
  obtain ⟨hm53, hnorm⟩ := roundParts num den hd
  set e := ulpExponent num den with he
  obtain ⟨n1, n2, n3⟩ := nearestEven_spec num (den * 2 ^ e) (by positivity)
  have hp : roundPattern num den < infPattern ↔ e * 2 ^ 52 + nearestEven num (den * 2 ^ e) < infPattern := by
    unfold roundPattern; rw [← he]; omega
  rw [hp]
  set m := nearestEven num (den * 2 ^ e)
  have hi : infPattern = 2047 * 2 ^ 52 := by decide
  have hbound : (2 ^ 54 - 1) * 2 ^ 2045 * den = (2 ^ 54 - 1) * (2 ^ 2045 * den) := Nat.mul_assoc _ _ _
  rw [hi, hbound]
  rcases Nat.lt_trichotomy e 2045 with h | h | h
  · have hnum : 2 * num ≤ (2 ^ 54 + 1) * (2 ^ e * den) := by
      have : m * (den * 2 ^ e) ≤ 2 ^ 53 * (den * 2 ^ e) := Nat.mul_le_mul_right _ hm53
      calc 2 * num ≤ 2 * (m * (den * 2 ^ e)) + den * 2 ^ e := n1
        _ ≤ 2 * (2 ^ 53 * (den * 2 ^ e)) + den * 2 ^ e := by omega
        _ = (2 ^ 54 + 1) * (2 ^ e * den) := by ring
    have hscale : 2 * (2 ^ e * den) ≤ 2 ^ 2045 * den := by
      calc 2 * (2 ^ e * den) = 2 ^ (e + 1) * den := by rw [Nat.pow_succ]; ring
        _ ≤ 2 ^ 2045 * den := Nat.mul_le_mul_right _ (Nat.pow_le_pow_right (by norm_num) (by omega))
    have hpos : 0 < 2 ^ e * den := by positivity
    generalize 2 ^ e * den = q at *
    generalize 2 ^ 2045 * den = r at *
    omega
  · rw [h, Nat.mul_comm den] at n1 n2 n3
    rw [h]
    generalize 2 ^ 2045 * den = q at *
    constructor
    · intro hlt
      by_contra hc
      have hle : m * q ≤ (2 ^ 53 - 1) * q := Nat.mul_le_mul_right _ (by omega)
      have htie : 2 * num = 2 * (m * q) + q := by omega
      have hev := n3 (.inl htie)
      have : m * q ≤ (2 ^ 53 - 2) * q := Nat.mul_le_mul_right _ (by omega)
      omega
    · intro hlt
      by_contra hc
      have : 2 ^ 53 * q ≤ m * q := Nat.mul_le_mul_right _ (by omega)
      omega
  · have hm52 : 2 ^ 52 ≤ m := by rcases hnorm with h0 | h0 <;> omega
    have hnum : 2 ^ 52 * 2 ^ e * den ≤ num := by
      rcases hnorm with h0 | h0
      · omega
      · exact h0.2
    have hbig : 2 ^ 53 * (2 ^ 2045 * den) ≤ num := by
      calc 2 ^ 53 * (2 ^ 2045 * den) = 2 ^ 52 * 2 ^ (2045 + 1) * den := by rw [Nat.pow_succ 2 2045]; ring
        _ ≤ 2 ^ 52 * 2 ^ e * den :=
          Nat.mul_le_mul_right _ (Nat.mul_le_mul_left _ (Nat.pow_le_pow_right (by norm_num) h))
        _ ≤ num := hnum
    generalize 2 ^ 2045 * den = q at *
    omega

/-- Every integer up to 2^53 is the magnitude, in units, of a finite pattern (R11). -/
theorem exists_pattern_of_le (n : Nat) (h : n ≤ 2 ^ 53) :
    ∃ p, p < infPattern ∧ patternMagnitude p = n * 2 ^ 1074 := by
  have hi : infPattern = 2047 * 2 ^ 52 := by decide
  rcases Nat.eq_zero_or_pos n with rfl | hn
  · exact ⟨0, by rw [hi]; norm_num, by rw [Nat.zero_mul]; rfl⟩
  rcases Nat.eq_or_lt_of_le h with rfl | hlt
  · refine ⟨1074 * 2 ^ 52 + 2 ^ 53, by rw [hi]; norm_num, ?_⟩
    exact patternMagnitude_of_parts _ _ (le_refl _) (.inr (by norm_num))
  · have hl : Nat.log2 n < 53 := (Nat.log2_lt (by omega)).2 hlt
    have hlo : 2 ^ Nat.log2 n ≤ n := Nat.log2_self_le (by omega)
    have hhi : n < 2 ^ (Nat.log2 n + 1) := Nat.lt_log2_self
    obtain ⟨k, hk⟩ : ∃ k, Nat.log2 n + k = 52 := ⟨52 - Nat.log2 n, by omega⟩
    have h1 : 2 ^ 52 ≤ n * 2 ^ k := by
      rw [← hk, Nat.pow_add]; exact Nat.mul_le_mul_right _ hlo
    have h2 : n * 2 ^ k < 2 ^ 53 := by
      have e : 53 = Nat.log2 n + 1 + k := by omega
      rw [e, Nat.pow_add]; exact Nat.mul_lt_mul_of_pos_right hhi (by positivity)
    refine ⟨(1074 - k) * 2 ^ 52 + n * 2 ^ k, by rw [hi]; omega, ?_⟩
    rw [patternMagnitude_of_parts _ _ (by omega) (.inr h1), Nat.mul_assoc, ← Nat.pow_add]
    congr 2; omega

/-! ### The integer square root -/

theorem isqrtFrom_spec (k n r : Nat) (hlo : r * r ≤ n) (hhi : n < (r + 2 ^ k) * (r + 2 ^ k)) :
    isqrtFrom k n r * isqrtFrom k n r ≤ n ∧ n < (isqrtFrom k n r + 1) * (isqrtFrom k n r + 1) := by
  induction k generalizing r with
  | zero => exact ⟨hlo, hhi⟩
  | succ k ih =>
    simp only [isqrtFrom]
    split
    · next h =>
      refine ih _ h ?_
      have e : r + 2 ^ k + 2 ^ k = r + 2 ^ (k + 1) := by rw [Nat.pow_succ]; ring
      rwa [e]
    · next h => exact ih r hlo (by omega)

/-- The integer square root, for radicands below 2^164. -/
theorem isqrt_spec (n : Nat) (h : n < 2 ^ 164) : isqrt n * isqrt n ≤ n ∧ n < (isqrt n + 1) * (isqrt n + 1) :=
  isqrtFrom_spec 82 n 0 (by omega) (by
    have e : (0 + 2 ^ 82) * (0 + 2 ^ 82) = 2 ^ 164 := by norm_num
    rw [e]; exact h)

/-- Twice the square root of a positive finite magnitude: `2 r + s` at the scale `2^h`, `r` below the exact
root, `r + 1` above it, `s` 0 only where `r` is exact; at least 80 bits of `r`. -/
theorem sqrtTwice_spec (m : Nat) (hm : 0 < m) (hlt : m < 2 ^ 2098) :
    ∃ r h s, sqrtTwice m = (2 * r + s) * 2 ^ h ∧ 2 ^ 80 ≤ r ∧ s ≤ 1 ∧ r * r * 2 ^ (2 * h) ≤ m * 2 ^ 1074 ∧
      m * 2 ^ 1074 < (r + 1) * (r + 1) * 2 ^ (2 * h) ∧ (s = 0 → r * r * 2 ^ (2 * h) = m * 2 ^ 1074) ∧
      r * r * 2 ^ (2 * h) < 2 ^ (1586 + 1586) := by
  have hpa (i j : Nat) : (2 : Nat) ^ (i + j) = 2 ^ i * 2 ^ j := Nat.pow_add 2 i j
  set n := m * 2 ^ 1074 with hn
  have hn0 : 2 ^ 1074 ≤ n := by rw [hn]; exact Nat.le_mul_of_pos_left _ hm
  have hne : n ≠ 0 := by
    have : 0 < 2 ^ 1074 := by positivity
    omega
  have hl : 1074 ≤ Nat.log2 n := (Nat.le_log2 hne).2 hn0
  set h := sqrtShift n with hh
  have h2 : 2 * h ≤ Nat.log2 n - 160 ∧ Nat.log2 n - 161 ≤ 2 * h := by
    rw [hh, sqrtShift]; omega
  have hlo : 2 ^ Nat.log2 n ≤ n := Nat.log2_self_le hne
  have hhi : n < 2 ^ (Nat.log2 n + 1) := Nat.lt_log2_self
  set q := n / 2 ^ (2 * h) with hq
  have hp : 0 < 2 ^ (2 * h) := by positivity
  have q1 : 2 ^ 160 ≤ q := by
    rw [hq, Nat.le_div_iff_mul_le hp, ← Nat.pow_add]
    exact le_trans (Nat.pow_le_pow_right (by norm_num) (by omega)) hlo
  have q2 : q < 2 ^ 164 := by
    rw [hq, Nat.div_lt_iff_lt_mul hp, ← Nat.pow_add]
    exact lt_of_lt_of_le hhi (Nat.pow_le_pow_right (by norm_num) (by omega))
  obtain ⟨i1, i2⟩ := isqrt_spec q q2
  set r := isqrt q with hr
  have r1 : 2 ^ 80 ≤ r := by
    by_contra hc
    have : (r + 1) * (r + 1) ≤ 2 ^ 80 * 2 ^ 80 := Nat.mul_le_mul (by omega) (by omega)
    have e : (2 : Nat) ^ 80 * 2 ^ 80 = 2 ^ 160 := by norm_num
    omega
  have a1 : r * r * 2 ^ (2 * h) ≤ n := le_trans (Nat.mul_le_mul_right _ i1) (Nat.div_mul_le_self _ _)
  have a2 : n < (r + 1) * (r + 1) * 2 ^ (2 * h) := by
    have hlt' : n < (q + 1) * 2 ^ (2 * h) := by
      have := Nat.lt_div_mul_add hp (a := n)
      rw [← hq] at this
      rw [Nat.add_mul, Nat.one_mul]
      exact this
    exact lt_of_lt_of_le hlt' (Nat.mul_le_mul_right _ (by omega))
  have a3 : n < 2 ^ (2098 + 1074) := by
    have : n < 2 ^ 2098 * 2 ^ 1074 := by rw [hn]; exact Nat.mul_lt_mul_of_pos_right hlt (by positivity)
    rw [hpa]
    exact this
  refine ⟨r, h, (if r * r * 2 ^ (2 * h) = n then 0 else 1), rfl, r1, ?_, a1, a2, ?_, lt_of_le_of_lt a1 a3⟩
  · split <;> omega
  · intro hs
    split at hs
    · assumption
    · omega

/-! ### Classes and order -/

theorem unpack_of_infinite (a : F64) (h : magnitudeBits a = infPattern) : unpack a = .inf (signBit a) := by
  unfold unpack
  rw [if_neg (by omega), if_pos h]

theorem unpack_of_zero (a : F64) (h : magnitudeBits a = 0) : unpack a = .fin (signBit a) 0 := by
  unfold unpack
  rw [if_pos (by rw [h]; decide), h]
  rfl

theorem isNaN_iff (a : F64) : isNaN a = true ↔ unpack a = .nan := by
  unfold isNaN unpack
  split
  · simp; omega
  · split
    · simp; omega
    · simp; omega

/-- The NaN an operation produces is a NaN, whatever its free sign and fraction (R109). -/
theorem isNaN_nanResult (op : FloatOp) (a b : F64) : isNaN (nanResult op a b) = true := by
  have h := (Config.nanFraction op a b).isLt
  have hi : infPattern = 9218868437227405312 := rfl
  unfold isNaN nanResult
  rw [magnitudeBits_packBits _ _ (by rw [hi]; omega)]
  simp

/-- `fneg` flips the sign and nothing else (R11). -/
theorem fneg_parts (a : F64) : magnitudeBits (fneg a) = magnitudeBits a ∧ signBit (fneg a) = !signBit a := by
  have e : (0x8000000000000000 : BitVec 64) = BitVec.twoPow 64 63 := by decide +kernel
  constructor
  · unfold magnitudeBits fneg
    apply Nat.eq_of_testBit_eq
    intro i
    rw [Nat.testBit_mod_two_pow, Nat.testBit_mod_two_pow, BitVec.testBit_toNat, BitVec.testBit_toNat, e]
    by_cases h : i < 63
    · have h2 : decide (63 = i) = false := by simp; omega
      simp [h, BitVec.getLsbD_xor, BitVec.getLsbD_twoPow, h2]
    · simp [h]
  · unfold signBit fneg
    rw [e]
    simp

/-- A larger pattern is a larger magnitude. -/
theorem patternMagnitude_lt_iff (p q : Nat) : patternMagnitude p < patternMagnitude q ↔ p < q := by
  have next (p : Nat) : patternMagnitude p < patternMagnitude (p + 1) := by
    obtain ⟨e, m, rfl, hm, he⟩ := pattern_parts p
    rw [Nat.add_assoc, patternMagnitude_of_parts e m (by omega) he,
      patternMagnitude_of_parts e (m + 1) (by omega) (by omega)]
    exact Nat.mul_lt_mul_of_pos_right (by omega) (by positivity)
  have mono := strictMono_nat_of_lt_succ next
  exact mono.lt_iff_lt

theorem patternMagnitude_eq_zero (p : Nat) : patternMagnitude p = 0 ↔ p = 0 := by
  constructor
  · intro h
    by_contra hp
    have := (patternMagnitude_lt_iff 0 p).2 (Nat.pos_of_ne_zero hp)
    omega
  · rintro rfl; rfl

/-- A finite magnitude is below 2^2098 units. -/
theorem patternMagnitude_lt (p : Nat) (h : p < infPattern) : patternMagnitude p < 2 ^ 2098 := by
  obtain ⟨e, m, rfl, hm, he⟩ := pattern_parts p
  rw [patternMagnitude_of_parts e m (by omega) he]
  have hi : infPattern = 2047 * 2 ^ 52 := by decide
  have he' : e ≤ 2045 := by rw [hi] at h; rcases he with h0 | h0 <;> omega
  calc m * 2 ^ e < 2 ^ 53 * 2 ^ e := Nat.mul_lt_mul_of_pos_right hm (by positivity)
    _ = 2 ^ (53 + e) := (Nat.pow_add _ _ _).symm
    _ ≤ 2 ^ 2098 := Nat.pow_le_pow_right (by norm_num) (by omega)

theorem signedUnits_bounds (neg : Bool) (m b : Nat) (h : m < b) :
    signedUnits neg m < b ∧ -(b : Int) < signedUnits neg m := by
  cases neg <;> simp only [signedUnits, if_true, if_false, Bool.false_eq_true] <;> omega

theorem signedUnits_natAbs (x : Int) : signedUnits (decide (x < 0)) x.natAbs = x := by
  by_cases h : x < 0
  · simp only [signedUnits, h, decide_true, if_true]; omega
  · simp only [signedUnits, h, decide_false, if_false, Bool.false_eq_true]; omega

theorem signedUnits_mul (a b : Bool) (m n : Nat) :
    signedUnits (a ^^ b) (m * n) = signedUnits a m * signedUnits b n := by
  cases a <;> cases b <;> simp [signedUnits]

theorem unitsOf_zero (neg : Bool) : unitsOf (packBits neg 0) = 0 := by
  unfold unitsOf
  rw [magnitudeBits_packBits _ _ (by norm_num)]
  cases signBit (packBits neg 0) <;> rfl

end Sys2Proof.Machine
end

