-- ==== Sys2Proof/Laws/PerInstr.lean ====
section
/-! SUPPORT. Facts about every command as syntax, one lemma per constructor. -/

namespace Sys2Proof.Laws

/-- The word of a command is legal and decodes to it (R83, R84). -/
def WordLegal.Statement (i : Instr) : Prop := wordLegal (encode i) = true ∧ decode (encode i) = .ok i

theorem WordLegal.noisePower : WordLegal.Statement .noisePower := ⟨rfl, rfl⟩
theorem WordLegal.ebn0 : WordLegal.Statement .ebn0 := ⟨rfl, rfl⟩
theorem WordLegal.noiseAdd : WordLegal.Statement .noiseAdd := ⟨rfl, rfl⟩
theorem WordLegal.encode : WordLegal.Statement .encode := ⟨rfl, rfl⟩
theorem WordLegal.decode : WordLegal.Statement .decode := ⟨rfl, rfl⟩
theorem WordLegal.modulate : WordLegal.Statement .modulate := ⟨rfl, rfl⟩
theorem WordLegal.demodulate : WordLegal.Statement .demodulate := ⟨rfl, rfl⟩
theorem WordLegal.snrMeasure : WordLegal.Statement .snrMeasure := ⟨rfl, rfl⟩

end Sys2Proof.Laws
end

