-- ==== Sys2Proof/Laws/Step.lean ====
section
/-! SUPPORT. One step by the kind of its event, and the flags' consistency by the update that touches
them (R25, R101, R102, R183). -/

namespace Sys2Proof.Machine

/-! ### A step by its event -/

theorem step_event (s : State) (e : Event) (rest : List Event) (h : s.agenda = e :: rest) :
    step s = performEvent e { s with agenda := rest } := by
  simp only [step, h]

theorem step_host (s : State) (t : Transaction) (rest : List Event) (h : s.agenda = .host t :: rest) :
    step s = .next (transaction t { s with agenda := rest }) := step_event s _ rest h

theorem step_reset (s : State) (rest : List Event) (h : s.agenda = .reset :: rest) :
    step s = .next (resetBlock { s with agenda := rest }) := step_event s _ rest h

theorem step_engine (s : State) (rest : List Event) (h : engineNext s rest) :
    step s = engineStep { s with agenda := rest } := by
  rcases h with h | ⟨h, rfl⟩
  · exact step_event s _ rest h
  · simp only [step, h]
    congr 1
    cases s
    simp_all

/-! ### The flags stay consistent -/

/-- The flags' consistency depends on the phase, DONE, ERR and ERRCODE only. -/
theorem flagsOk_congr {s t : State} (hp : t.phase = s.phase) (h1 : t.statusDone = s.statusDone)
    (h2 : t.statusErr = s.statusErr) (h3 : t.errcode = s.errcode) : s.flagsOk → t.flagsOk := by
  unfold State.flagsOk isBusy
  rw [hp, h1, h2, h3]
  exact id

theorem flagsError_flagsOk (e : ErrorCode) (s : State) : (flagsError e s).flagsOk := by
  refine ⟨by simp [isBusy], fun _ => rfl, ?_, ?_⟩ <;> cases e <;> simp [flagsError, errorNumber]

theorem flagsSuccess_flagsOk (s : State) : (flagsSuccess s).flagsOk := by
  refine ⟨by simp [isBusy], fun _ => rfl, ?_, ?_⟩ <;> simp

theorem acceptCommand_flagsOk (w : Word) (s : State) : (acceptCommand w s).flagsOk := by
  refine ⟨fun _ => ⟨rfl, rfl, rfl⟩, ?_, ?_, ?_⟩ <;> simp

theorem setBitStore_flagsOk (s : State) (b : BitBuf) (m : BitStore) (h : s.flagsOk) :
    (setBitStore s b m).flagsOk := by
  cases b <;> exact flagsOk_congr rfl rfl rfl rfl h

theorem setSampleStore_flagsOk (s : State) (b : SampleBuf) (m : Memory) (h : s.flagsOk) :
    (setSampleStore s b m).flagsOk := by
  cases b <;> exact flagsOk_congr rfl rfl rfl rfl h

/-- A write of a location keeps the flags consistent. -/
theorem writeLocation_flagsOk (s : State) (loc : Location) (v : Word) (h : s.flagsOk) :
    (writeLocation s loc v).flagsOk := by
  cases loc with
  | register r =>
    cases r with
    | cmd => exact acceptCommand_flagsOk v s
    | _ => exact flagsOk_congr rfl rfl rfl rfl h
  | reserved => exact h
  | bitWord b w => exact setBitStore_flagsOk s b _ h
  | sampleLo b i => exact setSampleStore_flagsOk s b _ h
  | sampleHi b i => exact setSampleStore_flagsOk s b _ h

end Sys2Proof.Machine
end

