-- ==== Sys2Proof/Tests/Slice0.lean ====
section
/-! SUPPORT. Tests: the checks of WellFormed on ill-formed words, command words written bit by bit, single
steps on the vectors of 95_test_vectors.md (their ids are in the comments), and witnesses that the
hypotheses of the statements can be met. Every expected value is the spec's. -/

namespace Sys2Proof.Machine.Tests

-- One theorem at a time: each `decide +kernel` holds a thread until the kernel is done with all before it.
set_option Elab.async false

open Sys2Proof Sys2Proof.Machine

/-! ### Small states -/

/-- The state an outcome leaves. -/
def after (o : Host.Outcome State Fault Refusal) : State :=
  match o with
  | .next t => t
  | .fault _ => State.reset
  | .refused _ => State.reset

/-- The state after a command's completion on `s`. -/
def done (i : Instr) (s : State) : State := after (exec i s)

/-- After reset, with samples in X and Y and their lengths set. -/
def withSamples (x y : List F64) : State :=
  { putSamples (putSamples State.reset .x 0 x) .y 0 y with
    lenX := BitVec.ofNat 32 x.length
    lenY := BitVec.ofNat 32 y.length }

/-- After reset, with bits in BA, their length and CTRL set. -/
def withBits (md cod : BitVec 2) (b : List Bool) : State :=
  { putBits State.reset .ba 0 b with
    ctrlMod := md
    ctrlCod := cod
    lenBa := BitVec.ofNat 32 b.length }

/-- After reset, with the length registers set to any values. -/
def withLengths (ba x y : Nat) : State :=
  { State.reset with lenBa := BitVec.ofNat 32 ba, lenX := BitVec.ofNat 32 x, lenY := BitVec.ofNat 32 y }

/-- After reset, with CTRL set. -/
def withScheme (md cod : BitVec 2) (s : State) : State := { s with ctrlMod := md, ctrlCod := cod }

/-- After reset, with the events to come. -/
def withAgenda (l : List Event) : State := { State.reset with agenda := l }

/-- A command word pending and the events to come. -/
def pendingWith (w : Word) (l : List Event) : State := { acceptCommand w State.reset with agenda := l }

/-- The bits of `BB[0..LEN_BB)`. -/
def bbBits (s : State) : List Bool := bitSeq s .bb s.lenBb.toNat

/-- The entries of `X[0..LEN_X)`. -/
def xEntries (s : State) : List F64 := sampleSeq s .x s.lenX.toNat

/-! ### WellFormed refuses ill-formed words and addresses (R61, R84) -/

theorem test_rsvd_bit8_refused : wordLegal 0x00000106 = false := by decide
theorem test_rsvd_bit31_refused : wordLegal 0x80000001 = false := by decide
theorem test_opcode_zero_refused : wordLegal 0x00000000 = false := by decide
theorem test_opcode_nine_refused : wordLegal 0x00000009 = false := by decide
theorem test_opcode_eight_legal : wordLegal 0x00000008 = true := by decide
theorem test_misaligned_refused :
    addrAligned 0x000001 = false ∧ addrAligned 0x000002 = false ∧ addrAligned 0x7FFFFF = false := by decide

/-! ### Words written bit by bit from R80 and R83 -/

theorem test_decode_noise_power :
    decode 0b00000000000000000000000000000001 = .ok .noisePower := by decide
theorem test_decode_ebn0 : decode 0b00000000000000000000000000000010 = .ok .ebn0 := by decide
theorem test_decode_noise_add : decode 0b00000000000000000000000000000011 = .ok .noiseAdd := by decide
theorem test_decode_encode : decode 0b00000000000000000000000000000100 = .ok .encode := by decide
theorem test_decode_decode : decode 0b00000000000000000000000000000101 = .ok .decode := by decide
theorem test_decode_modulate : decode 0b00000000000000000000000000000110 = .ok .modulate := by decide
theorem test_decode_demodulate : decode 0b00000000000000000000000000000111 = .ok .demodulate := by decide
theorem test_decode_snr_measure : decode 0b00000000000000000000000000001000 = .ok .snrMeasure := by decide
theorem test_decode_rejects_by_name :
    decode 0x00000000 = .error .opcodeZero ∧ decode 0x000000FF = .error .opcodeUnassigned ∧
      decode 0x00000106 = .error .reservedBitsSet := by decide
theorem test_decode_table_word :
    decodeTableWord 32 6 = some .modulate ∧ decodeTableWord 32 0x106 = none ∧
      decodeTableWord 8 8 = some .snrMeasure := by decide +kernel

/-! ### The step fetches and runs the pending word -/

/-- 2.9: a MODULATE with LEN_BA = 0 right after reset succeeds with LEN_X = 0. -/
theorem test_fetch_modulate : step (State.reset.withFetchWord 32 6) = exec .modulate (pendingWith 6 []) := rfl
/-- 2.9: a NOISE_POWER right after reset fails with EMPTY_INPUT. -/
theorem test_fetch_noise_power :
    (after (step (State.reset.withFetchWord 32 1))).errcode = 5 ∧
      statusWord (after (step (State.reset.withFetchWord 32 1))) = 0x00000006 := by decide +kernel

/-! ### The bus (2.1, 2.2) -/

/-- B1, B3, B5, B6, B7. -/
theorem test_bus_reads :
    (after (step (withAgenda [rdAt 0x24]))).response = .data 0x00040000 ∧
      (after (step (withAgenda [rdAt 0x60]))).response = .data 0 ∧
      (after (step (withAgenda [rdAt 0x2]))).response = .busErr ∧
      (after (step (withAgenda [rdAt 0x100]))).response = .busErr ∧
      (after (step (withAgenda [rdAt 0x108000]))).response = .busErr := by decide +kernel
/-- B9: the first bit of a stream is bit 0 of the first word. -/
theorem test_bus_bit_order :
    bitSeq (after (step (withAgenda [wrAt 0x100000 0x0000000D]))) .ba 6 =
      [true, false, true, true, false, false] := by decide +kernel
/-- B10 to B12: the halves of an entry. -/
theorem test_bus_halves :
    sampleAt (transaction (.write 0x400004 0xBFF00000) (transaction (.write 0x400000 0) State.reset)) .x 0 =
        0xBFF0000000000000 ∧
      sampleAt (transaction (.write 0x400000 1)
        (transaction (.write 0x400004 0xBFF00000) (transaction (.write 0x400000 0) State.reset))) .x 0 =
        0xBFF0000000000001 := by decide +kernel
/-- B14: CTRL stores reserved values, its upper bits read zero. -/
theorem test_bus_ctrl : ctrlWord (after (step (withAgenda [wr .ctrl 0xFFFFFFFF]))) = 0x0000000F := by
  decide +kernel
/-- LC3: a write while a command is pending sets WERR and nothing else. -/
theorem test_write_while_busy :
    statusWord (after (step (pendingWith 1 [wr .lenBa 7]))) = 0x00000009 ∧
      (after (step (pendingWith 1 [wr .lenBa 7]))).lenBa = 0 := by decide +kernel
/-- E2, E5: illegal words complete with code 1. -/
theorem test_illegal_word :
    (after (step (pendingWith 0 [.engine]))).errcode = 1 ∧
      statusWord (after (step (pendingWith 0x00000106 []))) = 0x00000006 := by decide +kernel

/-! ### ENCODE -/

/-- EN1. -/
theorem test_encode_convolutional :
    bbBits (done .encode (withBits 0 1 [true, false, true, true])) =
      [true, true, true, false, false, false, false, true] := by decide +kernel
/-- EN9 and X4: check 6, and the reserved scheme. -/
theorem test_encode_errors :
    (done .encode (withScheme 0 1 (withLengths 131073 0 0))).errcode = 3 ∧
      (done .encode (withScheme 0 2 (withLengths 300000 0 0))).errcode = 2 := by decide +kernel

/-! ### DECODE -/

/-- DC1; 0.9, -0.2, -1.0, -3.0, 0.0. -/
theorem test_decode_pairs :
    bbBits (done .decode (withScheme 0 1 (withSamples []
      [0x3FECCCCCCCCCCCCD, 0xBFC999999999999A, 0xBFF0000000000000, 0xC008000000000000, 0]))) =
      [true, false] := by decide +kernel
/-- DC2: without coding each value is its hard decision; a NaN and -0.0 decide to 0. -/
theorem test_decode_uncoded :
    bbBits (done .decode (withSamples []
      [0x3FECCCCCCCCCCCCD, 0xBFC999999999999A, 0, 0x8000000000000000, 0x7FF8000000000000])) =
      [true, false, false, false, false] := by decide +kernel

/-! ### MODULATE -/

/-- M2: QPSK, the trailing bit dropped. -/
theorem test_modulate_qpsk :
    xEntries (done .modulate (withBits 1 0 [true, false, false, true, true])) =
      [0x3FE6A09E667F3BCD, 0xBFE6A09E667F3BCD, 0xBFE6A09E667F3BCD, 0x3FE6A09E667F3BCD] := by decide +kernel
/-- M5: 16-QAM, the incomplete group dropped. -/
theorem test_modulate_qam16 :
    xEntries (done .modulate (withBits 2 0 [true, true, true, false, false, true])) =
      [0x3FD43D136248490F, 0x3FEE5B9D136C6D96, 0x3FD43D136248490F, 0x3FEE5B9D136C6D96] := by decide +kernel

/-! ### DEMODULATE -/

/-- DM4: 16-QAM; 0.9, -0.1, -5.0, 5.0, 0.5, 0.65, 0.0, 0.0, 1.0. -/
theorem test_demodulate_qam16 :
    bbBits (done .demodulate (withScheme 2 0 (withSamples []
      [0x3FECCCCCCCCCCCCD, 0xBFB999999999999A, 0xC014000000000000, 0x4014000000000000, 0x3FE0000000000000,
        0x3FE4CCCCCCCCCCCD, 0, 0, 0x3FF0000000000000]))) =
      [true, false, false, true, true, true, true, false] := by decide +kernel
/-- SL5, SL6, SL8, SL18: the slicer at its thresholds and on a NaN. -/
theorem test_slicer_boundary :
    sliceLow 0x3FE43D136248490F = true ∧ sliceLow 0x3FE43D1362484910 = false ∧
      sliceLow 0xBFE43D136248490F = true ∧ sliceLow 0x7FF8000000000000 = true ∧
      hard 0x7FF8000000000000 = false := by decide +kernel

/-! ### NOISE_POWER, EBN0, NOISE_ADD and SNR_MEASURE, under the properties of R113 the vectors name -/

/-- X of NP1, EB1 and SN1 with SNR_DB = 20.0, BITRATE = 1.0, BANDWIDTH = 10.0, and Y of SN1. -/
def powerState : State :=
  { withSamples [0x4024000000000000, 0xC024000000000000, 0x4024000000000000, 0xC024000000000000]
      [0x4026000000000000, 0xC026000000000000, 0x4022000000000000, 0xC022000000000000] with
    snrDb := 0x4034000000000000
    bitrate := 0x3FF0000000000000
    bandwidth := 0x4024000000000000 }

theorem powerState_meansq : meansq (sampleSeq powerState .x powerState.lenX.toNat) = 0x4059000000000000 := by
  decide +kernel

theorem powerState_target (h : PropPow10) :
    targetNoisePower (meansq (sampleSeq powerState .x powerState.lenX.toNat)) powerState.snrDb =
      0x3FF0000000000000 := by
  have hq : fdiv powerState.snrDb ften = f64 2 := by decide +kernel
  rw [powerState_meansq, targetNoisePower, hq, h 2 (by norm_num)]
  decide +kernel

/-- NP1. -/
theorem test_noise_power (h : PropPow10) :
    ∃ t, exec .noisePower powerState = .next t ∧ t.sigpwr = 0x4059000000000000 ∧
      t.noisepwr = 0x3FF0000000000000 := by
  refine ⟨_, execNoisePower_success powerState (by decide +kernel) (by decide +kernel), ?_, ?_⟩
  · rw [flagsSuccess_sigpwr, setPowers_sigpwr, powerState_meansq]
  · rw [flagsSuccess_noisepwr, setPowers_noisepwr, powerState_target h]

/-- NP6, NP7. -/
theorem test_noise_power_errors :
    (done .noisePower (withLengths 0 0 0)).errcode = 5 ∧
      (done .noisePower (withLengths 0 262145 0)).errcode = 3 := by decide +kernel

/-- EB1. -/
theorem test_ebn0 (h : PropPow10) (hl : PropLog10) :
    ∃ t, exec .ebn0 powerState = .next t ∧ t.ebn0 = 0x403E000000000000 := by
  have hr : fdiv (fdiv 0x4059000000000000 powerState.bitrate)
      (fdiv 0x3FF0000000000000 powerState.bandwidth) = 0x408F400000000000 := by decide +kernel
  have hk : f64 (10 ^ 3) = 0x408F400000000000 := by decide +kernel
  have h3 : fmul ften (f64 3) = 0x403E000000000000 := by decide +kernel
  have he : ebn0Db 0x4059000000000000 0x3FF0000000000000 powerState.bitrate powerState.bandwidth =
      0x403E000000000000 := by
    rw [ebn0Db, db, hr, ← hk, hl 3 (by norm_num), h3]
  refine ⟨_, execEbn0_success powerState (by decide +kernel) (by decide +kernel), ?_⟩
  rw [flagsSuccess_ebn0]
  show ebn0Db _ (targetNoisePower _ powerState.snrDb) powerState.bitrate powerState.bandwidth = _
  rw [powerState_target h, powerState_meansq, he]

/-- X10. -/
theorem test_ebn0_empty : (done .ebn0 (withLengths 0 0 0)).errcode = 5 := by decide +kernel

/-- X of N1. -/
def noiseState : State := withSamples [0x3FF0000000000000, 0x3FF0000000000000] []

/-- N1, with the generator of 2.5. -/
theorem test_noise_add (h : PropPow10) (h1 : PropLnHalf) (h2 : PropLnQuarter) (h3 : PropCos0)
    (h4 : PropCosPi) (u0 : Config.uniform 0 0 = 0x3FE0000000000000) (u1 : Config.uniform 0 1 = fzero)
    (u2 : Config.uniform 0 2 = 0x3FD0000000000000) (u3 : Config.uniform 0 3 = 0x3FE0000000000000) :
    ∃ t, exec .noiseAdd noiseState = .next t ∧ t.lenY = 2 ∧
      sampleSeq t .y 2 = [0x40016B55F2257E22, 0xBFE5489322C39A8E] := by
  have hps : meansq (sampleSeq noiseState .x noiseState.lenX.toNat) = fone := by decide +kernel
  have hq : fdiv noiseState.snrDb ften = f64 0 := by decide +kernel
  have hone : f64 (10 ^ 0) = fone := by decide +kernel
  have hsd : fsqrt (targetNoisePower fone noiseState.snrDb) = fone := by
    rw [targetNoisePower, hq, h 0 (by norm_num), hone]; decide +kernel
  have hz0 : noiseSample 0 0 = 0x3FF2D6ABE44AFC43 := by
    have a : fmul twoPi fzero = fzero := by decide +kernel
    rw [noiseSample, u0, u1, gauss, h1, a, h3]; decide +kernel
  have hz1 : noiseSample 0 1 = 0xBFFAA4499161CD47 := by
    have a : fmul twoPi 0x3FE0000000000000 = 0x400921FB54442D18 := by decide +kernel
    rw [noiseSample, u2, u3, gauss, h2, a, h4]; decide +kernel
  refine ⟨_, execNoiseAdd_success noiseState (by decide +kernel) (by decide +kernel), ?_, ?_⟩
  · show BitVec.ofNat 32 (noisySeq noiseState).length = 2
    simp only [noisySeq, List.length_map, List.length_range]
    decide +kernel
  · have e : noisySeq noiseState = [0x40016B55F2257E22, 0xBFE5489322C39A8E] := by
      have hr : List.range noiseState.lenX.toNat = [0, 1] := by decide +kernel
      have hseed : noiseState.seed = 0 := rfl
      unfold noisySeq
      rw [hps, hsd, hr]
      simp only [List.map_cons, List.map_nil, noisySample, hseed]
      rw [hz0, hz1]
      decide +kernel
    rw [e]
    have k : ∀ p q : F64, sampleSeq (flagsSuccess (setPowers (outputY noiseState
        [0x40016B55F2257E22, 0xBFE5489322C39A8E]) p q)) .y 2 =
        sampleSeq (outputY noiseState [0x40016B55F2257E22, 0xBFE5489322C39A8E]) .y 2 := fun _ _ => rfl
    rw [k]
    decide +kernel

/-- N6, N7: an empty input is no error, an input above DEPTH is. -/
theorem test_noise_add_lengths :
    (done .noiseAdd (withLengths 0 0 7)).lenY = 0 ∧ (done .noiseAdd (withLengths 0 0 7)).statusErr = false ∧
      (done .noiseAdd (withLengths 0 262145 7)).errcode = 3 ∧
      (done .noiseAdd (withLengths 0 262145 7)).lenY = 7 := by decide +kernel

/-- SN2: equal waveforms measure +∞. -/
theorem test_snr_measure_infinite :
    (done .snrMeasure (withSamples [0x3FF0000000000000, 0x4000000000000000]
      [0x3FF0000000000000, 0x4000000000000000])).measSnr = 0x7FF0000000000000 := by decide +kernel

/-- SN10 to SN13: the order of the checks. -/
theorem test_snr_measure_errors :
    (done .snrMeasure (withLengths 0 4 3)).errcode = 4 ∧ (done .snrMeasure (withLengths 0 0 0)).errcode = 5 ∧
      (done .snrMeasure (withLengths 0 0 1)).errcode = 4 ∧
      (done .snrMeasure (withLengths 0 262145 3)).errcode = 3 := by decide +kernel

/-! ### Witnesses: states and operands that meet the hypotheses of each statement, at the ends of their
ranges. Each is named for its statement. -/

theorem witness_DecodeTotal :
    [(1 : Word), 8].all (fun w => w.toNat / 256 = 0 ∧ 1 ≤ w.toNat % 256 ∧ w.toNat % 256 ≤ 8) = true ∧
      [(0 : Word), 9, 255, 0x101, 0x80000001].all
        (fun w => ¬(w.toNat / 256 = 0 ∧ 1 ≤ w.toNat % 256 ∧ w.toNat % 256 ≤ 8)) = true := by decide +kernel

theorem witness_StepRunsDecodedCommand :
    (pendingWith 6 [.engine, .reset]).phase = .pending 6 ∧ decode 6 = .ok .modulate ∧
      Instr.modulate.wellFormed = true ∧ engineNext (pendingWith 6 [.engine, .reset]) [.reset] ∧
      engineNext (pendingWith 6 []) [] := by decide

theorem witness_IllegalWordCompletesWithError :
    ¬((9 : Word).toNat / 256 = 0 ∧ 1 ≤ (9 : Word).toNat % 256 ∧ (9 : Word).toNat % 256 ≤ 8) ∧
      (withAgenda [.host (.write 4 9)]).phase = .idle ∧
      (withAgenda [.host (.write 4 9)]).agenda = [.host (.write 4 9)] ∧
      (pendingWith 9 []).phase = .pending 9 ∧ engineNext (pendingWith 9 []) [] := by decide

theorem witness_CommandWriteIsAccepted :
    (withAgenda [.host (.write 4 0xFFFFFFFF)]).phase = .idle ∧
      (withAgenda [.host (.write 4 0xFFFFFFFF)]).agenda = .host (.write 4 0xFFFFFFFF) :: [] := by decide

theorem witness_WriteWhileBusyIsDropped :
    (pendingWith 6 [.host (.write 0x7FFFFC 1)]).phase = .pending 6 ∧ (0x7FFFFC : Addr).toNat % 4 = 0 ∧
      addrMapped (0x7FFFFC : Addr).toNat ∧ addrMapped (4 : Addr).toNat ∧
      (pendingWith 6 [.host (.write 0x7FFFFC 1)]).agenda = .host (.write 0x7FFFFC 1) :: [] := by decide

theorem witness_BadAddressAnswersBusErr :
    (withAgenda [.host (.read 2)]).agenda = .host (.read 2) :: [] ∧
      [(1 : Addr), 2, 3, 0x7FFFFF].all (fun a => (transactionAddr (.read a)).toNat % 4 ≠ 0) = true ∧
      [(0x100 : Addr), 0x0FFFFC, 0x108000, 0x1FFFFC, 0x208000, 0x3FFFFC].all
        (fun a => ¬addrMapped (transactionAddr (.write a 0)).toNat) = true := by decide +kernel

theorem witness_MappedAccessIsAnswered :
    [(0 : Addr), 0xFC, 0x100000, 0x107FFC, 0x200000, 0x207FFC, 0x400000, 0x5FFFFC, 0x600000, 0x7FFFFC].all
        (fun a => a.toNat % 4 = 0 ∧ addrMapped a.toNat) = true ∧
      (withAgenda [.host (.write 0xFC 1)]).agenda = .host (.write 0xFC 1) :: [] ∧
      (withAgenda [.host (.read 0xFC)]).agenda = .host (.read 0xFC) :: [] := by decide +kernel

theorem witness_ReadHasNoSideEffect : (withAgenda [rd .status]).agenda = .host (.read 8) :: [] := by decide

theorem witness_ReadsWhileBusy :
    (pendingWith 6 [.host (.read 0x400000)]).flagsOk ∧
      (pendingWith 6 [.host (.read 0x400000)]).phase = .pending 6 ∧
      (locate 0x400000 = some (.sampleLo .x 0) ∧
        inPendingSet (pendingWith 6 [.host (.read 0x400000)]) (.sampleLo .x 0) = true) ∧
      (locate 0x600000 = some (.sampleLo .y 0) ∧
        inPendingSet (pendingWith 6 [.host (.read 0x600000)]) (.sampleLo .y 0) = false) ∧
      locate 0 = some (.register .ctrl) := by decide +kernel

theorem witness_WriteSetCoversEveryChange :
    (pendingWith 6 []).phase = .pending 6 ∧ engineNext (pendingWith 6 []) [] ∧
      step (pendingWith 6 []) = .next (after (step (pendingWith 6 []))) ∧
      inPendingSet (pendingWith 6 []) (.sampleLo .y 0) = false ∧
      inPendingSet (pendingWith 9 []) (.sampleLo .x 0) = false :=
  ⟨rfl, .inr ⟨rfl, rfl⟩, rfl, rfl, rfl⟩

/-- The table's clauses: a command's word, and words that are no command's. -/
theorem witness_WriteSetCoversEveryChange_table :
    (pendingWith 6 []).phase = .pending (encode .modulate) ∧ (pendingWith 9 []).phase = .pending 9 ∧
      (∀ i, (9 : Word) ≠ encode i) ∧ ∀ i, (0 : Word) ≠ encode i :=
  ⟨rfl, rfl, fun i => by cases i <;> decide, fun i => by cases i <;> decide⟩

theorem witness_PendingEndsByCompletionOrReset :
    (pendingWith 6 [rd .status]).phase = .pending 6 ∧
      step (pendingWith 6 [rd .status]) = .next (after (step (pendingWith 6 [rd .status]))) ∧
      step (pendingWith 6 [.reset]) = .next (after (step (pendingWith 6 [.reset]))) := ⟨rfl, rfl, rfl⟩

theorem witness_RegistersReadTheirFields : State.reset.phase = .idle := rfl

theorem witness_RegisterWriteReadsBack :
    State.reset.phase = .idle ∧ Reg.ctrl ≠ .cmd ∧ Reg.status ≠ .cmd ∧ Reg.snrDbHi ≠ .cmd := by decide

theorem witness_ReservedOffsetsReadZero :
    [(0x60 : Addr), 0xFC].all (fun a => a.toNat % 4 = 0 ∧ 0x60 ≤ a.toNat ∧ a.toNat ≤ 0xFC) = true ∧
      State.reset.phase = .idle ∧ (pendingWith 6 []).phase = .pending 6 := by decide +kernel

theorem witness_BitWindowLayout : State.reset.phase = .idle ∧ 0 < Config.depth / 32 ∧ 8191 < Config.depth / 32 := by
  decide

theorem witness_SampleWindowLayout : State.reset.phase = .idle ∧ 0 < Config.depth ∧ 262143 < Config.depth := by
  decide

theorem witness_ResetEventAbandonsAndClears : (pendingWith 6 [.reset]).agenda = .reset :: [] := rfl

theorem witness_StepKeepsInvariant :
    (pendingWith 6 [.engine]).Inv ∧ step (pendingWith 6 [.engine]) = .next (after (step (pendingWith 6 [.engine]))) :=
  ⟨by decide, rfl⟩

theorem witness_CanonicalMemoryIsUnique :
    Store.wf 4 8 [((4 : Nat), (1 : Byte)), (7, 2)] ∧
      ∀ a, storeGet [((4 : Nat), (1 : Byte)), (7, 2)] a = storeGet [((4 : Nat), (1 : Byte)), (7, 2)] a :=
  ⟨by decide, fun _ => rfl⟩

/-- The clauses of NOISE_POWER, EBN0 and NOISE_ADD on LEN_X, at 0, 1, DEPTH and DEPTH + 1. -/
theorem witness_NoisePowerRule_Ebn0Rule_NoiseAddRule :
    Config.depth < (withLengths 0 262145 0).lenX.toNat ∧ (withLengths 0 0 0).lenX.toNat = 0 ∧
      (0 < (withLengths 0 1 0).lenX.toNat ∧ (withLengths 0 1 0).lenX.toNat ≤ Config.depth) ∧
      (0 < (withLengths 0 262144 0).lenX.toNat ∧ (withLengths 0 262144 0).lenX.toNat ≤ Config.depth) := by
  decide

theorem witness_MeanSquareOrder :
    ([fone, ften] : List F64).length = [fone, fnegOne].length ∧ 0 ≤ 2 ^ 53 ∧ Config.depth ≤ 2 ^ 53 := by decide

theorem witness_SameSeedSameNoise :
    { noiseState with lenY := 5 }.seed = noiseState.seed ∧ { noiseState with lenY := 5 }.snrDb = noiseState.snrDb ∧
      { noiseState with lenY := 5 }.lenX = noiseState.lenX ∧ 0 < noiseState.lenX.toNat ∧
      noiseState.lenX.toNat ≤ Config.depth ∧
      ∀ i, i < noiseState.lenX.toNat → sampleAt { noiseState with lenY := 5 } .x i = sampleAt noiseState .x i :=
  ⟨rfl, rfl, rfl, by decide +kernel, by decide +kernel, fun _ _ => rfl⟩

/-- The clauses of ENCODE and MODULATE: each reserved field, and the coded length at 0, DEPTH and above. -/
theorem witness_EncodeRule_ModulateRule :
    (withScheme 3 0 State.reset).ctrlMod.toNat = 3 ∧ 2 ≤ (withScheme 0 2 State.reset).ctrlCod.toNat ∧
      (modulationOf 0 = some .bpsk ∧ modulationOf 1 = some .qpsk ∧ modulationOf 2 = some .qam16) ∧
      (codingOf 0 = some .none ∧ codingOf 1 = some .convolutional) ∧
      Config.depth < codedPerBit .convolutional * (withLengths 131073 0 0).lenBa.toNat ∧
      Config.depth < codedPerBit .none * (withLengths 262145 0 0).lenBa.toNat ∧
      codedPerBit .convolutional * (withLengths 131072 0 0).lenBa.toNat ≤ Config.depth ∧
      codedPerBit .none * (withLengths 0 0 0).lenBa.toNat ≤ Config.depth := by decide

/-- The clauses of DECODE and DEMODULATE: each reserved field, and LEN_Y at 0, DEPTH and DEPTH + 1. -/
theorem witness_DecodeRule_DemodulateRule :
    (withScheme 3 0 State.reset).ctrlMod.toNat = 3 ∧ 2 ≤ (withScheme 0 3 State.reset).ctrlCod.toNat ∧
      (modulationOf State.reset.ctrlMod = some .bpsk ∧ codingOf State.reset.ctrlCod = some .none) ∧
      Config.depth < (withLengths 0 0 262145).lenY.toNat ∧ (withLengths 0 0 262144).lenY.toNat ≤ Config.depth ∧
      (withLengths 0 0 0).lenY.toNat ≤ Config.depth := by decide

/-- After MODULATE of `s`, the host's copy of X into Y. -/
def copied (s : State) : State :=
  { putSamples (done .modulate s) .y 0 (xEntries (done .modulate s)) with lenY := (done .modulate s).lenX }

/-- RT2 without coding and RT7 with it. -/
theorem witness_NoiselessRoundTrip :
    (modulationOf (withBits 1 0 [true, false, true]).ctrlMod = some .qpsk ∧
      codingOf (withBits 1 0 [true, false, true]).ctrlCod = some .none ∧
      codedPerBit .none * (withBits 1 0 [true, false, true]).lenBa.toNat ≤ Config.depth ∧
      exec .modulate (withBits 1 0 [true, false, true]) = .next (done .modulate (withBits 1 0 [true, false, true])) ∧
      (copied (withBits 1 0 [true, false, true])).lenY = (done .modulate (withBits 1 0 [true, false, true])).lenX) ∧
      (∀ i, i < (done .modulate (withBits 1 0 [true, false, true])).lenX.toNat →
        sampleAt (copied (withBits 1 0 [true, false, true])) .y i =
          sampleAt (done .modulate (withBits 1 0 [true, false, true])) .x i) ∧
      bbBits (done .demodulate (copied (withBits 2 1 [true, false, true, true, false]))) =
        [false, true, false, true] := by
  refine ⟨⟨by decide, by decide, by decide, rfl, rfl⟩, ?_, by decide +kernel⟩
  have hl : (done .modulate (withBits 1 0 [true, false, true])).lenX.toNat = 2 := by decide +kernel
  rw [hl]
  decide +kernel

theorem witness_SlicerOfEveryValue :
    isNaN 0x7FF8000000000000 = true ∧ isNaN tQam = false ∧ isNaN 0x8000000000000000 = false ∧
      isNaN fposInf = false := by decide +kernel

/-- The clauses of SNR_MEASURE. -/
theorem witness_SnrMeasureRule :
    Config.depth < (withLengths 0 262145 3).lenX.toNat ∧ Config.depth < (withLengths 0 3 262145).lenY.toNat ∧
      (withLengths 0 4 3).lenX ≠ (withLengths 0 4 3).lenY ∧
      ((withLengths 0 0 0).lenX = (withLengths 0 0 0).lenY ∧ (withLengths 0 0 0).lenX.toNat = 0) ∧
      ((withLengths 0 262144 262144).lenX = (withLengths 0 262144 262144).lenY ∧
        0 < (withLengths 0 262144 262144).lenX.toNat ∧
        (withLengths 0 262144 262144).lenX.toNat ≤ Config.depth) := by decide

theorem witness_FirstFailingCheckIsReported :
    (pendingWith 0 []).phase = .pending 0 ∧ decode 0 = .error .opcodeZero := by decide

theorem witness_ErrorLeavesNoPartialResult :
    exec .encode (withLengths 262145 0 0) = .next (done .encode (withLengths 262145 0 0)) ∧
      (done .encode (withLengths 262145 0 0)).statusErr = true := ⟨rfl, by decide +kernel⟩

theorem witness_ReservedSchemeReachesOnlyChannelModel :
    (withScheme 3 3 State.reset).ctrlMod.toNat = 3 ∧
      exec .noiseAdd State.reset = .next (done .noiseAdd State.reset) := ⟨by decide, rfl⟩

/-- Finite operands with finite results, with overflowing results, and with zero sums and differences. -/
theorem witness_Sum_Product_Quotient_IsRoundedToNearest :
    (isFinite fone = true ∧ isFinite 0x7FEFFFFFFFFFFFFF = true ∧ isFinite 0x0000000000000001 = true) ∧
      isFinite (fadd 0x7FEFFFFFFFFFFFFF 0x0000000000000001) = true ∧
      (isFinite (fadd 0x7FEFFFFFFFFFFFFF 0x7FEFFFFFFFFFFFFF) = false ∧
        isFinite (fmul 0x7FEFFFFFFFFFFFFF ften) = false ∧
        isFinite (fdiv 0x7FEFFFFFFFFFFFFF 0x0000000000000001) = false) ∧
      isFinite (fmul 0x0000000000000001 0x0000000000000001) = true ∧ unitsOf 0x0000000000000001 ≠ 0 ∧
      isFinite (fdiv 0x0000000000000001 0x7FEFFFFFFFFFFFFF) = true ∧
      (unitsOf fone + unitsOf fnegOne = 0 ∧ unitsOf (zeroOf true) + unitsOf (zeroOf true) = 0 ∧
        unitsOf (zeroOf false) - unitsOf (zeroOf true) = 0) := by decide +kernel

theorem witness_RootIsRoundedToNearest :
    isFinite 0x7FEFFFFFFFFFFFFF = true ∧ 0 < unitsOf 0x7FEFFFFFFFFFFFFF ∧ 0 < unitsOf 0x0000000000000001 ∧
      isFinite fone = true ∧ 0 ≤ unitsOf fone := by decide +kernel

theorem witness_InvalidOperationsGiveNaN :
    isNaN 0x7FF0000000000001 = true ∧ (signBit fnegOne = true ∧ magnitudeBits fnegOne ≠ 0) ∧
      magnitudeBits fposInf = infPattern ∧
      (magnitudeBits (fneg fposInf) = infPattern ∧ signBit fposInf ≠ signBit (fneg fposInf)) ∧
      (magnitudeBits (zeroOf true) = 0 ∧ magnitudeBits (zeroOf false) = 0) := by decide +kernel

theorem witness_ValidOperationsOnInfinities :
    (isFinite (zeroOf true) = true ∧ isFinite fone = true) ∧
      (isNaN fone = false ∧ magnitudeBits fone ≠ 0) ∧
      isNaN (infinityOf true) = false ∧ magnitudeBits (infinityOf true) ≠ 0 := by decide +kernel

theorem witness_RoundingOverflowsToInfinity :
    0 < 1 ∧ 2 * 1 < (2 ^ 54 - 1) * 2 ^ 2045 * 1 ∧ isFinite (roundRatio true ((2 ^ 54 - 1) * 2 ^ 2044) 1) = false := by
  decide +kernel

theorem witness_ComparisonsFollowTheValues :
    isFinite fone = true ∧ isFinite 0x8000000000000000 = true ∧ isNaN 0x7FF8000000000000 = true := by
  decide +kernel

end Sys2Proof.Machine.Tests
end

section
/-! PROOFS. Binary64 arithmetic (R11, R109; IEEE 754 by log 12): what each operation is on operands of each
class, and the statements on rounding, comparison, infinities and negation. -/

namespace Sys2Proof.Machine

/-! ### Signed units -/

@[simp] theorem natAbs_signedUnits (neg : Bool) (m : Nat) : (signedUnits neg m).natAbs = m := by
  cases neg <;> simp [signedUnits]

theorem sign_eq_signedUnits_neg (neg : Bool) (m : Nat) (h : signedUnits neg m ≠ 0) :
    neg = decide (signedUnits neg m < 0) := by
  cases neg
  · simp [signedUnits]
  · simp [signedUnits] at h ⊢
    omega

theorem signedUnits_not (neg : Bool) (m : Nat) : signedUnits (!neg) m = -signedUnits neg m := by
  cases neg <;> simp [signedUnits]

theorem sign_signedUnits (neg : Bool) (m : Nat) (h : signedUnits neg m ≠ 0) :
    (signedUnits neg m).sign = signedUnits neg 1 := by
  cases neg <;> simp [signedUnits] at h ⊢ <;> exact Nat.pos_of_ne_zero h

theorem signedUnits_mul_natCast (neg : Bool) (m k : Nat) : signedUnits neg m * (k : Int) = signedUnits neg (m * k) := by
  cases neg <;> simp [signedUnits]

@[simp] theorem natAbs_unitsOf (a : F64) : (unitsOf a).natAbs = patternMagnitude (magnitudeBits a) :=
  natAbs_signedUnits _ _

theorem unitsOf_of_nonneg (a : F64) (h : 0 ≤ unitsOf a) :
    unitsOf a = patternMagnitude (magnitudeBits a) := by
  have := natAbs_unitsOf a
  omega

theorem signBit_of_pos (a : F64) (h : 0 < unitsOf a) : signBit a = false := by
  unfold unitsOf signedUnits at h
  split at h
  · omega
  · next hs => simpa using hs

theorem isFinite_iff (a : F64) : isFinite a = true ↔ magnitudeBits a < infPattern := decide_eq_true_iff

/-! ### Zeros, infinities and negation -/

theorem packBits_zero (neg : Bool) : packBits neg 0 = zeroOf neg := by cases neg <;> rfl

theorem packBits_infPattern (neg : Bool) : packBits neg infPattern = infinityOf neg := by cases neg <;> rfl

@[simp] theorem unpack_infinityOf (neg : Bool) : unpack (infinityOf neg) = .inf neg := by
  rw [← packBits_infPattern, unpack_of_infinite _ (magnitudeBits_packBits _ _ infPattern_lt),
    signBit_packBits _ _ infPattern_lt]

@[simp] theorem unpack_zeroOf (neg : Bool) : unpack (zeroOf neg) = .fin neg 0 := by
  rw [← packBits_zero, unpack_of_zero _ (magnitudeBits_packBits _ _ (by norm_num)),
    signBit_packBits _ _ (by norm_num)]

@[simp] theorem fneg_infinityOf (neg : Bool) : fneg (infinityOf neg) = infinityOf (!neg) := by
  cases neg <;> rfl

@[simp] theorem signBit_fneg (a : F64) : signBit (fneg a) = !signBit a := (fneg_parts a).2

@[simp] theorem magnitudeBits_fneg (a : F64) : magnitudeBits (fneg a) = magnitudeBits a := (fneg_parts a).1

@[simp] theorem isFinite_fneg (a : F64) : isFinite (fneg a) = isFinite a := by
  simp [isFinite]

@[simp] theorem unitsOf_fneg (a : F64) : unitsOf (fneg a) = -unitsOf a := by
  simp [unitsOf, signedUnits_not]

/-- Settles O51: `fneg_parts` in the statement's order. -/
theorem negationFlipsTheSign : Obligations.NegationFlipsTheSign :=
  fun a => ⟨signBit_fneg a, magnitudeBits_fneg a⟩

/-! ### The operations by the classes of their operands -/

section Classes

variable {a b c : F64}

theorem addWith_of_finite (op : FloatOp) (ha : isFinite a = true) (hc : isFinite c = true) :
    addWith op a b c =
      addFinite (signBit a) (patternMagnitude (magnitudeBits a)) (signBit c) (patternMagnitude (magnitudeBits c)) := by
  simp only [addWith, unpack_of_finite _ ha, unpack_of_finite _ hc]

theorem addWith_infinity_left (op : FloatOp) (m : Bool) (hc : isFinite c = true) :
    addWith op (infinityOf m) b c = infinityOf m := by
  simp only [addWith, unpack_infinityOf, unpack_of_finite _ hc, packBits_infPattern]

theorem addWith_infinity_right (op : FloatOp) (m : Bool) (ha : isFinite a = true) :
    addWith op a b (infinityOf m) = infinityOf m := by
  simp only [addWith, unpack_infinityOf, unpack_of_finite _ ha, packBits_infPattern]

theorem addWith_infinity_same (op : FloatOp) (m : Bool) :
    addWith op (infinityOf m) b (infinityOf m) = infinityOf m := by
  simp only [addWith, unpack_infinityOf, if_true, packBits_infPattern]

theorem fmul_of_finite (ha : isFinite a = true) (hb : isFinite b = true) :
    fmul a b = roundRatio (signBit a ^^ signBit b)
      (patternMagnitude (magnitudeBits a) * patternMagnitude (magnitudeBits b)) (2 ^ 1074) := by
  simp only [fmul, unpack_of_finite _ ha, unpack_of_finite _ hb]

theorem fdiv_of_finite (ha : isFinite a = true) (hb : isFinite b = true) (h : magnitudeBits b ≠ 0) :
    fdiv a b = roundRatio (signBit a ^^ signBit b)
      (patternMagnitude (magnitudeBits a) * 2 ^ 1074) (patternMagnitude (magnitudeBits b)) := by
  have hm : patternMagnitude (magnitudeBits b) ≠ 0 := mt (patternMagnitude_eq_zero _).1 h
  simp only [fdiv, unpack_of_finite _ ha, unpack_of_finite _ hb, if_neg hm]

theorem fdiv_zeroOf (m : Bool) (ha : isFinite a = true) (h : magnitudeBits a ≠ 0) :
    fdiv a (zeroOf m) = infinityOf (signBit a ^^ m) := by
  have hm : patternMagnitude (magnitudeBits a) ≠ 0 := mt (patternMagnitude_eq_zero _).1 h
  simp only [fdiv, unpack_zeroOf, unpack_of_finite _ ha, if_true, if_neg hm, packBits_infPattern]

theorem fdiv_infinity_left (m : Bool) (hb : isFinite b = true) :
    fdiv (infinityOf m) b = infinityOf (m ^^ signBit b) := by
  simp only [fdiv, unpack_infinityOf, unpack_of_finite _ hb, packBits_infPattern]

theorem fdiv_infinity_right (m : Bool) (ha : isFinite a = true) :
    fdiv a (infinityOf m) = zeroOf (signBit a ^^ m) := by
  simp only [fdiv, unpack_infinityOf, unpack_of_finite _ ha, packBits_zero]

/-- A value that is no NaN is finite or an infinity. -/
theorem finite_or_infinite (h : isNaN a = false) : isFinite a = true ∨ magnitudeBits a = infPattern := by
  have hle : ¬ infPattern < magnitudeBits a := of_decide_eq_false h
  rw [isFinite_iff]
  omega

theorem fmul_infinity_left (m : Bool) (hb : isNaN b = false) (h : magnitudeBits b ≠ 0) :
    fmul (infinityOf m) b = infinityOf (m ^^ signBit b) := by
  rcases finite_or_infinite hb with hf | hi
  · have hm : patternMagnitude (magnitudeBits b) ≠ 0 := mt (patternMagnitude_eq_zero _).1 h
    simp only [fmul, unpack_infinityOf, unpack_of_finite _ hf, if_neg hm, packBits_infPattern]
  · simp only [fmul, unpack_infinityOf, unpack_of_infinite _ hi, packBits_infPattern]

theorem fmul_infinity_right (m : Bool) (ha : isNaN a = false) (h : magnitudeBits a ≠ 0) :
    fmul a (infinityOf m) = infinityOf (signBit a ^^ m) := by
  rcases finite_or_infinite ha with hf | hi
  · have hm : patternMagnitude (magnitudeBits a) ≠ 0 := mt (patternMagnitude_eq_zero _).1 h
    simp only [fmul, unpack_infinityOf, unpack_of_finite _ hf, if_neg hm, packBits_infPattern]
  · simp only [fmul, unpack_infinityOf, unpack_of_infinite _ hi, packBits_infPattern]

theorem fsqrt_of_pos (ha : isFinite a = true) (h : 0 < unitsOf a) :
    fsqrt a = roundRatio false (sqrtTwice (patternMagnitude (magnitudeBits a))) 2 := by
  have hm : patternMagnitude (magnitudeBits a) ≠ 0 := by
    have := unitsOf_of_nonneg a h.le
    omega
  simp only [fsqrt, unpack_of_finite _ ha, signBit_of_pos a h, if_neg hm, Bool.false_eq_true, if_false]

theorem fsqrt_zeroOf (neg : Bool) : fsqrt (zeroOf neg) = zeroOf neg := by
  simp only [fsqrt, unpack_zeroOf, if_true, packBits_zero]

theorem fsqrt_posInfinity : fsqrt (infinityOf false) = infinityOf false := by
  simp only [fsqrt, unpack_infinityOf, packBits_infPattern]

end Classes

/-- Settles O50: each operation by the classes of its operands; a difference adds the second operand negated. -/
theorem validOperationsOnInfinities : Obligations.ValidOperationsOnInfinities := by
  refine ⟨fun m b hb => ?_, fun m => ?_, fun m b hn h0 => ?_, fun m b hb h0 => fdiv_zeroOf m hb h0⟩
  · have hnb : isFinite (fneg b) = true := (isFinite_fneg b).trans hb
    have hsub : fsub b (infinityOf m) = infinityOf (!m) := by
      rw [fsub, fneg_infinityOf, addWith_infinity_right _ _ hb]
    exact ⟨addWith_infinity_left _ m hb, addWith_infinity_right _ m hb, addWith_infinity_left _ m hnb, hsub,
      fdiv_infinity_left m hb, fdiv_infinity_right m hb⟩
  · have hsub : fsub (infinityOf m) (infinityOf (!m)) = infinityOf m := by
      rw [fsub, fneg_infinityOf, Bool.not_not, addWith_infinity_same]
    exact ⟨addWith_infinity_same _ m, hsub⟩
  · exact ⟨fmul_infinity_left m hn h0, fmul_infinity_right m hn h0⟩

/-! ### Comparisons by their order keys -/

theorem orderKey_of_finite (a : F64) (h : isFinite a = true) : orderKey (unpack a) = some (unitsOf a) := by
  rw [unpack_of_finite a h]
  rfl

theorem orderKey_of_NaN (a : F64) (h : isNaN a = true) : orderKey (unpack a) = none := by
  rw [(isNaN_iff a).1 h]
  rfl

theorem orderKey_infinityOf (neg : Bool) :
    orderKey (unpack (infinityOf neg)) = some (signedUnits neg (2 ^ 2098)) := by
  rw [unpack_infinityOf]
  rfl

section Keys

variable {a b : F64} {ka kb : Int}

theorem fgt_of_keys (ha : orderKey (unpack a) = some ka) (hb : orderKey (unpack b) = some kb) :
    fgt a b = decide (kb < ka) := by
  simp only [fgt, ha, hb]

theorem flt_of_keys (ha : orderKey (unpack a) = some ka) (hb : orderKey (unpack b) = some kb) :
    flt a b = decide (ka < kb) := fgt_of_keys hb ha

theorem feq_of_keys (ha : orderKey (unpack a) = some ka) (hb : orderKey (unpack b) = some kb) :
    feq a b = decide (ka = kb) := by
  simp only [feq, ha, hb]

theorem fgt_of_no_key (h : orderKey (unpack a) = none ∨ orderKey (unpack b) = none) : fgt a b = false := by
  unfold fgt
  split
  · next ha hb => simp [ha, hb] at h
  · rfl
  · rfl

theorem feq_of_no_key (h : orderKey (unpack a) = none ∨ orderKey (unpack b) = none) : feq a b = false := by
  unfold feq
  split
  · next ha hb => simp [ha, hb] at h
  · rfl
  · rfl

end Keys

/-- The key of an infinity lies beyond the keys of all finite values, on the infinity's side. -/
theorem infinity_key_beyond (a : F64) (ha : isFinite a = true) (neg : Bool) :
    decide (unitsOf a < signedUnits neg (2 ^ 2098)) = (!neg) ∧
      decide (signedUnits neg (2 ^ 2098) < unitsOf a) = neg ∧ signedUnits neg (2 ^ 2098) ≠ unitsOf a := by
  have hb : unitsOf a < (2 ^ 2098 : Nat) ∧ -((2 ^ 2098 : Nat) : Int) < unitsOf a :=
    signedUnits_bounds _ _ _ (patternMagnitude_lt _ ((isFinite_iff a).1 ha))
  generalize 2 ^ 2098 = top at hb ⊢
  cases neg <;> simp only [signedUnits, if_true, if_false, Bool.false_eq_true, Bool.not_true, Bool.not_false,
    decide_eq_true_iff, decide_eq_false_iff_not] <;> omega

theorem signedUnits_compare (m n : Bool) (top : Nat) (h : 0 < top) :
    decide (signedUnits n top < signedUnits m top) = (!m && n) ∧
      decide (signedUnits m top = signedUnits n top) = (m == n) := by
  cases m <;> cases n <;> simp [signedUnits] <;> omega

/-- Settles O48: a comparison compares the keys, and a NaN has none. -/
theorem comparisonsFollowTheValues : Obligations.ComparisonsFollowTheValues := by
  refine ⟨fun a b ha hb => ?_, fun a b h => ?_, fun a neg ha => ?_, fun m n => ?_⟩
  · have ka := orderKey_of_finite a ha
    have kb := orderKey_of_finite b hb
    rw [fgt_of_keys ka kb, flt_of_keys ka kb, feq_of_keys ka kb]
    exact ⟨decide_eq_true_iff, decide_eq_true_iff, decide_eq_true_iff⟩
  · have hk := h.imp (orderKey_of_NaN a) (orderKey_of_NaN b)
    exact ⟨fgt_of_no_key hk, fgt_of_no_key hk.symm, feq_of_no_key hk⟩
  · have ka := orderKey_of_finite a ha
    have ki := orderKey_infinityOf neg
    obtain ⟨hgt, hlt, hne⟩ := infinity_key_beyond a ha neg
    rw [fgt_of_keys ki ka, flt_of_keys ka ki, flt_of_keys ki ka, fgt_of_keys ka ki, feq_of_keys ki ka,
      feq_of_keys ka ki]
    exact ⟨hgt, hgt, hlt, hlt, decide_eq_false hne, decide_eq_false hne.symm⟩
  · have km := orderKey_infinityOf m
    have kn := orderKey_infinityOf n
    have hpos := Nat.two_pow_pos 2098
    obtain ⟨hgt, heq⟩ := signedUnits_compare m n _ hpos
    obtain ⟨hlt, _⟩ := signedUnits_compare n m _ hpos
    rw [fgt_of_keys km kn, flt_of_keys km kn, feq_of_keys km kn, hgt, hlt, heq]
    exact ⟨rfl, Bool.and_comm _ _, rfl⟩

/-! ### Rounding to nearest -/

/-- The shared rounding function meets what IEEE 754 asks of a rounded ratio. -/
theorem isRoundingOf_roundRatio (neg : Bool) (num den : Nat) (hd : 0 < den) :
    isRoundingOf (roundRatio neg num den) (signedUnits neg num) den := by
  refine ⟨?_, fun hinf => ?_, fun hne => ?_, fun y hv _ => roundRatio_nearest neg num den hd hv y⟩
  · have hhalf : (2 ^ 54 - 1) * 2 ^ 2045 * den = 2 * (overflowUnits * den) := by
      rw [overflowUnits, Nat.pow_succ 2 2044]
      generalize 2 ^ 2044 = q
      ring
    rw [isFinite_roundRatio, roundPattern_lt_infPattern _ _ hd, natAbs_signedUnits, hhalf]
    omega
  · have hle := roundPattern_le num den
    have hge : ¬ roundPattern num den < infPattern := by
      rw [← isFinite_roundRatio neg, hinf]
      exact Bool.false_ne_true
    rw [magnitudeBits_roundRatio]
    omega
  · rw [signBit_roundRatio]
    exact sign_eq_signedUnits_neg neg num hne

/-- An exact zero rounds to a zero of the sign given. -/
theorem roundRatio_zero (neg : Bool) : roundRatio neg 0 1 = zeroOf neg := by
  rw [← packBits_zero]
  rfl

/-- The sum of two finite values is the rounded exact sum, zero sums included. -/
theorem isRoundingOf_addFinite (na nb : Bool) (ma mb : Nat) :
    isRoundingOf (addFinite na ma nb mb) (signedUnits na ma + signedUnits nb mb) 1 := by
  unfold addFinite
  generalize signedUnits na ma + signedUnits nb mb = sum
  by_cases h : sum = 0
  · simp only [h, if_true]
    rw [packBits_zero, ← roundRatio_zero]
    have hz : signedUnits (na && nb) 0 = 0 := by simp [signedUnits]
    simpa only [hz] using isRoundingOf_roundRatio (na && nb) 0 1 one_pos
  · simp only [if_neg h]
    simpa only [signedUnits_natAbs] using isRoundingOf_roundRatio (decide (sum < 0)) sum.natAbs 1 one_pos

theorem addFinite_of_sum_zero (na nb : Bool) (ma mb : Nat) (h : signedUnits na ma + signedUnits nb mb = 0) :
    addFinite na ma nb mb = zeroOf (na && nb) := by
  simp only [addFinite, h, if_true, packBits_zero]

/-- Settles O42: both operations add exactly and round; a difference adds the second operand negated. -/
theorem sumIsRoundedToNearest : Obligations.SumIsRoundedToNearest := by
  intro a b ha hb
  have hnb : isFinite (fneg b) = true := (isFinite_fneg b).trans hb
  have hadd := addWith_of_finite (b := b) .add ha hb
  have hsub := addWith_of_finite (b := b) .sub ha hnb
  have hdiff : unitsOf a - unitsOf b = unitsOf a + unitsOf (fneg b) := by rw [unitsOf_fneg]; ring
  rw [fadd, fsub, hadd, hsub, hdiff]
  refine ⟨isRoundingOf_addFinite _ _ _ _, isRoundingOf_addFinite _ _ _ _, addFinite_of_sum_zero _ _ _ _,
    fun h => ?_⟩
  rw [addFinite_of_sum_zero _ _ _ _ h, signBit_fneg]

/-- Settles O43: the exact product of two values in units is in units of 2^-2148. -/
theorem productIsRoundedToNearest : Obligations.ProductIsRoundedToNearest := by
  intro a b ha hb
  rw [fmul_of_finite ha hb]
  refine ⟨?_, signBit_roundRatio _ _ _⟩
  unfold unitsOf
  rw [← signedUnits_mul]
  exact isRoundingOf_roundRatio _ _ _ (by positivity)

/-- Settles O44: the divisor's sign moves to the dividend, its magnitude is the denominator. -/
theorem quotientIsRoundedToNearest : Obligations.QuotientIsRoundedToNearest := by
  intro a b ha hb hne
  have hmag : patternMagnitude (magnitudeBits b) ≠ 0 := by
    rw [← natAbs_unitsOf]
    exact Int.natAbs_ne_zero.2 hne
  rw [fdiv_of_finite ha hb (mt (patternMagnitude_eq_zero _).2 hmag)]
  refine ⟨?_, signBit_roundRatio _ _ _⟩
  have hnum : (unitsOf b).sign * unitsOf a * 2 ^ 1074 =
      signedUnits (signBit a ^^ signBit b) (patternMagnitude (magnitudeBits a) * 2 ^ 1074) := by
    have hsign : (unitsOf b).sign = signedUnits (signBit b) 1 := sign_signedUnits _ _ hne
    rw [hsign, mul_comm (signedUnits _ 1), unitsOf, ← signedUnits_mul, mul_one,
      ← signedUnits_mul_natCast, Nat.cast_pow, Nat.cast_ofNat]
  rw [hnum, natAbs_unitsOf]
  exact isRoundingOf_roundRatio _ _ _ (Nat.pos_of_ne_zero hmag)

end Sys2Proof.Machine
end

section
/-! PROOFS. The square root rounds to nearest (R11, R109): the half unit that `sqrtTwice` keeps for the part
cut off stands for the exact root, since the last places of the result are far above it. -/

namespace Sys2Proof.Machine

/-- A multiple of 2^(h+1) lies on the same side of `(2 r + s) * 2^h` as of the exact value that `2 r + s`
stands for: `2 r` or `2 r + 2 s`. -/
theorem multiple_beside_sticky {r h s t : Nat} (k : Nat) (hs : s ≤ 1) (ht : t = (2 * r + s) * 2 ^ h) :
    (k * 2 ^ (h + 1) ≤ t → k * 2 ^ (h + 1) ≤ 2 * r * 2 ^ h) ∧
      (t ≤ k * 2 ^ (h + 1) → 2 * (r + s) * 2 ^ h ≤ k * 2 ^ (h + 1)) := by
  have hk : k * 2 ^ (h + 1) = 2 * k * 2 ^ h := by rw [Nat.pow_succ]; ring
  have hp : 0 < 2 ^ h := Nat.two_pow_pos h
  rw [ht, hk]
  constructor
  · intro hle
    have := Nat.le_of_mul_le_mul_right hle hp
    exact Nat.mul_le_mul_right _ (by omega)
  · intro hle
    have := Nat.le_of_mul_le_mul_right hle hp
    exact Nat.mul_le_mul_right _ (by omega)

/-- `sqrtTwice m` stands for twice the exact root: against every multiple of some `2^(h+1)`, at least 80 bits
below it, it compares as the exact root does, seen by the squares. -/
theorem sqrtTwice_sides (m : Nat) (hm : 0 < m) (hlt : m < 2 ^ 2098) :
    ∃ h, 2 ^ 80 * 2 ^ h ≤ sqrtTwice m / 2 ∧
      ∀ k, (k * 2 ^ (h + 1) ≤ sqrtTwice m → (k * 2 ^ (h + 1)) ^ 2 ≤ 4 * (m * 2 ^ 1074)) ∧
        (sqrtTwice m ≤ k * 2 ^ (h + 1) → 4 * (m * 2 ^ 1074) ≤ (k * 2 ^ (h + 1)) ^ 2) := by
  obtain ⟨r, h, s, ht, hr, hs, hlo, hhi, hexact, -⟩ := sqrtTwice_spec m hm hlt
  have hsq (x : Nat) : (2 * x * 2 ^ h) ^ 2 = 4 * (x * x * 2 ^ (2 * h)) := by
    rw [Nat.mul_comm 2 h, Nat.pow_mul]; ring
  generalize m * 2 ^ 1074 = n at *
  have hup : n ≤ (r + s) * (r + s) * 2 ^ (2 * h) := by
    obtain rfl | rfl : s = 0 ∨ s = 1 := by omega
    · exact (hexact rfl).ge
    · exact hhi.le
  refine ⟨h, ?_, fun k => ?_⟩
  · rw [Nat.le_div_iff_mul_le two_pos, ht]
    calc 2 ^ 80 * 2 ^ h * 2 ≤ r * 2 ^ h * 2 := Nat.mul_le_mul_right _ (Nat.mul_le_mul_right _ hr)
      _ = 2 * r * 2 ^ h := by ring
      _ ≤ (2 * r + s) * 2 ^ h := Nat.mul_le_mul_right _ (Nat.le_add_right _ _)
  · obtain ⟨below, above⟩ := multiple_beside_sticky k hs ht
    constructor
    · intro hle
      calc (k * 2 ^ (h + 1)) ^ 2 ≤ (2 * r * 2 ^ h) ^ 2 := Nat.pow_le_pow_left (below hle) 2
        _ = 4 * (r * r * 2 ^ (2 * h)) := hsq r
        _ ≤ 4 * n := Nat.mul_le_mul_left _ hlo
    · intro hle
      calc 4 * n ≤ 4 * ((r + s) * (r + s) * 2 ^ (2 * h)) := Nat.mul_le_mul_left _ hup
        _ = (2 * (r + s) * 2 ^ h) ^ 2 := (hsq (r + s)).symm
        _ ≤ (k * 2 ^ (h + 1)) ^ 2 := Nat.pow_le_pow_left (above hle) 2

/-- The root of a finite value does not overflow: it is below 2^1588. -/
theorem roundPattern_sqrtTwice_lt (m : Nat) (hm : 0 < m) (hlt : m < 2 ^ 2098) :
    roundPattern (sqrtTwice m) 2 < infPattern := by
  obtain ⟨r, h, s, ht, hr, hs, -, -, -, hbound⟩ := sqrtTwice_spec m hm hlt
  have hroot : r * 2 ^ h < 2 ^ 1586 := by
    refine lt_of_pow_lt_pow_left₀ 2 (Nat.zero_le _) ?_
    calc (r * 2 ^ h) ^ 2 = r * r * 2 ^ (2 * h) := by rw [Nat.mul_comm 2 h, Nat.pow_mul]; ring
      _ < 2 ^ (1586 + 1586) := hbound
      _ = (2 ^ 1586) ^ 2 := by rw [Nat.pow_add, sq]
  have htwice : sqrtTwice m ≤ 4 * (r * 2 ^ h) := by
    calc sqrtTwice m = (2 * r + s) * 2 ^ h := ht
      _ ≤ 4 * r * 2 ^ h := Nat.mul_le_mul_right _ (by omega)
      _ = 4 * (r * 2 ^ h) := Nat.mul_assoc _ _ _
  have hmono : 2 ^ 1586 ≤ 2 ^ 2045 := Nat.pow_le_pow_right two_pos (by norm_num)
  rw [roundPattern_lt_infPattern _ _ two_pos]
  generalize 2 ^ 1586 = c at *
  generalize 2 ^ 2045 = d at *
  omega

/-- A ratio of at least 2^80 places `2^h` rounds to a multiple of `2^(h+1)`, above the values whose last
place is finer. -/
theorem roundPattern_magnitude_multiple (num den h : Nat) (hd : 0 < den)
    (hfin : roundPattern num den < infPattern) (hbig : 2 ^ 80 * 2 ^ h ≤ num / den) :
    ∃ k, patternMagnitude (roundPattern num den) = k * 2 ^ (h + 1) ∧
      2 ^ 52 * 2 ^ (h + 1) < patternMagnitude (roundPattern num den) := by
  have hpow : 2 ^ (80 + h) ≤ num / den := by rwa [Nat.pow_add]
  have hlog : 80 + h ≤ Nat.log2 (num / den) := by
    refine (Nat.le_log2 ?_).2 hpow
    have := Nat.two_pow_pos (80 + h)
    omega
  have hulp : h + 2 ≤ ulpExponent num den := by unfold ulpExponent; omega
  obtain ⟨-, hmag⟩ := roundPattern_magnitude num den hd hfin
  obtain ⟨-, hnorm⟩ := roundParts num den hd
  generalize ulpExponent num den = e at *
  generalize nearestEven num (den * 2 ^ e) = q at *
  have hq : 2 ^ 52 ≤ q := by
    rcases hnorm with h0 | ⟨hq, -⟩
    · omega
    · exact hq
  have hsplit : 2 ^ e = 2 ^ (e - (h + 1)) * 2 ^ (h + 1) := by
    rw [← Nat.pow_add]
    congr 1
    omega
  refine ⟨q * 2 ^ (e - (h + 1)), by rw [hmag, hsplit, Nat.mul_assoc], ?_⟩
  rw [hmag]
  calc 2 ^ 52 * 2 ^ (h + 1) < 2 ^ 52 * 2 ^ e :=
        Nat.mul_lt_mul_of_pos_left (Nat.pow_lt_pow_right (by norm_num) (by omega)) (by norm_num)
    _ ≤ q * 2 ^ e := Nat.mul_le_mul_right _ hq

/-- The magnitude of the root of a magnitude `m`, as `fsqrt` rounds it (`unitsOf_fsqrt`). -/
def rootMagnitude (m : Nat) : Nat := patternMagnitude (roundPattern (sqrtTwice m) 2)

theorem unitsOf_fsqrt (a : F64) (ha : isFinite a = true) (hpos : 0 < unitsOf a) :
    unitsOf (fsqrt a) = (rootMagnitude (patternMagnitude (magnitudeBits a)) : Nat) := by
  rw [fsqrt_of_pos ha hpos, unitsOf_roundRatio]
  rfl

/-- Rounding to nearest in natural numbers: the midpoint of the root and another magnitude lies on that
magnitude's side of the ratio rounded, or at it. -/
theorem rootMagnitude_nearest (m : Nat) (hm : 0 < m) (hlt : m < 2 ^ 2098) (p : Nat) :
    (patternMagnitude p < rootMagnitude m → patternMagnitude p + rootMagnitude m ≤ sqrtTwice m) ∧
      (rootMagnitude m < patternMagnitude p → sqrtTwice m ≤ patternMagnitude p + rootMagnitude m) := by
  have hnear := (roundPattern_nearest _ 2 two_pos (roundPattern_sqrtTwice_lt m hm hlt) p).1
  rw [← rootMagnitude] at hnear
  omega

/-- The rounded root against any other magnitude, by the square of twice their midpoint. A magnitude with a
finer last place than `2^(h+1)` is below the root, and the coarser `2^52 * 2^(h+1)` lies between. -/
theorem rootMagnitude_midpoints (m : Nat) (hm : 0 < m) (hlt : m < 2 ^ 2098) (p : Nat) :
    (patternMagnitude p < rootMagnitude m →
        (patternMagnitude p + rootMagnitude m) ^ 2 ≤ 4 * (m * 2 ^ 1074)) ∧
      (rootMagnitude m < patternMagnitude p →
        4 * (m * 2 ^ 1074) ≤ (patternMagnitude p + rootMagnitude m) ^ 2) := by
  obtain ⟨h, hbig, hsides⟩ := sqrtTwice_sides m hm hlt
  obtain ⟨k, hroot, hcoarse⟩ :=
    roundPattern_magnitude_multiple _ 2 h two_pos (roundPattern_sqrtTwice_lt m hm hlt) hbig
  rw [← rootMagnitude] at hroot hcoarse
  have hsum (j : Nat) : j * 2 ^ (h + 1) + k * 2 ^ (h + 1) = (j + k) * 2 ^ (h + 1) := (Nat.add_mul _ _ _).symm
  rcases patternMagnitude_multiple p (h + 1) with ⟨j, hj⟩ | hfine
  · obtain ⟨below, above⟩ := rootMagnitude_nearest m hm hlt p
    rw [hj, hroot, hsum] at below above ⊢
    exact ⟨fun hp => (hsides _).1 (below hp), fun hp => (hsides _).2 (above hp)⟩
  · refine ⟨fun _ => ?_, fun hp => absurd hp (by omega)⟩
    have hpat : patternMagnitude ((h + 1) * 2 ^ 52 + 2 ^ 52) = 2 ^ 52 * 2 ^ (h + 1) :=
      patternMagnitude_of_parts _ _ (by norm_num) (.inr le_rfl)
    have hbelow := (rootMagnitude_nearest m hm hlt ((h + 1) * 2 ^ 52 + 2 ^ 52)).1 (by rwa [hpat])
    rw [hpat, hroot, hsum] at hbelow
    calc (patternMagnitude p + rootMagnitude m) ^ 2
        ≤ (2 ^ 52 * 2 ^ (h + 1) + rootMagnitude m) ^ 2 :=
          Nat.pow_le_pow_left (Nat.add_le_add_right hfine.le _) 2
      _ = ((2 ^ 52 + k) * 2 ^ (h + 1)) ^ 2 := by rw [hroot, hsum]
      _ ≤ 4 * (m * 2 ^ 1074) := (hsides _).1 hbelow

theorem rootMagnitude_pos (m : Nat) (hm : 0 < m) (hlt : m < 2 ^ 2098) : 0 < rootMagnitude m := by
  obtain ⟨h, hbig, -⟩ := sqrtTwice_sides m hm hlt
  obtain ⟨k, -, hcoarse⟩ :=
    roundPattern_magnitude_multiple _ 2 h two_pos (roundPattern_sqrtTwice_lt m hm hlt) hbig
  exact Nat.zero_lt_of_lt hcoarse

theorem isFinite_fsqrt (a : F64) (ha : isFinite a = true) (hpos : 0 < unitsOf a) : isFinite (fsqrt a) = true := by
  have hmag := unitsOf_of_nonneg a hpos.le
  rw [fsqrt_of_pos ha hpos, isFinite_roundRatio]
  exact roundPattern_sqrtTwice_lt _ (by omega) (patternMagnitude_lt _ ((isFinite_iff a).1 ha))

/-- Settles O45: the root of a positive value by `rootMagnitude_midpoints`, the special roots by their classes. -/
theorem rootIsRoundedToNearest : Obligations.RootIsRoundedToNearest := by
  refine ⟨fun a y ha hpos _ hy => ⟨isFinite_fsqrt a ha hpos, ?_⟩, fsqrt_zeroOf, fsqrt_posInfinity⟩
  have hmag := unitsOf_of_nonneg a hpos.le
  have hm : 0 < patternMagnitude (magnitudeBits a) := by omega
  have hlt := patternMagnitude_lt _ ((isFinite_iff a).1 ha)
  have hroot := rootMagnitude_pos _ hm hlt
  obtain ⟨below, above⟩ := rootMagnitude_midpoints _ hm hlt (magnitudeBits y)
  have hcast (n : Nat) : 4 * ((n : Int) * 2 ^ 1074) = ((4 * (n * 2 ^ 1074) : Nat) : Int) := by
    rw [Nat.cast_mul, Nat.cast_mul, Nat.cast_pow, Nat.cast_ofNat, Nat.cast_ofNat]
  rw [unitsOf_fsqrt a ha hpos, unitsOf_of_nonneg y hy, hmag, hcast]
  generalize 4 * (patternMagnitude (magnitudeBits a) * 2 ^ 1074) = n at below above ⊢
  exact ⟨by exact_mod_cast hroot, by exact_mod_cast below, by exact_mod_cast above⟩

end Sys2Proof.Machine
end

section
/-! PROOFS. The state (10_state.md): what the registers read as and what a host write leaves in them (R22 to
R41), the state after reset (R49), and the invariant that every step keeps (R25, R26, R45, R60). -/

namespace Sys2Proof.Machine

/-! ### The invariant, by operation -/

/-- The events to come are no part of what the invariant speaks of (log 1). -/
theorem inv_withAgenda {s : State} (l : List Event) (h : s.Inv) : { s with agenda := l }.Inv :=
  ⟨flagsOk_congr rfl rfl rfl rfl h.1, wf_congr rfl rfl rfl rfl h.2⟩

theorem transaction_flagsOk (t : Transaction) (s : State) (h : s.flagsOk) : (transaction t s).flagsOk := by
  rcases transaction_cases t s with he | ⟨r, d, he⟩ | ⟨_, he⟩ | ⟨_, loc, v, _, he⟩ <;> rw [he]
  · exact flagsOk_congr rfl rfl rfl rfl h
  · exact flagsOk_congr rfl rfl rfl rfl h
  · exact flagsOk_congr rfl rfl rfl rfl h
  · exact flagsOk_congr rfl rfl rfl rfl (writeLocation_flagsOk s loc v h)

theorem transaction_inv (t : Transaction) {s : State} (h : s.Inv) : (transaction t s).Inv :=
  ⟨transaction_flagsOk t s h.1, transaction_wf t s h.2⟩

theorem reset_flagsOk : State.reset.flagsOk := by decide

/-- Settles O22: idle without an error, and nothing written to a buffer. -/
theorem resetHasInvariant : Obligations.ResetHasInvariant := ⟨reset_flagsOk, reset_wf⟩

/-- A reset needs no premise on the state it finds (R201). -/
theorem resetBlock_inv (s : State) : (resetBlock s).Inv :=
  ⟨flagsOk_congr rfl rfl rfl rfl reset_flagsOk, resetBlock_wf s⟩

/-- The flags after a completion follow from its kind alone; the buffers' form comes from the state it found. -/
theorem engineStep_inv {s t : State} (h : s.Inv) (hs : engineStep s = .next t) : t.Inv := by
  rcases engineStep_cases s with ⟨_, he⟩ | ⟨w, _, ⟨e, he⟩ | ⟨u, he, hwf, _⟩⟩ <;> rw [he] at hs <;> cases hs
  · exact h
  · exact ⟨flagsError_flagsOk e s, wf_congr rfl rfl rfl rfl h.2⟩
  · exact ⟨flagsSuccess_flagsOk u, wf_congr rfl rfl rfl rfl (hwf h.2)⟩

theorem performEvent_inv (e : Event) {s t : State} (h : s.Inv) (hs : performEvent e s = .next t) : t.Inv := by
  cases e with
  | host tr => cases hs; exact transaction_inv tr h
  | engine => exact engineStep_inv h hs
  | reset => cases hs; exact resetBlock_inv s

/-- Settles O21: the engine's step on an empty agenda, else the first event. -/
theorem stepKeepsInvariant : Obligations.StepKeepsInvariant := by
  intro s t h hs
  cases ha : s.agenda with
  | nil =>
    rw [step_engine s [] (.inr ⟨ha, rfl⟩)] at hs
    exact engineStep_inv (inv_withAgenda [] h) hs
  | cons e rest =>
    rw [step_event s e rest ha] at hs
    exact performEvent_inv e (inv_withAgenda rest h) hs

/-! ### What the registers read as -/

theorem ctrlWord_eq (s : State) : ctrlWord s = BitVec.ofNat 32 (s.ctrlMod.toNat + 4 * s.ctrlCod.toNat) := by
  have places : ∀ m c : BitVec 2, (c ++ m).zeroExtend 32 = BitVec.ofNat 32 (m.toNat + 4 * c.toNat) := by decide
  exact places s.ctrlMod s.ctrlCod

theorem errcodeWord_eq (s : State) : errcodeWord s = BitVec.ofNat 32 s.errcode.toNat :=
  (BitVec.ofNat_toNat 32 s.errcode).symm

theorem statusWord_idle {s : State} (h : s.phase = .idle) :
    statusWord s = BitVec.ofNat 32
      ((if s.statusDone then 2 else 0) + (if s.statusErr then 4 else 0) + (if s.statusWerr then 8 else 0)) := by
  simp [statusWord, isBusy_idle h, flagBit]

/-- While idle no read of a register draws an unspecified word (R71). -/
theorem answerTo_register {s : State} (h : s.phase = .idle) (r : Reg) :
    answerTo s (BitVec.ofNat 23 (regOffset r)) = .data (readReg s r) := by
  rw [answerTo, transaction_read (locate_register r) (inPendingSet_idle h _)]
  rfl

/-- Settles O49: `answerTo_register` at each register, with CTRL, STATUS and ERRCODE as numbers. -/
theorem registersReadTheirFields : Obligations.RegistersReadTheirFields := by
  intro s h
  have answer := answerTo_register h
  have ctrl : readReg s .ctrl = _ := ctrlWord_eq s
  have status : readReg s .status = _ := statusWord_idle h
  have errcode : readReg s .errcode = _ := errcodeWord_eq s
  exact ⟨ctrl ▸ answer .ctrl, answer .cmd, status ▸ answer .status, errcode ▸ answer .errcode,
    answer .lenBa, answer .lenBb, answer .lenX, answer .lenY, answer .seed, answer .capacity,
    answer .snrDbLo, answer .snrDbHi, answer .bitrateLo, answer .bitrateHi, answer .bandwidthLo,
    answer .bandwidthHi, answer .sigpwrLo, answer .sigpwrHi, answer .noisepwrLo, answer .noisepwrHi,
    answer .ebn0Lo, answer .ebn0Hi, answer .measSnrLo, answer .measSnrHi⟩

/-! ### What a write of a register leaves -/

/-- CTRL keeps the low four bits of what is written (R23). -/
theorem ctrlWord_writeReg (s : State) (v : Word) : ctrlWord (writeReg s .ctrl v) = v &&& 0xF := by
  have low : (v &&& 0xF).toNat = v.toNat % 2 ^ 4 := Nat.and_two_pow_sub_one_eq_mod v.toNat 4
  have mod : (writeReg s .ctrl v).ctrlMod.toNat = v.toNat % 4 := by simp [writeReg]
  have cod : (writeReg s .ctrl v).ctrlCod.toNat = v.toNat / 4 % 4 := by
    simp [writeReg, Nat.shiftRight_eq_div_pow]
  apply BitVec.eq_of_toNat_eq
  rw [ctrlWord_eq, mod, cod, low, BitVec.toNat_ofNat]
  omega

/-- Only a write of CMD accepts a command, and so touches more than the register itself (R101). -/
theorem writeReg_phase (s : State) {r : Reg} (v : Word) (h : r ≠ .cmd) : (writeReg s r v).phase = s.phase := by
  cases r with
  | cmd => exact absurd rfl h
  | _ => rfl

theorem writeReg_resetCount (s : State) (r : Reg) (v : Word) : (writeReg s r v).resetCount = s.resetCount := by
  cases r <;> rfl

theorem byteAt_writeReg (s : State) (r : Reg) (v : Word) (a : Nat) : byteAt (writeReg s r v) a = byteAt s a := by
  obtain ⟨hba, hbb, hx, hy⟩ := writeReg_stores s r v
  refine byteAt_congr (fun b => ?_) (fun b => ?_) (writeReg_resetCount s r v) a
  · cases b with
    | ba => exact hba
    | bb => exact hbb
  · cases b with
    | x => exact hx
    | y => exact hy

theorem readReg_writeReg_same (s : State) (r : Reg) (v : Word) :
    readReg (writeReg s r v) r = readBack s r v := by
  cases r with
  | ctrl => exact ctrlWord_writeReg s v
  | snrDbLo | bitrateLo | bandwidthLo => exact loHalf_joinHalves _ _
  | snrDbHi | bitrateHi | bandwidthHi => exact hiHalf_joinHalves _ _
  | _ => rfl

/-- A write of one half of a pair keeps the other half (R41); every other register has its own field. -/
theorem readReg_writeReg_other (s : State) {r q : Reg} (v : Word) (hr : r ≠ .cmd) (hq : q ≠ r) :
    readReg (writeReg s r v) q = readReg s q := by
  cases r with
  | cmd => exact absurd rfl hr
  | ctrl => cases q with | ctrl => exact absurd rfl hq | _ => rfl
  | lenBa => cases q with | lenBa => exact absurd rfl hq | _ => rfl
  | lenBb => cases q with | lenBb => exact absurd rfl hq | _ => rfl
  | lenX => cases q with | lenX => exact absurd rfl hq | _ => rfl
  | lenY => cases q with | lenY => exact absurd rfl hq | _ => rfl
  | seed => cases q with | seed => exact absurd rfl hq | _ => rfl
  | snrDbLo =>
    cases q with | snrDbLo => exact absurd rfl hq | snrDbHi => exact hiHalf_joinHalves _ _ | _ => rfl
  | snrDbHi =>
    cases q with | snrDbHi => exact absurd rfl hq | snrDbLo => exact loHalf_joinHalves _ _ | _ => rfl
  | bitrateLo =>
    cases q with | bitrateLo => exact absurd rfl hq | bitrateHi => exact hiHalf_joinHalves _ _ | _ => rfl
  | bitrateHi =>
    cases q with | bitrateHi => exact absurd rfl hq | bitrateLo => exact loHalf_joinHalves _ _ | _ => rfl
  | bandwidthLo =>
    cases q with | bandwidthLo => exact absurd rfl hq | bandwidthHi => exact hiHalf_joinHalves _ _ | _ => rfl
  | bandwidthHi =>
    cases q with | bandwidthHi => exact absurd rfl hq | bandwidthLo => exact loHalf_joinHalves _ _ | _ => rfl
  | _ => rfl

/-- The response of a transaction stands in no register (log 3). -/
theorem readReg_withResponse (s : State) (p : Response) (r : Reg) :
    readReg { s with response := p } r = readReg s r := by
  cases r <;> rfl

/-- Settles O14: the state after the write is `writeReg s r v`, and each read of it answers `readReg`. -/
theorem registerWriteReadsBack : Obligations.RegisterWriteReadsBack := by
  refine ⟨rfl, fun s r v hp hr => ⟨_, transaction_write_idle v (locate_register r) hp, ?_⟩⟩
  have hphase : (writeReg s r v).phase = .idle := (writeReg_phase s v hr).trans hp
  have answer (q : Reg) : answerTo { writeReg s r v with response := .ok } (BitVec.ofNat 23 (regOffset q)) =
      .data (readReg (writeReg s r v) q) :=
    (answerTo_register hphase q).trans (congrArg _ (readReg_withResponse _ _ q))
  refine ⟨?_, fun q hq => ?_, byteAt_writeReg s r v, hphase⟩
  · exact readReg_writeReg_same s r v ▸ answer r
  · exact readReg_writeReg_other s v hr hq ▸ answer q

/-! ### Reserved offsets -/

/-- The last register of the block is MEAS_SNR_HI (R22). -/
theorem le_of_regAt {n : Nat} {r : Reg} (h : regAt n = some r) : n ≤ 0x5C := by
  unfold regAt at h
  split at h <;> cases h <;> omega

theorem regAt_reserved {n : Nat} (h : 0x60 ≤ n) : regAt n = none :=
  Option.eq_none_iff_forall_ne_some.2 fun r hr => by
    have := le_of_regAt hr
    omega

theorem locate_reserved {a : Addr} (h4 : a.toNat % 4 = 0) (hlo : 0x60 ≤ a.toNat) (hhi : a.toNat ≤ 0xFC) :
    locate a = some .reserved := by
  rw [locate, if_pos ((addrAligned_eq a).2 h4), mapped, if_pos (by omega), regLocation, regAt_reserved hlo]

/-- No command's write set holds a reserved word (R106). -/
theorem inPendingSet_reserved (s : State) : inPendingSet s .reserved = false := by
  unfold inPendingSet
  split
  · rfl
  · split <;> rfl

/-- Settles O15: a reserved word reads 0 in every phase; a write of it goes the way of every mapped write. -/
theorem reservedOffsetsReadZero : Obligations.ReservedOffsetsReadZero := by
  intro s a v h4 hlo hhi
  have hl := locate_reserved h4 hlo hhi
  exact ⟨transaction_read hl (inPendingSet_reserved s), transaction_write_idle v hl,
    fun _ => transaction_write_busy v hl⟩

/-! ### After reset -/

theorem readReg_reset (r : Reg) : readReg State.reset r = if r = .capacity then 0x00040000 else 0 := by
  cases r <;> rfl

/-- An entry that nothing has written since the reset reads as its draw (R49, R201). -/
theorem bitAt_unwritten {s : State} {b : BitBuf} (h : bitStore s b = []) (j : Nat) :
    bitAt s b j = Config.resetBit s.resetCount b j := by
  rw [bitAt, h, storeGet_nil, Option.getD_none]

theorem sampleByte_unwritten {s : State} {b : SampleBuf} (h : sampleStore s b = []) (a : Nat) :
    sampleByte s b a = Config.resetByte s.resetCount b a := by
  rw [sampleByte, h, storeGet_nil, Option.getD_none]

/-- Settles O19: the registers one by one, the four buffers unwritten. -/
theorem resetStateValues : Obligations.ResetStateValues := by
  refine ⟨rfl, readReg_reset, fun b => bitAt_unwritten ?_, fun b => sampleByte_unwritten ?_⟩ <;> cases b <;> rfl

end Sys2Proof.Machine
end

section
/-! PROOFS. The bus (20_memory.md): what every transaction answers and leaves (R60 to R63, R68, R186), what
reads answer while a command is pending (R71, R105), and the layout of the buffers' windows (R64 to R66). -/

namespace Sys2Proof.Machine

/-! ### Transactions by their address -/

/-- The two grounds for BUSERR (R61). -/
theorem locate_eq_none_iff (a : Addr) : locate a = none ↔ a.toNat % 4 ≠ 0 ∨ ¬addrMapped a.toNat := by
  rw [locate, ← mapped_isSome]
  split
  · next h => simp [(addrAligned_eq a).1 h]
  · next h => simp [mt (addrAligned_eq a).2 h]

theorem exists_locate {a : Addr} (h4 : a.toNat % 4 = 0) (hm : addrMapped a.toNat) : ∃ loc, locate a = some loc :=
  Option.ne_none_iff_exists'.1 fun h => ((locate_eq_none_iff a).1 h).elim (absurd h4) (absurd hm)

/-- Settles O8: such an address selects nothing, in whatever phase. -/
theorem badAddressAnswersBusErr : Obligations.BadAddressAnswersBusErr := by
  intro s t rest ha hbad
  have hnone := (locate_eq_none_iff _).2 hbad
  rw [step_host s t rest ha]
  cases t with
  | read a => exact congrArg _ (transaction_misaddressed (.read a) hnone)
  | write a v => exact congrArg _ (transaction_misaddressed (.write a v) hnone)

/-- A read of a location of the pending command's write set draws the next unspecified word (R71, R105;
log 4). -/
theorem transaction_read_pendingSet {s : State} {a : Addr} {loc : Location} (hl : locate a = some loc)
    (hp : inPendingSet s loc = true) :
    transaction (.read a) s =
      { s with response := .data (Config.busyWord s.drawCount), drawCount := s.drawCount + 1 } := by
  simp only [transaction, hl, busRead, hp, if_true]

/-- A mapped write is answered OK, whether it is performed or dropped (R63, R104). -/
theorem transaction_write_response {s : State} {a : Addr} {loc : Location} (v : Word)
    (hl : locate a = some loc) : (transaction (.write a v) s).response = .ok := by
  cases hp : s.phase with
  | idle => rw [transaction_write_idle v hl hp]
  | pending w => rw [transaction_write_busy v hl hp]

/-- A mapped read is answered with a word, specified or not (R63, R71). -/
theorem transaction_read_response {s : State} {a : Addr} {loc : Location} (hl : locate a = some loc) :
    ∃ v, (transaction (.read a) s).response = .data v := by
  cases hp : inPendingSet s loc with
  | false => exact ⟨_, by rw [transaction_read hl hp]⟩
  | true => exact ⟨_, by rw [transaction_read_pendingSet hl hp]⟩

/-- Settles O9: a mapped address selects a location, whose accesses are answered. -/
theorem mappedAccessIsAnswered : Obligations.MappedAccessIsAnswered := by
  intro s a rest h4 hm
  obtain ⟨loc, hl⟩ := exists_locate h4 hm
  refine ⟨fun v ha => ⟨_, step_host s _ rest ha, transaction_write_response v hl⟩, fun ha => ?_⟩
  obtain ⟨v, hv⟩ := transaction_read_response (s := { s with agenda := rest }) hl
  exact ⟨_, v, step_host s _ rest ha, hv⟩

/-- All that a read can touch, at any address: the model's own record of the response and of the draws. -/
theorem transaction_read_frame (a : Addr) (s : State) :
    ∃ r d, transaction (.read a) s = { s with response := r, drawCount := d } := by
  cases hl : locate a with
  | none => exact ⟨.busErr, s.drawCount, transaction_misaddressed (.read a) hl⟩
  | some loc =>
    cases hp : inPendingSet s loc with
    | false => exact ⟨_, s.drawCount, transaction_read hl hp⟩
    | true => exact ⟨_, _, transaction_read_pendingSet hl hp⟩

/-- Settles O10: `transaction_read_frame`, after the event has left the agenda. -/
theorem readHasNoSideEffect : Obligations.ReadHasNoSideEffect := by
  intro s a rest ha
  obtain ⟨r, d, hread⟩ := transaction_read_frame a { s with agenda := rest }
  exact ⟨_, (step_host s _ rest ha).trans (congrArg _ hread), rfl⟩

/-! ### Reads while a command is pending -/

/-- What a location reads as does not depend on the events to come (log 1). -/
theorem readLocation_withAgenda (s : State) (l : List Event) (loc : Location) :
    readLocation { s with agenda := l } loc = readLocation s loc := by
  cases loc with
  | register r => cases r <;> rfl
  | _ => rfl

/-- A location that stands in no command's write set is in that of no pending word (R106). -/
theorem inPendingSet_of_unwritten (s : State) {l : List Location} {loc : Location}
    (h : ∀ i, ∀ q ∈ l, inWriteSet i q = false) (hmem : loc ∈ l) : inPendingSet s loc = false := by
  unfold inPendingSet
  split
  · rfl
  · split
    · next i _ => exact h i loc hmem
    · rfl

/-- While a command is pending BUSY stands alone, with WERR (R25, R105). -/
theorem statusWord_pending {s : State} {w : Word} (hf : s.flagsOk) (hp : s.phase = .pending w) :
    statusWord s = if s.statusWerr then 0x9 else 0x1 := by
  have hb := isBusy_pending hp
  obtain ⟨hpending, _⟩ := hf
  obtain ⟨hdone, herr, _⟩ := hpending hb
  rw [statusWord, hb, hdone, herr]
  cases s.statusWerr <;> rfl

theorem errcodeWord_pending {s : State} {w : Word} (hf : s.flagsOk) (hp : s.phase = .pending w) :
    errcodeWord s = 0 := by
  obtain ⟨hpending, _⟩ := hf
  obtain ⟨_, _, hcode⟩ := hpending (isBusy_pending hp)
  rw [errcodeWord_eq, hcode]
  rfl

/-- Settles O11: the read by whether its location is in the write set; the listed registers are in no
command's. -/
theorem readsWhileBusy : Obligations.ReadsWhileBusy := by
  intro s w a loc rest hf hp hl ha
  rw [step_host s _ rest ha]
  refine ⟨fun hin => ?_, fun hout => ?_, statusWord_pending hf hp, errcodeWord_pending hf hp, fun hmem => ?_⟩
  · exact congrArg _ (transaction_read_pendingSet (s := { s with agenda := rest }) hl hin)
  · rw [transaction_read (s := { s with agenda := rest }) hl hout, readLocation_withAgenda]
  · exact inPendingSet_of_unwritten s (fun i => by cases i <;> decide) hmem

/-! ### The bit buffers' windows -/

theorem bitStore_withResponse (s : State) (p : Response) (b : BitBuf) :
    bitStore { s with response := p } b = bitStore s b := by
  cases b <;> rfl

/-- The word addresses of a bit buffer's window, by the number of the word (R60, R64). -/
theorem locate_bitWord (b : BitBuf) {w : Nat} (h : w < Config.depth / 32) :
    locate (BitVec.ofNat 23 (bitBase b + 4 * w)) = some (.bitWord b w) := by
  have hwindow : bitWindow = 4 * (Config.depth / 32) := rfl
  exact locate_bit b w (by omega)

/-- Settles O16: the address selects word `w`, which is its 32 entries for a write and for a read. -/
theorem bitWindowLayout : Obligations.BitWindowLayout := by
  refine ⟨⟨rfl, rfl⟩, fun s b w v hp hw => ?_⟩
  have hl := locate_bitWord b hw
  refine ⟨_, transaction_write_idle v hl hp, ?_, fun j => ?_, bitWord s b w, ?_, fun k => bitWord_getLsbD s b w k⟩
  · simp only [writeLocation, putBitWord, putBits, bitStore_withResponse, bitStore_setBitStore_same]
  · exact (bitAt_congr b (bitStore_withResponse _ _ b) rfl j).trans (bitAt_putBitWord s b w v j)
  · rw [transaction_read hl (inPendingSet_idle hp _)]
    rfl

/-! ### The sample buffers' windows -/

theorem sampleStore_withResponse (s : State) (p : Response) (b : SampleBuf) :
    sampleStore { s with response := p } b = sampleStore s b := by
  cases b <;> rfl

theorem sampleAt_withResponse (s : State) (p : Response) (b : SampleBuf) (i : Nat) :
    sampleAt { s with response := p } b i = sampleAt s b i :=
  sampleAt_congr b (sampleStore_withResponse s p b) rfl i

/-- The address of the low word of an entry (R65). -/
theorem locate_sampleLo (b : SampleBuf) {i : Nat} (h : i < Config.depth) :
    locate (BitVec.ofNat 23 (sampleBase b + 8 * i)) = some (.sampleLo b i) := by
  have hwindow : sampleWindow = 8 * Config.depth := rfl
  have hentry : 8 * i / 8 = i := by omega
  rw [locate_sample b (8 * i) (by omega) (by omega), sampleLocation, if_pos (by omega), hentry]

/-- The address of the high word of an entry (R65). -/
theorem locate_sampleHi (b : SampleBuf) {i : Nat} (h : i < Config.depth) :
    locate (BitVec.ofNat 23 (sampleBase b + 8 * i + 4)) = some (.sampleHi b i) := by
  have hwindow : sampleWindow = 8 * Config.depth := rfl
  have hentry : (8 * i + 4) / 8 = i := by omega
  rw [Nat.add_assoc, locate_sample b (8 * i + 4) (by omega) (by omega), sampleLocation, if_neg (by omega), hentry]

/-- A write of an entry's low word keeps its high half (R65). -/
theorem sampleAt_putSampleWord_lo (s : State) (b : SampleBuf) (i : Nat) (v : Word) :
    sampleAt (putSampleWord s b (entryAddr b i) v) b i = joinHalves (hiHalf (sampleAt s b i)) v := by
  rw [sampleAt, sampleWord_putSampleWord_same, sampleWord_putSampleWord_apart _ _ _ _ _ (by omega), sampleAt,
    hiHalf_joinHalves]

/-- A write of an entry's high word keeps its low half (R65). -/
theorem sampleAt_putSampleWord_hi (s : State) (b : SampleBuf) (i : Nat) (v : Word) :
    sampleAt (putSampleWord s b (entryAddr b i + 4) v) b i = joinHalves v (loHalf (sampleAt s b i)) := by
  rw [sampleAt, sampleWord_putSampleWord_same, sampleWord_putSampleWord_apart _ _ _ _ _ (by omega), sampleAt,
    loHalf_joinHalves]

/-- A word written leaves every entry of which it is no part. -/
theorem sampleAt_putSampleWord_apart (s : State) (b : SampleBuf) (a j : Nat) (v : Word)
    (h : entryAddr b j + 8 ≤ a ∨ a + 4 ≤ entryAddr b j) :
    sampleAt (putSampleWord s b a v) b j = sampleAt s b j := by
  rw [sampleAt, sampleWord_putSampleWord_apart _ _ _ _ _ (by omega),
    sampleWord_putSampleWord_apart _ _ _ _ _ (by omega), sampleAt]

/-- A word written to a sample buffer touches that buffer's bytes alone. -/
theorem putSampleWord_frame (s : State) (b : SampleBuf) (a : Nat) (v : Word) (p : Response) :
    { putSampleWord s b a v with response := p } =
      { setSampleStore s b (sampleStore { putSampleWord s b a v with response := p } b) with response := p } := by
  rw [sampleStore_withResponse, putSampleWord, putSampleBytes, sampleStore_setSampleStore_same]

/-- Settles O17: the two addresses select the words of entry `i`, each of them one half. -/
theorem sampleWindowLayout : Obligations.SampleWindowLayout := by
  refine ⟨⟨rfl, rfl, fun _ _ => rfl⟩, fun s b i v hp hi => ?_⟩
  have hlo := locate_sampleLo b hi
  have hhi := locate_sampleHi b hi
  have idle := inPendingSet_idle hp
  refine ⟨_, _, transaction_write_idle v hlo hp, transaction_write_idle v hhi hp,
    putSampleWord_frame s b _ v _, putSampleWord_frame s b _ v _, ?_, ?_, fun j hj => ⟨?_, ?_⟩, ?_, ?_⟩
  · exact (sampleAt_withResponse _ _ b i).trans (sampleAt_putSampleWord_lo s b i v)
  · exact (sampleAt_withResponse _ _ b i).trans (sampleAt_putSampleWord_hi s b i v)
  · exact (sampleAt_withResponse _ _ b j).trans
      (sampleAt_putSampleWord_apart s b _ j v (by unfold entryAddr; omega))
  · exact (sampleAt_withResponse _ _ b j).trans
      (sampleAt_putSampleWord_apart s b _ j v (by unfold entryAddr; omega))
  · rw [transaction_read hlo (idle _)]
    exact congrArg Response.data (loHalf_joinHalves _ _).symm
  · rw [transaction_read hhi (idle _)]
    exact congrArg Response.data (hiHalf_joinHalves _ _).symm

end Sys2Proof.Machine
end

section
/-! PROOFS. The encoding (30_encoding.md): a command word by its two fields, decoding and encoding inverse to
each other (R80, R83, R86), an illegal word's acceptance and completion (R84), and which commands the scheme
registers reach (R85). -/

namespace Sys2Proof

/-! ### A word by its fields -/

/-- OPCODE is what the legality rule of R84 takes modulo 256. -/
theorem opcodeField_toNat (w : Word) : (opcodeField w).toNat = w.toNat % 256 := by
  simp [opcodeField]

/-- RSVD is zero exactly when nothing stands above the low eight bits. -/
theorem rsvdField_eq_zero_iff (w : Word) : rsvdField w = 0 ↔ w.toNat / 256 = 0 := by
  have hw : w.toNat < 2 ^ 32 := w.isLt
  have hfield : (rsvdField w).toNat = w.toNat / 256 := by
    simp only [rsvdField, BitVec.extractLsb'_toNat, Nat.shiftRight_eq_div_pow]
    omega
  rw [← hfield]
  exact BitVec.toNat_inj.symm

/-- Decoding a word whose RSVD is zero is R83's map on its OPCODE. -/
theorem decode_of_rsvd_zero {w : Word} (h : w.toNat / 256 = 0) : decode w = opcodeMap (w.toNat % 256) := by
  rw [decode, if_pos ((rsvdField_eq_zero_iff w).2 h), opcodeField_toNat]

theorem decode_of_rsvd_nonzero {w : Word} (h : w.toNat / 256 ≠ 0) : decode w = .error .reservedBitsSet := by
  rw [decode, if_neg (mt (rsvdField_eq_zero_iff w).1 h)]

/-! ### The opcode map and its inverse -/

theorem opcodeMap_opcode (i : Instr) : opcodeMap i.opcode.toNat = .ok i := by
  cases i <;> rfl

theorem Instr.opcode_bounds (i : Instr) : 1 ≤ i.opcode.toNat ∧ i.opcode.toNat ≤ 8 := by
  cases i <;> decide

/-- Every number from 1 to 8 is an opcode (R83). -/
theorem exists_opcode {n : Nat} (hlo : 1 ≤ n) (hhi : n ≤ 8) : ∃ i : Instr, i.opcode.toNat = n := by
  match n, hlo, hhi with
  | 1, _, _ => exact ⟨.noisePower, rfl⟩
  | 2, _, _ => exact ⟨.ebn0, rfl⟩
  | 3, _, _ => exact ⟨.noiseAdd, rfl⟩
  | 4, _, _ => exact ⟨.encode, rfl⟩
  | 5, _, _ => exact ⟨.decode, rfl⟩
  | 6, _, _ => exact ⟨.modulate, rfl⟩
  | 7, _, _ => exact ⟨.demodulate, rfl⟩
  | 8, _, _ => exact ⟨.snrMeasure, rfl⟩

theorem opcodeMap_unassigned (n : Nat) : opcodeMap (n + 9) = .error .opcodeUnassigned := rfl

/-- The map takes a number to a command only if it is that command's opcode. -/
theorem opcodeMap_eq_ok_iff (n : Nat) (i : Instr) : opcodeMap n = .ok i ↔ n = i.opcode.toNat := by
  refine ⟨fun h => ?_, fun h => h ▸ opcodeMap_opcode i⟩
  obtain rfl | ⟨hlo, hhi⟩ | hhi : n = 0 ∨ (1 ≤ n ∧ n ≤ 8) ∨ 9 ≤ n := by omega
  · cases h
  · obtain ⟨j, rfl⟩ := exists_opcode hlo hhi
    cases (opcodeMap_opcode j).symm.trans h
    rfl
  · obtain ⟨k, rfl⟩ := Nat.exists_eq_add_of_le' hhi
    cases h

/-- A word decodes to a command exactly when RSVD is zero and OPCODE is the command's (R83, R86). -/
theorem decode_eq_ok_iff (w : Word) (i : Instr) :
    decode w = .ok i ↔ w.toNat / 256 = 0 ∧ w.toNat % 256 = i.opcode.toNat := by
  by_cases h : w.toNat / 256 = 0
  · rw [decode_of_rsvd_zero h, opcodeMap_eq_ok_iff]
    exact (and_iff_right h).symm
  · rw [decode_of_rsvd_nonzero h]
    exact iff_of_false nofun fun hw => h hw.1

theorem encode_toNat (i : Instr) : (encode i).toNat = i.opcode.toNat := by
  cases i <;> rfl

/-- A word is the one encoded from a command exactly when RSVD is zero and OPCODE is the command's. -/
theorem eq_encode_iff (w : Word) (i : Instr) :
    w = encode i ↔ w.toNat / 256 = 0 ∧ w.toNat % 256 = i.opcode.toNat := by
  have hop := i.opcode_bounds
  rw [← BitVec.toNat_inj, encode_toNat]
  omega

theorem Instr.wellFormed_eq_true (i : Instr) : i.wellFormed = true := by
  cases i <;> rfl

/-- Settles O2: both sides say that RSVD is zero and OPCODE is the command's. -/
theorem decodeEncodeAgree : Obligations.DecodeEncodeAgree :=
  fun w i => ⟨i.wellFormed_eq_true, (decode_eq_ok_iff w i).trans (eq_encode_iff w i).symm⟩

/-- Settles O3: the opcodes are the numbers from 1 to 8, so a word decodes to the command its fields name. -/
theorem decodeTotal : Obligations.DecodeTotal := by
  refine fun w => ⟨fun ⟨hrsvd, hlo, hhi⟩ => ?_, fun hillegal => ?_⟩
  · obtain ⟨i, hi⟩ := exists_opcode hlo hhi
    exact ⟨i, (decode_eq_ok_iff w i).2 ⟨hrsvd, hi.symm⟩, hi⟩
  · cases hd : decode w with
    | error e => exact ⟨e, rfl⟩
    | ok i =>
      obtain ⟨hrsvd, hop⟩ := (decode_eq_ok_iff w i).1 hd
      exact absurd ⟨hrsvd, hop ▸ i.opcode_bounds⟩ hillegal

/-- A word of eight bits decodes by R83's map alone. -/
theorem decode_ofNat {n : Nat} (h : n < 256) : decode (BitVec.ofNat 32 n) = opcodeMap n := by
  have hn : (BitVec.ofNat 32 n).toNat = n := by
    rw [BitVec.toNat_ofNat]
    omega
  rw [decode_of_rsvd_zero (by omega), hn, Nat.mod_eq_of_lt h]

/-- Settles O1: a word of eight bits decodes by the opcode map, row for row. -/
theorem opcodeMapDecodes : Obligations.OpcodeMapDecodes := by
  have unassigned (op : Fin 247) : decode (BitVec.ofNat 32 (9 + op.val)) = .error .opcodeUnassigned := by
    rw [decode_ofNat (by omega), Nat.add_comm, opcodeMap_unassigned]
  exact ⟨Laws.WordLegal.noisePower.2, Laws.WordLegal.ebn0.2, Laws.WordLegal.noiseAdd.2, Laws.WordLegal.encode.2,
    Laws.WordLegal.decode.2, Laws.WordLegal.modulate.2, Laws.WordLegal.demodulate.2, Laws.WordLegal.snrMeasure.2,
    decode_ofNat (n := 0) (by decide), unassigned, rfl, rfl, rfl, rfl, rfl, rfl, rfl, rfl⟩

end Sys2Proof

namespace Sys2Proof.Machine

/-! ### An illegal word -/

/-- The completion of a pending word that decodes to no command (R84, R183). -/
theorem engineStep_illegal {s : State} {w : Word} {e : DecodeError} (hp : s.phase = .pending w)
    (hd : decode w = .error e) : engineStep s = .next (flagsError .illegalCommand s) := by
  simp only [engineStep, hp, hd, complete_error]

/-- Settles O5: acceptance does not look at the word, and the completion of an illegal word is the error
completion with code 1. -/
theorem illegalWordCompletesWithError : Obligations.IllegalWordCompletesWithError := by
  refine fun s w rest hillegal => ⟨fun hp ha => ?_, fun hp hnext => ?_⟩
  · have haccept : transaction (.write 4 w) { s with agenda := rest } =
        { acceptCommand w { s with agenda := rest } with response := .ok } :=
      transaction_write_idle w (locate_register .cmd) hp
    exact ⟨_, (step_host s _ rest ha).trans (congrArg _ haccept), rfl, isBusy_pending rfl⟩
  · obtain ⟨e, hd⟩ := (decodeTotal w).2 hillegal
    exact (step_engine s rest hnext).trans (engineStep_illegal hp hd)

/-! ### The scheme registers -/

/-- With a reserved scheme value a ChannelModel command completes with UNSUPPORTED_SCHEME, whatever the
lengths are (R85, R182). -/
theorem exec_reservedScheme {i : Instr} {s : State}
    (hi : i = .encode ∨ i = .decode ∨ i = .modulate ∨ i = .demodulate)
    (h : s.ctrlMod.toNat = 3 ∨ 2 ≤ s.ctrlCod.toNat) : exec i s = .next (flagsError .unsupportedScheme s) := by
  have hnone := schemeOf_reserved s h
  rcases hi with rfl | rfl | rfl | rfl
  · simp only [exec, execEncode, hnone, complete_error]
  · simp only [exec, execDecode, hnone, complete_error]
  · simp only [exec, execModulate, hnone, complete_error]
  · simp only [exec, execDemodulate, hnone, complete_error]

/-- `s` with other values in CTRL.MOD and CTRL.COD (R23), every other field as it is. -/
def setScheme (m c : BitVec 2) (s : State) : State := { s with ctrlMod := m, ctrlCod := c }

section Scheme
variable (m c : BitVec 2) (s : State)

/-- The samples a command reads are no scheme registers. -/
theorem sampleSeq_setScheme (b : SampleBuf) (n : Nat) :
    sampleSeq (setScheme m c s) b n = sampleSeq s b n :=
  List.map_congr_left fun j _ => sampleAt_congr b (by cases b <;> rfl) rfl j

theorem noisySample_setScheme (sd : F64) : noisySample (setScheme m c s) sd = noisySample s sd := by
  funext i
  rw [noisySample, noisySample, sampleAt_congr (s := s) .x rfl rfl i]
  rfl

/-- Where the writes of a command commute with a change of the scheme values, so does its completion. -/
theorem complete_setScheme {m c s} {t : State} {o p : Except ErrorCode State}
    (hp : p = o.map (setScheme m c)) (h : complete s o = .next t) :
    complete (setScheme m c s) p = .next (setScheme m c t) := by
  subst hp
  cases o with
  | ok u => cases h; rfl
  | error e => cases h; rfl

/-- The commands that do not read CTRL leave the same state with any scheme values (R85). -/
theorem exec_setScheme {i : Instr} {t : State}
    (hi : i = .noisePower ∨ i = .ebn0 ∨ i = .noiseAdd ∨ i = .snrMeasure) (h : exec i s = .next t) :
    exec i (setScheme m c s) = .next (setScheme m c t) := by
  have hseq := sampleSeq_setScheme m c s
  have hnoisy := noisySample_setScheme m c s
  have hcheck := apply_ite (Except.map (ε := ErrorCode) (setScheme m c))
  rcases hi with rfl | rfl | rfl | rfl
  · exact complete_setScheme (by simp only [hseq, hcheck]; rfl) h
  · exact complete_setScheme (by simp only [hseq, hcheck]; rfl) h
  · exact complete_setScheme (by simp only [hseq, hnoisy, hcheck]; rfl) h
  · exact complete_setScheme (by simp only [hseq, hcheck]; rfl) h

end Scheme

/-- Settles O41: a reserved value fails the scheme check of the four ChannelModel commands, and nothing that the
other four read or write is a scheme register. -/
theorem reservedSchemeReachesOnlyChannelModel : Obligations.ReservedSchemeReachesOnlyChannelModel :=
  ⟨fun _ _ hi h => exec_reservedScheme hi h, fun _ s _ m c hi h => exec_setScheme m c s hi h⟩

end Sys2Proof.Machine
end

section
/-! PROOFS. The lifecycle of a command (40_common.md): acceptance (R101), the engine's step (R102), writes while
busy (R104), the write sets and what a completion leaves unchanged (R106, R184), and how a pending command ends
(R107, R108). -/

namespace Sys2Proof.Machine

/-! ### Acceptance, completion and a dropped write -/

/-- The completion of a pending word that decodes to a command (R102). -/
theorem engineStep_command {s : State} {w : Word} {i : Instr} (hp : s.phase = .pending w)
    (hd : decode w = .ok i) : engineStep s = exec i s := by
  simp only [engineStep, hp, hd]

/-- Settles O4: the engine's step, on the state whose agenda is what remains. -/
theorem stepRunsDecodedCommand : Obligations.StepRunsDecodedCommand :=
  fun s _ _ rest hp hd _ hnext =>
    (step_engine s rest hnext).trans (engineStep_command (s := { s with agenda := rest }) hp hd)

/-- Settles O6: offset 4 selects CMD, whose write while idle is the acceptance. -/
theorem commandWriteIsAccepted : Obligations.CommandWriteIsAccepted := by
  intro s w rest hp ha
  have haccept : transaction (.write 4 w) { s with agenda := rest } =
      { acceptCommand w { s with agenda := rest } with response := .ok } :=
    transaction_write_idle w (locate_register .cmd) hp
  exact ⟨_, (step_host s _ rest ha).trans (congrArg _ haccept), isBusy_pending rfl, rfl⟩

/-- Settles O7: the address selects a location, whose write while a command is pending is dropped. -/
theorem writeWhileBusyIsDropped : Obligations.WriteWhileBusyIsDropped := by
  intro s w v a rest hp h4 hm ha
  obtain ⟨loc, hl⟩ := exists_locate h4 hm
  exact (step_host s _ rest ha).trans
    (congrArg _ (transaction_write_busy (s := { s with agenda := rest }) v hl hp))

/-! ### The phase and the agenda, by event -/

/-- No transaction ends a pending command (R104, R108). -/
theorem transaction_pending (t : Transaction) {s : State} {w : Word} (hp : s.phase = .pending w) :
    (transaction t s).phase = .pending w := by
  rcases transaction_cases t s with he | ⟨_, _, he⟩ | ⟨_, he⟩ | ⟨hidle, _⟩
  · rw [he]; exact hp
  · rw [he]; exact hp
  · rw [he]; exact hp
  · cases (isBusy_pending hp).symm.trans hidle

theorem writeLocation_agenda (s : State) (loc : Location) (v : Word) : (writeLocation s loc v).agenda = s.agenda := by
  cases loc with
  | register r => cases r <;> rfl
  | reserved => rfl
  | bitWord b w => exact putBits_agenda s b _ _
  | sampleLo b i => exact putSampleBytes_agenda s b _ _
  | sampleHi b i => exact putSampleBytes_agenda s b _ _

theorem transaction_agenda (t : Transaction) (s : State) : (transaction t s).agenda = s.agenda := by
  rcases transaction_cases t s with he | ⟨_, _, he⟩ | ⟨_, he⟩ | ⟨_, loc, v, _, he⟩
  · exact (congrArg State.agenda he).trans rfl
  · exact (congrArg State.agenda he).trans rfl
  · exact (congrArg State.agenda he).trans rfl
  · exact (congrArg State.agenda he).trans (writeLocation_agenda s loc v)

/-- The engine's step stops nowhere and leaves no command pending. -/
theorem engineStep_idle (s : State) : ∃ t, engineStep s = .next t ∧ t.phase = .idle ∧ t.agenda = s.agenda := by
  rcases engineStep_cases s with ⟨hp, he⟩ | ⟨_, _, ⟨e, he⟩ | ⟨u, he, _, hagenda, _⟩⟩
  · exact ⟨s, he, hp, rfl⟩
  · exact ⟨_, he, rfl, rfl⟩
  · exact ⟨_, he, rfl, hagenda⟩

theorem performEvent_next (e : Event) (s : State) : ∃ t, performEvent e s = .next t ∧ t.agenda = s.agenda := by
  cases e with
  | host t => exact ⟨_, rfl, transaction_agenda t s⟩
  | engine =>
    obtain ⟨t, he, _, ha⟩ := engineStep_idle s
    exact ⟨t, he, ha⟩
  | reset => exact ⟨_, rfl, rfl⟩

/-- Settles O13: by the next event, the engine's where none is left. -/
theorem pendingEndsByCompletionOrReset : Obligations.PendingEndsByCompletionOrReset := by
  intro s t w hp hs
  have completes (rest : List Event) (hnext : engineNext s rest) : t.phase = .idle := by
    obtain ⟨u, he, hidle, _⟩ := engineStep_idle { s with agenda := rest }
    cases hs.symm.trans ((step_engine s rest hnext).trans he)
    exact hidle
  cases ha : s.agenda with
  | nil => exact .inl ⟨completes [] (.inr ⟨ha, rfl⟩), .inl (.inr ⟨ha, rfl⟩)⟩
  | cons e rest =>
    cases e with
    | engine => exact .inl ⟨completes rest (.inl ha), .inl (.inl ha)⟩
    | reset =>
      cases hs.symm.trans (step_reset s rest ha)
      exact .inl ⟨rfl, .inr rfl⟩
    | host q =>
      cases hs.symm.trans (step_host s q rest ha)
      exact .inr ⟨transaction_pending q hp, q, rfl⟩

/-! ### Runs -/

theorem runSteps_succ {s t : State} (k : Nat) (h : step s = .next t) : runSteps (k + 1) s = runSteps k t := by
  simp only [runSteps, h]

/-- Settles O23, by induction on the agenda: each event leaves the rest of it, and the step after the last one is
the engine's. -/
theorem everyRunComesToIdle : Obligations.EveryRunComesToIdle := by
  intro s
  generalize hl : s.agenda = l
  induction l generalizing s with
  | nil =>
    obtain ⟨t, he, hidle, ha⟩ := engineStep_idle { s with agenda := [] }
    have hstep := (step_engine s [] (.inr ⟨hl, rfl⟩)).trans he
    exact ⟨t, runSteps_succ 0 hstep, hidle, ha⟩
  | cons e rest ih =>
    obtain ⟨t, he, ha⟩ := performEvent_next e { s with agenda := rest }
    have hstep := (step_event s e rest hl).trans he
    obtain ⟨v, hrun, hv⟩ := ih t ha
    exact ⟨v, (runSteps_succ _ hstep).trans hrun, hv⟩

/-! ### The write sets -/

theorem inPendingSet_command {s : State} {w : Word} {i : Instr} (hp : s.phase = .pending w) (hd : decode w = .ok i)
    (loc : Location) : inPendingSet s loc = inWriteSet i loc := by
  simp only [inPendingSet, hp, hd]

theorem inPendingSet_illegal {s : State} {w : Word} {e : DecodeError} (hp : s.phase = .pending w)
    (hd : decode w = .error e) (loc : Location) : inPendingSet s loc = false := by
  simp only [inPendingSet, hp, hd]

theorem decode_encode (i : Instr) : decode (encode i) = .ok i :=
  ((decodeEncodeAgree (encode i) i).2).2 rfl

/-- A word that is no command's decodes to none. -/
theorem exists_decode_error {w : Word} (h : ∀ i, w ≠ encode i) : ∃ e, decode w = .error e := by
  cases hd : decode w with
  | error e => exact ⟨e, rfl⟩
  | ok i => exact absurd (((decodeEncodeAgree w i).2).1 hd) (h i)

/-! ### What a completion leaves unchanged -/

/-- `u` reads as `s` at every location outside the write set of `i` (R106, R184). -/
def unchangedOutside (i : Instr) (s u : State) : Prop :=
  ∀ loc, inWriteSet i loc = false → readLocation u loc = readLocation s loc

/-- The write set by its parts: registers, BB, and one sample buffer. BA is in none. -/
theorem unchangedOutside_of_parts {i : Instr} {s u : State} (hcount : u.resetCount = s.resetCount)
    (hreg : ∀ r, r ∉ writeSetRegs i → readReg u r = readReg s r) (hba : u.ba = s.ba)
    (hbb : writesBB i = false → u.bb = s.bb)
    (hsample : ∀ b, writesSamples i ≠ some b → sampleStore u b = sampleStore s b) : unchangedOutside i s u := by
  refine fun loc hout => readLocation_congr loc hcount ?_ ?_ ?_ ?_
  · rintro r rfl
    exact hreg r (of_decide_eq_false hout)
  · rintro b w rfl
    cases b with
    | ba => exact hba
    | bb => exact hbb hout
  · rintro b k rfl
    exact hsample b (of_decide_eq_false hout)
  · rintro b k rfl
    exact hsample b (of_decide_eq_false hout)

/-- The registers that show SIGPWR and NOISEPWR (R36, R37). -/
def powerRegs : List Reg := [.sigpwrLo, .sigpwrHi, .noisepwrLo, .noisepwrHi]

theorem readReg_setPowers (s : State) (ps pn : F64) {r : Reg} (h : r ∉ powerRegs) :
    readReg (setPowers s ps pn) r = readReg s r := by
  cases r with
  | sigpwrLo | sigpwrHi | noisepwrLo | noisepwrHi => simp [powerRegs] at h
  | _ => rfl

theorem readReg_withEbn0 (s : State) (v : F64) {r : Reg} (h : r ∉ [Reg.ebn0Lo, .ebn0Hi]) :
    readReg { s with ebn0 := v } r = readReg s r := by
  cases r with
  | ebn0Lo | ebn0Hi => simp at h
  | _ => rfl

theorem readReg_withMeasSnr (s : State) (v : F64) {r : Reg} (h : r ∉ [Reg.measSnrLo, .measSnrHi]) :
    readReg { s with measSnr := v } r = readReg s r := by
  cases r with
  | measSnrLo | measSnrHi => simp at h
  | _ => rfl

theorem readReg_withLenY (s : State) (n : Word) {r : Reg} (h : r ≠ .lenY) :
    readReg { s with lenY := n } r = readReg s r := by
  cases r with
  | lenY => exact absurd rfl h
  | _ => rfl

theorem readReg_outputY (s : State) (out : List F64) {r : Reg} (h : r ≠ .lenY) :
    readReg (outputY s out) r = readReg s r := by
  cases r with
  | lenY => exact absurd rfl h
  | _ => rfl

theorem readReg_outputX (s : State) (out : List F64) {r : Reg} (h : r ≠ .lenX) :
    readReg (outputX s out) r = readReg s r := by
  cases r with
  | lenX => exact absurd rfl h
  | _ => rfl

theorem readReg_outputBits (s : State) (out : List Bool) {r : Reg} (h : r ≠ .lenBb) :
    readReg (outputBits s out) r = readReg s r := by
  cases r with
  | lenBb => exact absurd rfl h
  | _ => rfl

section Writes
variable {i : Instr} (s : State)

/-- A sequence written to BB with its length is all that ENCODE, DECODE and DEMODULATE write. -/
theorem outputBits_unchangedOutside (out : List Bool) (hregs : writeSetRegs i = [.lenBb]) (hbb : writesBB i = true) :
    unchangedOutside i s (outputBits s out) := by
  refine unchangedOutside_of_parts rfl (fun r hr => ?_) rfl (fun h => ?_) (fun b _ => by cases b <;> rfl)
  · exact readReg_outputBits s out (by simpa [hregs] using hr)
  · cases hbb.symm.trans h

theorem modulate_unchangedOutside (out : List F64) : unchangedOutside .modulate s (outputX s out) := by
  refine unchangedOutside_of_parts rfl (fun r hr => ?_) rfl (fun _ => rfl) (fun b hb => ?_)
  · exact readReg_outputX s out (by simpa [writeSetRegs] using hr)
  · cases b with
    | x => exact absurd rfl hb
    | y => rfl

theorem noiseAdd_unchangedOutside (out : List F64) (ps pn : F64) :
    unchangedOutside .noiseAdd s (setPowers (outputY s out) ps pn) := by
  refine unchangedOutside_of_parts rfl (fun r hr => ?_) rfl (fun _ => rfl) (fun b hb => ?_)
  · obtain ⟨hlen, hpow⟩ := List.ne_and_not_mem_of_not_mem_cons hr
    exact (readReg_setPowers _ ps pn hpow).trans (readReg_outputY s out hlen)
  · cases b with
    | x => rfl
    | y => exact absurd rfl hb

theorem noiseAdd_empty_unchangedOutside : unchangedOutside .noiseAdd s { s with lenY := 0 } :=
  unchangedOutside_of_parts rfl (fun _ hr => readReg_withLenY s 0 (List.ne_of_not_mem_cons hr)) rfl (fun _ => rfl)
    (fun b _ => by cases b <;> rfl)

theorem noisePower_unchangedOutside (ps pn : F64) : unchangedOutside .noisePower s (setPowers s ps pn) :=
  unchangedOutside_of_parts rfl (fun _ hr => readReg_setPowers s ps pn hr) rfl (fun _ => rfl)
    (fun b _ => by cases b <;> rfl)

theorem ebn0_unchangedOutside (ps pn v : F64) : unchangedOutside .ebn0 s { setPowers s ps pn with ebn0 := v } := by
  refine unchangedOutside_of_parts rfl (fun r hr => ?_) rfl (fun _ => rfl) (fun b _ => by cases b <;> rfl)
  have hrows : r ∉ powerRegs ++ [.ebn0Lo, .ebn0Hi] := hr
  obtain ⟨hpow, hebn0⟩ := not_or.1 (mt List.mem_append.2 hrows)
  exact (readReg_withEbn0 _ v hebn0).trans (readReg_setPowers s ps pn hpow)

theorem snrMeasure_unchangedOutside (ps pn v : F64) :
    unchangedOutside .snrMeasure s { setPowers s ps pn with measSnr := v } := by
  refine unchangedOutside_of_parts rfl (fun r hr => ?_) rfl (fun _ => rfl) (fun b _ => by cases b <;> rfl)
  have hrows : r ∉ powerRegs ++ [.measSnrLo, .measSnrHi] := hr
  obtain ⟨hpow, hsnr⟩ := not_or.1 (mt List.mem_append.2 hrows)
  exact (readReg_withMeasSnr _ v hsnr).trans (readReg_setPowers s ps pn hpow)

end Writes

theorem readLocation_flagsSuccess (s : State) {loc : Location} (h1 : loc ≠ .register .status)
    (h2 : loc ≠ .register .errcode) : readLocation (flagsSuccess s) loc = readLocation s loc := by
  cases loc with
  | register r => exact readReg_flagsSuccess s r (mt (congrArg _) h1) (mt (congrArg _) h2)
  | _ => rfl

theorem readLocation_flagsError (e : ErrorCode) (s : State) {loc : Location} (h1 : loc ≠ .register .status)
    (h2 : loc ≠ .register .errcode) : readLocation (flagsError e s) loc = readLocation s loc := by
  cases loc with
  | register r => exact readReg_flagsError e s r (mt (congrArg _) h1) (mt (congrArg _) h2)
  | _ => rfl

/-- What a command's checks and results come to: an error, or a state that differs within the write set. -/
def writesWithin (i : Instr) (s : State) (o : Except ErrorCode State) : Prop :=
  ∀ u, o = .ok u → unchangedOutside i s u

section Within
variable {i : Instr} {s : State}

theorem writesWithin_error (e : ErrorCode) : writesWithin i s (.error e) := nofun

theorem writesWithin_ok {u : State} (h : unchangedOutside i s u) : writesWithin i s (.ok u) := by
  rintro _ ⟨⟩
  exact h

/-- A check of R182 before the rest of the command. -/
theorem writesWithin_check {c : Prop} [Decidable c] {e : ErrorCode} {o : Except ErrorCode State}
    (h : writesWithin i s o) : writesWithin i s (if c then .error e else o) := by
  split
  · exact writesWithin_error e
  · exact h

end Within

/-- The execution of a command is a completion whose writes lie within the command's write set (R102, R106). -/
theorem exec_writesWithin (i : Instr) (s : State) : ∃ o, exec i s = complete s o ∧ writesWithin i s o := by
  cases i with
  | noisePower =>
    exact ⟨_, rfl, writesWithin_check (writesWithin_check (writesWithin_ok (noisePower_unchangedOutside s _ _)))⟩
  | ebn0 =>
    exact ⟨_, rfl, writesWithin_check (writesWithin_check (writesWithin_ok (ebn0_unchangedOutside s _ _ _)))⟩
  | noiseAdd =>
    refine ⟨_, rfl, writesWithin_check ?_⟩
    split
    · exact writesWithin_ok (noiseAdd_empty_unchangedOutside s)
    · exact writesWithin_ok (noiseAdd_unchangedOutside s _ _ _)
  | encode =>
    refine ⟨_, rfl, ?_⟩
    split
    · exact writesWithin_error _
    · exact writesWithin_check (writesWithin_check (writesWithin_ok (outputBits_unchangedOutside s _ rfl rfl)))
  | decode =>
    refine ⟨_, rfl, ?_⟩
    split
    · exact writesWithin_error _
    · exact writesWithin_check (writesWithin_ok (outputBits_unchangedOutside s _ rfl rfl))
  | modulate =>
    refine ⟨_, rfl, ?_⟩
    split
    · exact writesWithin_error _
    · exact writesWithin_check (writesWithin_check (writesWithin_ok (modulate_unchangedOutside s _)))
  | demodulate =>
    refine ⟨_, rfl, ?_⟩
    split
    · exact writesWithin_error _
    · exact writesWithin_check (writesWithin_ok (outputBits_unchangedOutside s _ rfl rfl))
  | snrMeasure =>
    exact ⟨_, rfl, writesWithin_check (writesWithin_check (writesWithin_check
      (writesWithin_ok (snrMeasure_unchangedOutside s _ _ _))))⟩

/-- A command's completion changes what its writes change, and STATUS and ERRCODE (R102, R184). -/
theorem exec_unchanged {i : Instr} {s t : State} {loc : Location} (hs : exec i s = .next t)
    (hout : inWriteSet i loc = false) (h1 : loc ≠ .register .status) (h2 : loc ≠ .register .errcode) :
    readLocation t loc = readLocation s loc := by
  obtain ⟨o, ho, hw⟩ := exec_writesWithin i s
  rw [ho] at hs
  cases o with
  | ok u =>
    cases hs
    exact (readLocation_flagsSuccess u h1 h2).trans (hw u rfl loc hout)
  | error e =>
    cases hs
    exact readLocation_flagsError e s h1 h2

/-- The write set of every command, as R106 lists it, against the model's table. -/
theorem inWriteSet_table (i : Instr) (loc : Location) :
    inWriteSet i loc = true ↔
      (∃ r ∈ writeSetRegs i, loc = .register r) ∨ (writesBB i = true ∧ ∃ k, loc = .bitWord .bb k) ∨
        ∃ b, writesSamples i = some b ∧ ∃ k, loc = .sampleLo b k ∨ loc = .sampleHi b k := by
  cases loc with
  | register r => simp [inWriteSet]
  | reserved => simp [inWriteSet]
  | bitWord b w => cases b <;> simp [inWriteSet]
  | sampleLo b k => simp [inWriteSet]
  | sampleHi b k => simp [inWriteSet]

/-- Settles O12: the write set is that of the command the word decodes to; a command's completion changes nothing
outside it but STATUS and ERRCODE, and an illegal word's changes those two alone. -/
theorem writeSetCoversEveryChange : Obligations.WriteSetCoversEveryChange := by
  refine ⟨fun s i loc hp => ?_, fun s w loc hp hw => ?_, fun s t w rest loc hp hnext hs hout h1 h2 => ?_⟩
  · rw [inPendingSet_command hp (decode_encode i), inWriteSet_table]
    cases i <;> simp [writeSetRegs, writesBB, writesSamples]
  · obtain ⟨e, hd⟩ := exists_decode_error hw
    exact inPendingSet_illegal hp hd loc
  · have hstep := (step_engine s rest hnext).symm.trans hs
    have hread : readLocation t loc = readLocation { s with agenda := rest } loc := by
      cases hd : decode w with
      | ok i =>
        rw [engineStep_command (s := { s with agenda := rest }) hp hd] at hstep
        exact exec_unchanged hstep ((inPendingSet_command hp hd loc).symm.trans hout) h1 h2
      | error e =>
        rw [engineStep_illegal (s := { s with agenda := rest }) hp hd] at hstep
        cases hstep
        exact readLocation_flagsError _ _ h1 h2
    exact hread.trans (readLocation_withAgenda s rest loc)

end Sys2Proof.Machine
end

section
/-! PROOFS. The shared datapath functions (40_common.md): NaNs and overflow (R109), the mean square (R110, R111), the
constants (R112) and the hard decision (R114), in binary64 arithmetic (R11; IEEE 754 by log 12). -/

namespace Sys2Proof.Machine

/-! ### Overflow -/

/-- Settles O47: rounding stays below the infinity's pattern exactly below the bound, and never passes it. -/
theorem roundingOverflowsToInfinity : Obligations.RoundingOverflowsToInfinity := by
  intro neg num den hd
  obtain ⟨_, hinf, _⟩ := isRoundingOf_roundRatio neg num den hd
  exact ⟨(isFinite_roundRatio neg num den).trans (roundPattern_lt_infPattern num den hd),
    fun h => ⟨signBit_roundRatio neg num den, hinf h⟩⟩

/-! ### Invalid operations and NaN operands -/

section NaNs
variable {a b c : F64}

@[simp] theorem isNaN_fneg (a : F64) : isNaN (fneg a) = isNaN a := by
  simp [isNaN]

theorem addWith_NaN (op : FloatOp) (h : isNaN a = true ∨ isNaN c = true) : isNaN (addWith op a b c) = true := by
  rw [isNaN_iff, isNaN_iff] at h
  have hresult : addWith op a b c = nanResult op a b := by
    rcases h with h | h
    · simp only [addWith, h]
    · cases ha : unpack a <;> simp only [addWith, ha, h]
  rw [hresult, isNaN_nanResult]

theorem fmul_NaN (h : isNaN a = true ∨ isNaN b = true) : isNaN (fmul a b) = true := by
  rw [isNaN_iff, isNaN_iff] at h
  have hresult : fmul a b = nanResult .mul a b := by
    rcases h with h | h
    · simp only [fmul, h]
    · cases ha : unpack a <;> simp only [fmul, ha, h]
  rw [hresult, isNaN_nanResult]

theorem fdiv_NaN (h : isNaN a = true ∨ isNaN b = true) : isNaN (fdiv a b) = true := by
  rw [isNaN_iff, isNaN_iff] at h
  have hresult : fdiv a b = nanResult .div a b := by
    rcases h with h | h
    · simp only [fdiv, h]
    · cases ha : unpack a <;> simp only [fdiv, ha, h]
  rw [hresult, isNaN_nanResult]

theorem fsqrt_NaN (h : isNaN a = true) : isNaN (fsqrt a) = true := by
  simp only [fsqrt, (isNaN_iff a).1 h, isNaN_nanResult]

/-- The root of a negative value, -infinity included, is a NaN. -/
theorem fsqrt_negative (hs : signBit a = true) (h0 : magnitudeBits a ≠ 0) (hn : isNaN a = false) :
    isNaN (fsqrt a) = true := by
  rcases finite_or_infinite hn with hf | hi
  · have hm : patternMagnitude (magnitudeBits a) ≠ 0 := mt (patternMagnitude_eq_zero _).1 h0
    simp only [fsqrt, unpack_of_finite a hf, hs, if_neg hm, if_true, isNaN_nanResult]
  · simp only [fsqrt, unpack_of_infinite a hi, hs, isNaN_nanResult]

theorem addWith_opposite_infinities (op : FloatOp) (ha : magnitudeBits a = infPattern)
    (hc : magnitudeBits c = infPattern) (h : signBit a ≠ signBit c) : isNaN (addWith op a b c) = true := by
  simp only [addWith, unpack_of_infinite a ha, unpack_of_infinite c hc, if_neg h, isNaN_nanResult]

theorem fmul_infinity_zero (ha : magnitudeBits a = infPattern) (hb : magnitudeBits b = 0) :
    isNaN (fmul a b) = true ∧ isNaN (fmul b a) = true := by
  simp only [fmul, unpack_of_infinite a ha, unpack_of_zero b hb, if_true, isNaN_nanResult, and_self]

theorem fdiv_zero_zero (ha : magnitudeBits a = 0) (hb : magnitudeBits b = 0) : isNaN (fdiv a b) = true := by
  simp only [fdiv, unpack_of_zero a ha, unpack_of_zero b hb, if_true, isNaN_nanResult]

theorem fdiv_infinity_infinity (ha : magnitudeBits a = infPattern) (hb : magnitudeBits b = infPattern) :
    isNaN (fdiv a b) = true := by
  simp only [fdiv, unpack_of_infinite a ha, unpack_of_infinite b hb, isNaN_nanResult]

end NaNs

/-- Settles O46: each operation by the classes of its operands; a difference adds the second operand negated. -/
theorem invalidOperationsGiveNaN : Obligations.InvalidOperationsGiveNaN := by
  refine ⟨fun a b h => ⟨addWith_NaN _ h, ?_, fmul_NaN h, fdiv_NaN h⟩, fun a h => ?_, fun b c => fdiv_zero_zero,
    fun a b ha => ⟨addWith_opposite_infinities _ ha, fun hb hs => ?_, fmul_infinity_zero ha,
      fdiv_infinity_infinity ha⟩⟩
  · exact addWith_NaN _ (by simpa using h)
  · cases hn : isNaN a with
    | true => exact fsqrt_NaN hn
    | false =>
      obtain ⟨hs, h0⟩ := h.resolve_left (by simp [hn])
      exact fsqrt_negative hs h0 hn
  · exact addWith_opposite_infinities _ ha (by simpa using hb) (by simp [hs])

/-! ### The hard decision -/

theorem signedUnits_pos_iff (neg : Bool) (m : Nat) : 0 < signedUnits neg m ↔ neg = false ∧ m ≠ 0 := by
  cases neg <;> simp [signedUnits, Nat.pos_iff_ne_zero]

theorem unitsOf_pos_iff (a : F64) : 0 < unitsOf a ↔ signBit a = false ∧ magnitudeBits a ≠ 0 := by
  rw [unitsOf, signedUnits_pos_iff, ne_eq, patternMagnitude_eq_zero]

theorem hard_of_key {v : F64} {k : Int} (h : orderKey (unpack v) = some k) : hard v = decide (0 < k) := by
  have hzero : orderKey (unpack fzero) = some 0 := rfl
  exact fgt_of_keys h hzero

/-- Settles O35: a NaN has no key, and the key of another value is positive exactly for sign 0 and a value not
zero. -/
theorem hardDecisionOfEveryValue : Obligations.HardDecisionOfEveryValue := by
  intro v
  cases hn : isNaN v with
  | true =>
    have hfalse : hard v = false := fgt_of_no_key (.inl (orderKey_of_NaN v hn))
    simp [hfalse]
  | false =>
    rcases finite_or_infinite hn with hf | hi
    · rw [hard_of_key (orderKey_of_finite v hf), decide_eq_true_iff, unitsOf_pos_iff]
      exact (and_iff_right rfl).symm
    · have hkey : orderKey (unpack v) = some (signedUnits (signBit v) (2 ^ 2098)) := by
        rw [unpack_of_infinite v hi]
        rfl
      have htop := (Nat.two_pow_pos 2098).ne'
      have h0 : magnitudeBits v ≠ 0 := by
        rw [hi]
        decide
      rw [hard_of_key hkey, decide_eq_true_iff, signedUnits_pos_iff, and_iff_left htop, and_iff_left h0]
      exact (and_iff_right rfl).symm

/-! ### The mean square -/

theorem two_pow_mul_two_le {i j : Nat} (h : i < j) : 2 ^ i * 2 ≤ 2 ^ j := by
  rw [← Nat.pow_succ]
  exact Nat.pow_le_pow_right two_pos h

/-- `n` is far below the overflow bound. -/
theorem isFinite_f64 {n : Nat} (h : n ≤ 2 ^ 53) : isFinite (f64 n) = true := by
  rw [f64, isFinite_roundRatio, roundPattern_lt_infPattern _ _ one_pos]
  have hpos := Nat.two_pow_pos 1074
  have hscale := two_pow_mul_two_le (i := 1074) (j := 2045) (by norm_num)
  generalize 2 ^ 1074 = unit at hpos hscale ⊢
  generalize 2 ^ 2045 = top at hscale ⊢
  have hn : n * unit ≤ 2 ^ 53 * unit := Nat.mul_le_mul_right unit h
  omega

/-- `f64(n)` does not round (R11): a finite value equals `n`, so none nearest to `n` differs from it. -/
theorem unitsOf_f64 {n : Nat} (h : n ≤ 2 ^ 53) : unitsOf (f64 n) = n * 2 ^ 1074 := by
  obtain ⟨p, hp, hmag⟩ := exists_pattern_of_le n h
  have hlt := hp.trans infPattern_lt
  have hvalue : unitsOf (packBits false p) = signedUnits false (n * 2 ^ 1074) := by
    rw [unitsOf, signBit_packBits _ _ hlt, magnitudeBits_packBits _ _ hlt, hmag]
  obtain ⟨hnear, _⟩ := roundRatio_nearest false (n * 2 ^ 1074) 1 one_pos (isFinite_f64 h) (packBits false p)
  rw [hvalue, Nat.cast_one, mul_one, mul_one, sub_self, Int.natAbs_zero] at hnear
  have hexact : unitsOf (f64 n) = signedUnits false (n * 2 ^ 1074) :=
    sub_eq_zero.1 (Int.natAbs_eq_zero.1 (Nat.le_zero.1 hnear))
  rw [hexact, signedUnits, if_neg Bool.false_ne_true, Nat.cast_mul, Nat.cast_pow, Nat.cast_ofNat]

/-- The differences of two sequences of one length, entry by entry. -/
theorem zipWith_fsub (a b : List F64) (h : a.length = b.length) :
    List.zipWith (fun va vb => fsub vb va) a b =
      (List.range a.length).map (fun k => fsub (b.getD k fzero) (a.getD k fzero)) := by
  refine List.ext_getElem (by simp [h]) fun k hk _ => ?_
  have hb : k < b.length := by simpa [h] using hk
  have ha : k < a.length := by omega
  simp [ha, hb]

/-- Settles O27: the sum is a left fold, and `f64` is exact on the lengths. -/
theorem meanSquareOrder : Obligations.MeanSquareOrder :=
  ⟨rfl, fun _ _ => List.foldl_append, fun _ => rfl, fun _ h => ⟨isFinite_f64 h, unitsOf_f64 h⟩,
    fun a b h => congrArg meansq (zipWith_fsub a b h)⟩

/-! ### The constants -/

/-- `INV_SQRT10` of R112. -/
theorem invSqrt10_eq : fdiv fone (fsqrt ften) = 0x3FD43D136248490F := by decide +kernel

/-- Settles O37: each constant is evaluated from `INV_SQRT10` or from its own operands. -/
theorem constantsByTheirOperations : Obligations.ConstantsByTheirOperations := by
  unfold Obligations.ConstantsByTheirOperations
  rw [invSqrt10_eq]
  decide +kernel

end Sys2Proof.Machine
end

section
/-! PROOFS. The SNR controller (41_snr_controller.md): the checks on the length of X (R182) and what NOISE_POWER
(R121) and EBN0 (R122) leave. -/

namespace Sys2Proof.Machine

/-! ### The checks on LEN_X -/

/-- R182: a failed capacity check completes on the state it found, whatever the command would have done next. -/
theorem complete_aboveCapacity (s : State) {n : Nat} (o : Except ErrorCode State) (h : Config.depth < n) :
    complete s (if overCapacity n then .error .capacity else o) = .next (flagsError .capacity s) := by
  rw [if_pos (overCapacity_eq_true.2 h), complete_error]

/-- R182: an empty input passes the capacity check and fails the next one. -/
theorem complete_emptyInput (s : State) {n : Nat} (o : Except ErrorCode State) (h : n = 0) :
    complete s (if overCapacity n then .error .capacity else if n = 0 then .error .emptyInput else o) =
      .next (flagsError .emptyInput s) := by
  have hfits : ¬ overCapacity n = true := by
    rw [overCapacity_eq_true]
    omega
  rw [if_neg hfits, if_pos h, complete_error]

/-! ### The frame -/

/-- Two states of one reset with the same four memories read alike at every byte of the windows. -/
theorem byteAt_of_memories {s t : State} (hba : t.ba = s.ba) (hbb : t.bb = s.bb) (hx : t.x = s.x) (hy : t.y = s.y)
    (hr : t.resetCount = s.resetCount) (a : Nat) : byteAt t a = byteAt s a := by
  refine byteAt_congr (fun b => ?_) (fun b => ?_) hr a
  · cases b with
    | ba => exact hba
    | bb => exact hbb
  · cases b with
    | x => exact hx
    | y => exact hy

/-! ### The two commands -/

/-- Settles O25: each check's completion is its error's, and success leaves the two powers and the flags; no store
is written. -/
theorem noisePowerRule : Obligations.NoisePowerRule := by
  refine ⟨rfl, fun s => ⟨complete_aboveCapacity s _, complete_emptyInput s _, fun hpos hfits => ?_⟩⟩
  exact ⟨_, execNoisePower_success s hfits hpos.ne', rfl, byteAt_of_memories rfl rfl rfl rfl rfl⟩

/-- Settles O26: as O25, with Eb/N0 computed from the two powers of this execution. -/
theorem ebn0Rule : Obligations.Ebn0Rule := by
  refine ⟨rfl, fun s => ⟨complete_aboveCapacity s _, complete_emptyInput s _, fun hpos hfits => ?_⟩⟩
  exact ⟨_, execEbn0_success s hfits hpos.ne', rfl, byteAt_of_memories rfl rfl rfl rfl rfl⟩

end Sys2Proof.Machine
end

section
/-! PROOFS. The noise generator (42_awgn.md): what NOISE_ADD leaves (R132) and on what its results depend (R133). -/

namespace Sys2Proof.Machine

/-! ### The state NOISE_ADD leaves -/

section NoiseAdd
variable (s : State)

/-- The state after a NOISE_ADD that passes its check on an input not empty (`exec_noiseAdd_success`). -/
def noiseAdded : State :=
  let ps := meansq (sampleSeq s .x s.lenX.toNat)
  flagsSuccess (setPowers (outputY s (noisySeq s)) ps (targetNoisePower ps s.snrDb))

theorem exec_noiseAdd_success (hpos : 0 < s.lenX.toNat) (hfits : s.lenX.toNat ≤ Config.depth) :
    exec .noiseAdd s = .next (noiseAdded s) :=
  execNoiseAdd_success s hfits hpos.ne'

theorem noiseAdded_sigpwr : (noiseAdded s).sigpwr = meansq (sampleSeq s .x s.lenX.toNat) := rfl

theorem noiseAdded_noisepwr : (noiseAdded s).noisepwr = targetNoisePower (noiseAdded s).sigpwr s.snrDb := rfl

theorem noisySeq_length : (noisySeq s).length = s.lenX.toNat := by
  rw [noisySeq, List.length_map, List.length_range]

/-- The noise is scaled by the root of the noise power that the command reports. -/
theorem noisySeq_getElem {i : Nat} (h : i < (noisySeq s).length) :
    (noisySeq s)[i] = noisySample s (fsqrt (noiseAdded s).noisepwr) i := by
  simp only [noisySeq, List.getElem_map, List.getElem_range]
  rfl

theorem noiseAdded_lenY : (noiseAdded s).lenY = s.lenX := by
  change BitVec.ofNat 32 (noisySeq s).length = s.lenX
  rw [noisySeq_length, BitVec.ofNat_toNat, BitVec.setWidth_eq]

/-- Only Y, LEN_Y, the two powers and the flags differ from the state before. -/
theorem noiseAdded_frame : noiseAdded s =
    { s with
      y := (noiseAdded s).y
      lenY := s.lenX
      sigpwr := (noiseAdded s).sigpwr
      noisepwr := (noiseAdded s).noisepwr
      errcode := 0
      statusErr := false
      statusDone := true
      phase := .idle } :=
  congrArg (fun n => { noiseAdded s with lenY := n }) (noiseAdded_lenY s)

/-- The powers and the flags are no part of Y. -/
theorem sampleAt_noiseAdded (i : Nat) :
    sampleAt (noiseAdded s) .y i = sampleAt (outputY s (noisySeq s)) .y i :=
  sampleAt_congr .y rfl rfl i

theorem sampleAt_noiseAdded_inside {i : Nat} (h : i < s.lenX.toNat) :
    sampleAt (noiseAdded s) .y i = noisySample s (fsqrt (noiseAdded s).noisepwr) i := by
  rw [← noisySeq_length] at h
  rw [sampleAt_noiseAdded, sampleAt_outputY, dif_pos h, noisySeq_getElem]

theorem sampleAt_noiseAdded_outside {i : Nat} (h : s.lenX.toNat ≤ i) :
    sampleAt (noiseAdded s) .y i = sampleAt s .y i := by
  rw [← noisySeq_length] at h
  rw [sampleAt_noiseAdded, sampleAt_outputY, dif_neg h.not_gt]

theorem byteAt_noiseAdded {a : Nat} (h : a < entryAddr .y 0 ∨ entryAddr .y s.lenX.toNat ≤ a) :
    byteAt (noiseAdded s) a = byteAt s a := by
  have hput : byteAt (noiseAdded s) a = byteAt (putSamples s .y 0 (noisySeq s)) a :=
    byteAt_of_memories rfl rfl rfl rfl rfl a
  rw [hput]
  apply byteAt_putSamples
  rwa [Nat.zero_add, noisySeq_length]

end NoiseAdd

/-- Settles O28: the two checks in their order; past them, what `noiseAdded` holds, part by part. -/
theorem noiseAddRule : Obligations.NoiseAddRule := by
  refine ⟨rfl, fun s => ⟨complete_aboveCapacity s _, execNoiseAdd_empty s, fun hpos hfits => ?_⟩⟩
  exact ⟨noiseAdded s, exec_noiseAdd_success s hpos hfits, noiseAdded_frame s,
    fun _ => sampleAt_noiseAdded_inside s, fun _ => sampleAt_noiseAdded_outside s, fun _ => byteAt_noiseAdded s⟩

/-! ### What the noise depends on -/

/-- The same entries make the same sequence (R9). -/
theorem sampleSeq_of_entries {s u : State} {b : SampleBuf} {n : Nat}
    (h : ∀ i, i < n → sampleAt u b i = sampleAt s b i) : sampleSeq u b n = sampleSeq s b n :=
  List.map_congr_left fun i hi => h i (List.mem_range.1 hi)

/-- Beside its own entry of X, a noisy sample depends on the seed and the scale alone. -/
theorem noisySample_of_entry {s u : State} {i : Nat} (sd : F64) (hseed : u.seed = s.seed)
    (hx : sampleAt u .x i = sampleAt s .x i) : noisySample u sd i = noisySample s sd i := by
  rw [noisySample, noisySample, hseed, hx]

/-- Settles O29: the powers are functions of X and SNR_DB, and with them each entry of Y of X and SEED. -/
theorem sameSeedSameNoise : Obligations.SameSeedSameNoise := by
  intro s u hseed hsnr hlen hpos hfits hx
  have hs := exec_noiseAdd_success s hpos hfits
  have hu := exec_noiseAdd_success u (hlen ▸ hpos) (hlen ▸ hfits)
  have hlenY : (noiseAdded u).lenY = (noiseAdded s).lenY := by
    rw [noiseAdded_lenY, noiseAdded_lenY, hlen]
  have hsig : (noiseAdded u).sigpwr = (noiseAdded s).sigpwr := by
    rw [noiseAdded_sigpwr, noiseAdded_sigpwr, hlen, sampleSeq_of_entries hx]
  have hnoise : (noiseAdded u).noisepwr = (noiseAdded s).noisepwr := by
    rw [noiseAdded_noisepwr, noiseAdded_noisepwr, hsig, hsnr]
  refine ⟨noiseAdded s, noiseAdded u, hs, hu, hlenY, hsig, hnoise, fun i hi => ?_⟩
  rw [sampleAt_noiseAdded_inside s hi, sampleAt_noiseAdded_inside u (hlen ▸ hi), hnoise,
    noisySample_of_entry _ hseed (hx i hi)]

end Sys2Proof.Machine
end

section
/-! PROOFS. The channel model (43_channel_model.md): the slicer on every value (R150), what ENCODE (R141), DECODE
(R143), MODULATE (R145) and DEMODULATE (R149) leave, and the noiseless round trip (R151, R152). -/

namespace Sys2Proof.Machine

/-! ### The slicer -/

/-- A value that is no NaN has a key, and its magnitudes compare with those of the finite values as the patterns
do. -/
theorem exists_orderKey {v : F64} (hn : isNaN v = false) :
    ∃ m, orderKey (unpack v) = some (signedUnits (signBit v) m) ∧
      ∀ w, isFinite w = true → (patternMagnitude (magnitudeBits w) < m ↔ magnitudeBits w < magnitudeBits v) := by
  rcases finite_or_infinite hn with hf | hi
  · exact ⟨_, orderKey_of_finite v hf, fun w _ => patternMagnitude_lt_iff _ _⟩
  · refine ⟨2 ^ 2098, by rw [unpack_of_infinite v hi]; rfl, fun w hw => ?_⟩
    have hlt := (isFinite_iff w).1 hw
    rw [hi]
    exact iff_of_true (patternMagnitude_lt _ hlt) hlt

/-- A signed number lies outside the interval from `-b` to `b` exactly where its magnitude is above `b`. -/
theorem signedUnits_outside_iff (neg : Bool) (m b : Nat) :
    (b : Int) < signedUnits neg m ∨ signedUnits neg m < -(b : Int) ↔ b < m := by
  cases neg <;> simp only [signedUnits, if_true, if_false, Bool.false_eq_true] <;> omega

theorem isFinite_tQam : isFinite tQam = true := by decide

theorem magnitudeBits_tQam : magnitudeBits tQam = tQam.toNat := by decide

theorem unitsOf_tQam : unitsOf tQam = patternMagnitude (magnitudeBits tQam) := by
  have hsign : signBit tQam = false := by decide
  rw [unitsOf, hsign, signedUnits, if_neg Bool.false_ne_true]

theorem sliceLow_eq_false (v : F64) : sliceLow v = false ↔ fgt v tQam = true ∨ flt v (fneg tQam) = true := by
  rw [sliceLow, Bool.not_eq_false', Bool.or_eq_true]

theorem sliceLow_of_NaN {v : F64} (hn : isNaN v = true) : sliceLow v = true := by
  have hkey := orderKey_of_NaN v hn
  have hgt : fgt v tQam = false := fgt_of_no_key (.inl hkey)
  have hlt : flt v (fneg tQam) = false := fgt_of_no_key (.inr hkey)
  rw [sliceLow, hgt, hlt]
  rfl

/-- The low bit is 0 exactly beyond `T_QAM` on either side (R150). -/
theorem sliceLow_eq_false_iff {v : F64} (hn : isNaN v = false) :
    sliceLow v = false ↔ tQam.toNat < magnitudeBits v := by
  obtain ⟨m, hkey, hcompare⟩ := exists_orderKey hn
  have hpos := orderKey_of_finite tQam isFinite_tQam
  have hneg := orderKey_of_finite (fneg tQam) ((isFinite_fneg tQam).trans isFinite_tQam)
  rw [sliceLow_eq_false, fgt_of_keys hkey hpos, flt_of_keys hkey hneg, decide_eq_true_iff, decide_eq_true_iff,
    unitsOf_fneg, unitsOf_tQam, signedUnits_outside_iff, hcompare tQam isFinite_tQam, magnitudeBits_tQam]

theorem hard_levelOf (hi lo : Bool) : hard (levelOf (2 * flagBit hi + flagBit lo)) = hi :=
  (congrArg hard (qamLevel_eq hi lo)).symm.trans (hard_qamLevel hi lo)

theorem sliceLow_levelOf (hi lo : Bool) : sliceLow (levelOf (2 * flagBit hi + flagBit lo)) = lo :=
  (congrArg sliceLow (qamLevel_eq hi lo)).symm.trans (sliceLow_qamLevel hi lo)

/-- Settles O36: the high bit is the hard decision, the low bit compares magnitudes with `T_QAM`. -/
theorem slicerOfEveryValue : Obligations.SlicerOfEveryValue := by
  refine ⟨fun v hn => ⟨fgt_of_no_key (.inl (orderKey_of_NaN v hn)), sliceLow_of_NaN hn⟩,
    fun v hn => ⟨?_, sliceLow_eq_false_iff hn⟩, fun hi lo => ⟨hard_levelOf hi lo, sliceLow_levelOf hi lo⟩⟩
  exact (hardDecisionOfEveryValue v).trans (and_iff_right hn)

/-! ### The checks on the lengths -/

section Commands
variable {s : State} {m : Modulation} {c : Coding}

/-- A coded length above DEPTH fails one of the two capacity checks, whichever of them comes first (R140, R182). -/
theorem complete_codedAboveCapacity (s : State) {n k : Nat} (o : Except ErrorCode State) (h : Config.depth < k) :
    complete s (if overCapacity n then .error .capacity else if overCapacity k then .error .capacity else o) =
      .next (flagsError .capacity s) := by
  rw [if_pos (overCapacity_eq_true.2 h), ite_self, complete_error]

/-- ENCODE and MODULATE check the coded length of BA. -/
theorem exec_codedAboveCapacity {i : Instr} (hi : i = .encode ∨ i = .modulate) (hs : schemeOf s = some (m, c))
    (h : Config.depth < codedPerBit c * s.lenBa.toNat) : exec i s = .next (flagsError .capacity s) := by
  rcases hi with rfl | rfl
  · simp only [exec, execEncode, hs]
    exact complete_codedAboveCapacity s _ h
  · simp only [exec, execModulate, hs]
    exact complete_codedAboveCapacity s _ h

/-- DECODE and DEMODULATE check the length of Y. -/
theorem exec_lenYAboveCapacity {i : Instr} (hi : i = .decode ∨ i = .demodulate) (hs : schemeOf s = some (m, c))
    (h : Config.depth < s.lenY.toNat) : exec i s = .next (flagsError .capacity s) := by
  rcases hi with rfl | rfl
  · simp only [exec, execDecode, hs]
    exact complete_aboveCapacity s _ h
  · simp only [exec, execDemodulate, hs]
    exact complete_aboveCapacity s _ h

end Commands

/-! ### The sequences the commands write -/

theorem hardSeq_length (s : State) (n : Nat) : ((sampleSeq s .y n).map hard).length = n := by
  rw [List.length_map, sampleSeq_length]

theorem hardSeq_getD (s : State) (n j : Nat) (h : j < ((sampleSeq s .y n).map hard).length) :
    ((sampleSeq s .y n).map hard).getD j false = hard (sampleAt s .y j) := by
  have hj : j < n := hardSeq_length s n ▸ h
  simp [sampleSeq, hj]

theorem sliceSymbols_sampleSeq_length (s : State) (m : Modulation) (n : Nat) :
    (sliceSymbols m (sampleSeq s .y n)).length = wholeSymbols m n := by
  rw [sliceSymbols_length, sampleSeq_length, wholeSymbols_eq]

theorem mapSymbols_encodeSeq_length (s : State) (m : Modulation) (c : Coding) (n : Nat) :
    (mapSymbols m (encodeSeq c (bitSeq s .ba n))).length = wholeSymbols m (codedPerBit c * n) := by
  rw [mapSymbols_length, encodeSeq_bitSeq_length, wholeSymbols_eq]

theorem encodeSeq_getD (s : State) (c : Coding) (n j : Nat) (h : j < (encodeSeq c (bitSeq s .ba n)).length) :
    (encodeSeq c (bitSeq s .ba n)).getD j false = codedBit s c j := by
  rw [← encodeSeq_getElem s c n j h, List.getD_eq_getElem _ _ h]

/-! ### The four commands -/

/-- Settles O30: past the checks the output is the coded stream, entry by entry its taps. -/
theorem encodeRule : Obligations.EncodeRule := by
  refine ⟨rfl, fun s => ⟨exec_reservedScheme (.inl rfl), fun m c hm hc => ?_⟩⟩
  have hs := schemeOf_some s m c hm hc
  refine ⟨exec_codedAboveCapacity (.inl rfl) hs, fun hfits => ?_⟩
  have hrun := execEncode_success s m c hs ((le_codedPerBit c _).trans hfits) hfits
  obtain ⟨t, ht, hspec⟩ := outputBits_spec s _ _ (encodeSeq_bitSeq_length s c _) hfits (codedBit s c)
    (encodeSeq_getElem s c _)
  exact ⟨t, hrun.trans (congrArg _ ht), hspec⟩

/-- Settles O31: past the checks the output is the decoded hard decisions of Y. -/
theorem decodeRule : Obligations.DecodeRule := by
  refine ⟨rfl, fun s => ⟨exec_reservedScheme (.inr (.inl rfl)), fun m c hm hc => ?_⟩⟩
  have hs := schemeOf_some s m c hm hc
  refine ⟨exec_lenYAboveCapacity (.inl rfl) hs, fun hfits => ?_⟩
  have hrun := execDecode_success s m c hs hfits
  have hlen := (decodeHard_length c _).trans (congrArg _ (hardSeq_length s s.lenY.toNat))
  obtain ⟨t, ht, hspec⟩ := outputBits_spec s _ _ hlen ((decodedLength_le c _).trans hfits) _
    fun k hk => decodeHard_getElem c _ k _ (hardSeq_getD s _) hk
  exact ⟨t, hrun.trans (congrArg _ ht), hspec⟩

/-- Settles O32: past the checks the output is the symbols of the coded stream. -/
theorem modulateRule : Obligations.ModulateRule := by
  refine ⟨rfl, fun s => ⟨exec_reservedScheme (.inr (.inr (.inl rfl))), fun m c hm hc => ?_⟩⟩
  have hs := schemeOf_some s m c hm hc
  refine ⟨exec_codedAboveCapacity (.inr rfl) hs, fun hfits => ?_⟩
  have hrun := execModulate_success s m c hs ((le_codedPerBit c _).trans hfits) hfits
  obtain ⟨t, ht, hspec⟩ := outputX_spec s _ _ (mapSymbols_encodeSeq_length s m c _)
    ((wholeSymbols_le m _).trans hfits) _ fun j hj => mapSymbols_getElem m _ _ (encodeSeq_getD s c _) j hj
  exact ⟨t, hrun.trans (congrArg _ ht), hspec⟩

/-- Settles O33: as O31, on the slicer's bits. -/
theorem demodulateRule : Obligations.DemodulateRule := by
  refine ⟨rfl, fun s => ⟨exec_reservedScheme (.inr (.inr (.inr rfl))), fun m c hm hc => ?_⟩⟩
  have hs := schemeOf_some s m c hm hc
  refine ⟨exec_lenYAboveCapacity (.inr rfl) hs, fun hfits => ?_⟩
  have hrun := execDemodulate_success s m c hs hfits
  have hlen := (decodeHard_length c _).trans (congrArg _ (sliceSymbols_sampleSeq_length s m s.lenY.toNat))
  have hdepth := ((decodedLength_le c _).trans (wholeSymbols_le m _)).trans hfits
  obtain ⟨t, ht, hspec⟩ := outputBits_spec s _ _ hlen hdepth _
    fun k hk => decodeHard_getElem c _ k _ (sliceSymbols_getD s m _) hk
  exact ⟨t, hrun.trans (congrArg _ ht), hspec⟩

/-! ### The noiseless round trip -/

theorem symbolEntry_qam16_I (f : Nat → Bool) (g : Nat) :
    symbolEntry .qam16 f (4 * g) = levelOf (2 * flagBit (f (4 * g)) + flagBit (f (4 * g + 1))) := by
  have hg : 4 * g / 4 = g := by omega
  simp only [symbolEntry, hg, if_pos (show 4 * g % 2 = 0 by omega)]

theorem symbolEntry_qam16_Q (f : Nat → Bool) (g : Nat) :
    symbolEntry .qam16 f (4 * g + 1) = levelOf (2 * flagBit (f (4 * g + 2)) + flagBit (f (4 * g + 3))) := by
  have hg : (4 * g + 1) / 4 = g := by omega
  simp only [symbolEntry, hg, if_neg (show ¬ (4 * g + 1) % 2 = 0 by omega)]

/-- The hard bits of whole symbols in Y are the bits that the symbols were made of (R151). -/
theorem hardBit_of_symbols {u : State} {m : Modulation} {f : Nat → Bool} {n : Nat}
    (hy : ∀ i, i < wholeSymbols m n → sampleAt u .y i = symbolEntry m f i) {j : Nat} (hj : j < wholeSymbols m n) :
    hardBit u m j = f j := by
  cases m with
  | bpsk => exact (congrArg hard (hy j hj)).trans (hard_mapBpsk (f j))
  | qpsk => exact (congrArg hard (hy j hj)).trans (hard_mapQpsk (f j))
  | qam16 =>
    obtain ⟨g, r, hr, rfl⟩ : ∃ g r, r < 4 ∧ j = 4 * g + r := ⟨j / 4, j % 4, by omega, by omega⟩
    have hlast : 4 * g + 3 < wholeSymbols .qam16 n := by
      simp only [wholeSymbols] at hj ⊢
      omega
    have hI := (hy (4 * g) (by omega)).trans (symbolEntry_qam16_I f g)
    have hQ := (hy (4 * g + 1) (by omega)).trans (symbolEntry_qam16_Q f g)
    have hg : (4 * g + r) / 4 = g := by omega
    have hmod : (4 * g + r) % 4 = r := by omega
    simp only [hardBit, hg, hmod, hI, hQ, hard_levelOf, sliceLow_levelOf]
    interval_cases r <;> rfl

/-- The two coded bits of an input differ exactly by the input before it: the taps 111 and 101 (R152). -/
theorem codedBit_pair (s : State) (k : Nat) :
    (codedBit s .convolutional (2 * k) ^^ codedBit s .convolutional (2 * k + 1)) = priorBit s k 1 := by
  have hk : 2 * k / 2 = k := by omega
  have hk' : (2 * k + 1) / 2 = k := by omega
  simp only [codedBit, hk, hk', if_pos (show 2 * k % 2 = 0 by omega),
    if_neg (show ¬ (2 * k + 1) % 2 = 0 by omega)]
  have cancel : ∀ a p q : Bool, (((a ^^ p) ^^ q) ^^ (a ^^ q)) = p := by decide
  exact cancel _ _ _

/-- A decoded bit depends on the hard bits within the length alone. -/
theorem decodedBit_congr {c : Coding} {f h : Nat → Bool} {n k : Nat} (hf : ∀ j, j < n → h j = f j)
    (hk : k < decodedLength c n) : decodedBit c h k = decodedBit c f k := by
  cases c with
  | none => exact hf k hk
  | convolutional =>
    simp only [decodedLength] at hk
    simp only [decodedBit, hf (2 * k) (by omega), hf (2 * k + 1) (by omega)]

theorem decodedLength_convolutional (m : Modulation) (n : Nat) :
    decodedLength .convolutional (wholeSymbols m (codedPerBit .convolutional * n)) =
      if m = .qam16 then 2 * (n / 2) else n := by
  cases m with
  | bpsk => simp [decodedLength, wholeSymbols, codedPerBit]
  | qpsk => simp [decodedLength, wholeSymbols, codedPerBit]
  | qam16 =>
    simp only [decodedLength, wholeSymbols, codedPerBit, if_true]
    omega

section RoundTrip
variable {s t : State} {m : Modulation} {c : Coding}

/-- What a run of MODULATE leaves in X, by its rule. -/
theorem modulate_symbols (hm : modulationOf s.ctrlMod = some m) (hc : codingOf s.ctrlCod = some c)
    (hfits : codedPerBit c * s.lenBa.toNat ≤ Config.depth) (hrun : exec .modulate s = .next t) :
    t.lenX.toNat = wholeSymbols m (codedPerBit c * s.lenBa.toNat) ∧
      ∀ j, j < t.lenX.toNat → sampleAt t .x j = symbolEntry m (codedBit s c) j := by
  obtain ⟨_, hrule⟩ := modulateRule
  obtain ⟨_, hscheme⟩ := hrule s
  obtain ⟨_, hok⟩ := hscheme m c hm hc
  obtain ⟨t', ht', _, hlen, hx, _⟩ := hok hfits
  cases hrun.symm.trans ht'
  exact ⟨hlen, hx⟩

/-- What DEMODULATE leaves in BB, by its rule. -/
theorem demodulate_bits (hm : modulationOf s.ctrlMod = some m) (hc : codingOf s.ctrlCod = some c)
    (hfits : s.lenY.toNat ≤ Config.depth) :
    ∃ v, exec .demodulate s = .next v ∧ v.statusErr = false ∧
      v.lenBb.toNat = decodedLength c (wholeSymbols m s.lenY.toNat) ∧
        ∀ k, k < v.lenBb.toNat → bitAt v .bb k = decodedBit c (hardBit s m) k := by
  obtain ⟨_, hrule⟩ := demodulateRule
  obtain ⟨_, hscheme⟩ := hrule s
  obtain ⟨_, hok⟩ := hscheme m c hm hc
  obtain ⟨v, hv, hframe, hlen, hbb, _⟩ := hok hfits
  exact ⟨v, hv, (congrArg State.statusErr hframe).trans rfl, hlen, hbb⟩

end RoundTrip

theorem wholeSymbols_wholeSymbols (m : Modulation) (n : Nat) :
    wholeSymbols m (wholeSymbols m n) = wholeSymbols m n := by
  cases m <;> simp only [wholeSymbols] <;> omega

/-- Settles O34, from the rules of MODULATE and DEMODULATE: the hard bits are the coded bits of whole symbols, and
a pair of coded bits decodes to the input before it. -/
theorem noiselessRoundTrip : Obligations.NoiselessRoundTrip := by
  refine ⟨decodePairs_convEncode 0, fun s t u m c hm hc hfits hrun hmod hcod hlen hcopy => ?_⟩
  obtain ⟨hlenX, hx⟩ := modulate_symbols hm hc hfits hrun
  have hlenY : u.lenY.toNat = wholeSymbols m (codedPerBit c * s.lenBa.toNat) := (congrArg _ hlen).trans hlenX
  have hdepth : u.lenY.toNat ≤ Config.depth := hlenY ▸ (wholeSymbols_le m _).trans hfits
  obtain ⟨v, hv, herr, hlenBb, hbb⟩ := demodulate_bits (hmod ▸ hm) (hcod ▸ hc) hdepth
  rw [hlenY, wholeSymbols_wholeSymbols] at hlenBb
  have hhard (j : Nat) (hj : j < wholeSymbols m (codedPerBit c * s.lenBa.toNat)) :
      hardBit u m j = codedBit s c j :=
    hardBit_of_symbols (fun i hi => (hcopy i (hlenX ▸ hi)).trans (hx i (hlenX ▸ hi))) hj
  have hbits (k : Nat) (hk : k < v.lenBb.toNat) : bitAt v .bb k = decodedBit c (codedBit s c) k :=
    (hbb k hk).trans (decodedBit_congr hhard (hlenBb ▸ hk))
  refine ⟨v, hv, herr, ?_, ?_⟩
  · rintro rfl
    rw [codedPerBit, Nat.one_mul] at hlenBb
    exact ⟨hlenBb, hbits⟩
  · rintro rfl
    exact ⟨hlenBb.trans (decodedLength_convolutional m _), fun k hk => (hbits k hk).trans (codedBit_pair s k)⟩

end Sys2Proof.Machine
end

section
/-! PROOFS. The analyzer (44_analyzer.md): the three checks of SNR_MEASURE in their order (R182) and what it
leaves (R170). -/

namespace Sys2Proof.Machine

section SnrMeasure
variable {s : State}

/-! ### The checks -/

/-- The first check takes both lengths. -/
theorem execSnrMeasure_aboveCapacity (h : Config.depth < s.lenX.toNat ∨ Config.depth < s.lenY.toNat) :
    execSnrMeasure s = .next (flagsError .capacity s) := by
  have hfirst : (overCapacity s.lenX.toNat || overCapacity s.lenY.toNat) = true := by
    rwa [Bool.or_eq_true, overCapacity_eq_true, overCapacity_eq_true]
  rw [execSnrMeasure, if_pos hfirst, complete_error]

/-- Lengths within DEPTH pass the first check. -/
theorem not_overCapacity_or (hx : s.lenX.toNat ≤ Config.depth) (hy : s.lenY.toNat ≤ Config.depth) :
    ¬(overCapacity s.lenX.toNat || overCapacity s.lenY.toNat) = true := by
  rw [overCapacity_eq_false.2 hx, overCapacity_eq_false.2 hy]
  exact Bool.false_ne_true

theorem execSnrMeasure_lengthMismatch (hx : s.lenX.toNat ≤ Config.depth) (hy : s.lenY.toNat ≤ Config.depth)
    (hne : s.lenX ≠ s.lenY) : execSnrMeasure s = .next (flagsError .lengthMismatch s) := by
  rw [execSnrMeasure, if_neg (not_overCapacity_or hx hy), if_pos hne, complete_error]

theorem execSnrMeasure_emptyInput (hx : s.lenX.toNat ≤ Config.depth) (hy : s.lenY.toNat ≤ Config.depth)
    (heq : s.lenX = s.lenY) (h0 : s.lenX.toNat = 0) : execSnrMeasure s = .next (flagsError .emptyInput s) := by
  rw [execSnrMeasure, if_neg (not_overCapacity_or hx hy), if_neg (not_not_intro heq), if_pos h0, complete_error]

end SnrMeasure

/-! ### The command -/

/-- Settles O38: each check's completion is its error's, and success leaves the two powers, their ratio in dB and
the flags; no store is written. -/
theorem snrMeasureRule : Obligations.SnrMeasureRule := by
  refine ⟨rfl, fun s => ⟨execSnrMeasure_aboveCapacity, fun hx hy => ⟨execSnrMeasure_lengthMismatch hx hy,
    execSnrMeasure_emptyInput hx hy, fun heq hpos => ?_⟩⟩⟩
  exact ⟨_, execSnrMeasure_success s hx heq hpos.ne', rfl, byteAt_of_memories rfl rfl rfl rfl rfl⟩

end Sys2Proof.Machine
end

section
/-! PROOFS. Errors (60_exceptions.md): no event stops the block (R180, R186), a completion reports the first check of
R182 that fails, and an error leaves no partial result (R183, R184). -/

namespace Sys2Proof.Machine

/-! ### Nothing stops the block -/

/-- Settles O20: with an empty agenda the engine steps, else the first event takes place, and neither stops. -/
theorem stepAlwaysAnswersNext : Obligations.StepAlwaysAnswersNext := by
  intro s
  cases ha : s.agenda with
  | nil =>
    obtain ⟨t, he, _⟩ := engineStep_idle { s with agenda := [] }
    exact ⟨t, (step_engine s [] (.inr ⟨ha, rfl⟩)).trans he⟩
  | cons e rest =>
    obtain ⟨t, he, _⟩ := performEvent_next e { s with agenda := rest }
    exact ⟨t, (step_event s e rest ha).trans he⟩

/-! ### No partial result -/

theorem byteAt_flagsError (e : ErrorCode) (s : State) (a : Nat) : byteAt (flagsError e s) a = byteAt s a :=
  byteAt_of_memories rfl rfl rfl rfl rfl a

theorem errorNumber_ne_zero (e : ErrorCode) : errorNumber e ≠ 0 := by cases e <;> decide

/-- Settles O40: a completion is the error's, made on the state it found, or a success, which clears ERR. -/
theorem errorLeavesNoPartialResult : Obligations.ErrorLeavesNoPartialResult := by
  intro i s t hs herr
  rcases exec_cases i s with ⟨e, he⟩ | ⟨u, hu, _⟩
  · cases hs.symm.trans he
    exact ⟨rfl, errorNumber_ne_zero e, byteAt_flagsError e s⟩
  · cases hs.symm.trans hu
    cases herr

/-! ### The code a completion reports -/

/-- The code that a command's checks and results come to: the error's number, 0 without one (R181, R183). -/
def reportedCode : Except ErrorCode State → BitVec 4
  | .ok _ => 0
  | .error e => errorNumber e

/-- A completion leaves that code in ERRCODE, and ERR with it. -/
theorem complete_reportedCode (s : State) (o : Except ErrorCode State) :
    ∃ t, complete s o = .next t ∧ t.errcode = reportedCode o ∧ (t.statusErr = true ↔ t.errcode ≠ 0) := by
  cases o with
  | ok u =>
    obtain ⟨_, _, herr, _⟩ := flagsSuccess_flagsOk u
    exact ⟨_, rfl, rfl, herr⟩
  | error e =>
    obtain ⟨_, _, herr, _⟩ := flagsError_flagsOk e s
    exact ⟨_, rfl, rfl, herr⟩

/-- The checks `o` come to the code of the first row that fails (R182). -/
def reportsFirst (o : Except ErrorCode State) (rows : List (Bool × BitVec 4)) : Prop :=
  reportedCode o = firstFailing rows

section Rows
variable {o : Except ErrorCode State} {rows : List (Bool × BitVec 4)}

theorem reportsFirst_ok (u : State) : reportsFirst (.ok u) [] := rfl

theorem reportsFirst_fails {b : Bool} {e : ErrorCode} (hb : b = true) :
    reportsFirst (.error e) ((b, errorNumber e) :: rows) := by
  subst hb
  rfl

/-- A row that does not apply, or passes, is no part of the code. -/
theorem reportsFirst_passes {b : Bool} {n : BitVec 4} (hb : b = false) (h : reportsFirst o rows) :
    reportsFirst o ((b, n) :: rows) := by
  subst hb
  exact h

/-- A check of the command is the next row, where the row fails exactly if the check does. -/
theorem reportsFirst_check {c : Prop} [Decidable c] {b : Bool} {e : ErrorCode} (hb : b = true ↔ c)
    (h : reportsFirst o rows) : reportsFirst (if c then .error e else o) ((b, errorNumber e) :: rows) := by
  split
  · next hc => exact reportsFirst_fails (hb.2 hc)
  · next hc => exact reportsFirst_passes (Bool.eq_false_iff.2 (mt hb.1 hc)) h

end Rows

/-! ### The scheme check -/

theorem modulationOf_eq_none : ∀ m : BitVec 2, modulationOf m = none → m.toNat = 3 := by decide

theorem codingOf_eq_none : ∀ c : BitVec 2, codingOf c = none → 2 ≤ c.toNat := by decide

theorem codedPerBit_codingOf : ∀ c : BitVec 2, ∀ k ∈ codingOf c, codedPerBit k = if c.toNat = 1 then 2 else 1 := by
  decide

theorem codingOf_of_schemeOf {s : State} {m : Modulation} {c : Coding} (h : schemeOf s = some (m, c)) :
    codingOf s.ctrlCod = some c := by
  unfold schemeOf at h
  split at h
  · next hc =>
    cases h
    exact hc
  · cases h
  · cases h

/-- The row of check 2 of R182, for a ChannelModel command. -/
def schemeRow (s : State) : Bool := decide (s.ctrlMod.toNat = 3) || decide (2 ≤ s.ctrlCod.toNat)

theorem schemeRow_eq_true (s : State) : schemeRow s = true ↔ s.ctrlMod.toNat = 3 ∨ 2 ≤ s.ctrlCod.toNat := by
  rw [schemeRow, Bool.or_eq_true, decide_eq_true_iff, decide_eq_true_iff]

theorem schemeRow_of_none {s : State} (h : schemeOf s = none) : schemeRow s = true := by
  rw [schemeRow_eq_true]
  cases hm : modulationOf s.ctrlMod with
  | none => exact .inl (modulationOf_eq_none _ hm)
  | some m =>
    cases hc : codingOf s.ctrlCod with
    | none => exact .inr (codingOf_eq_none _ hc)
    | some c => cases h.symm.trans (schemeOf_some s m c hm hc)

theorem schemeRow_of_some {s : State} {p : Modulation × Coding} (h : schemeOf s = some p) : schemeRow s = false := by
  refine Bool.eq_false_iff.2 fun hrow => ?_
  cases h.symm.trans (schemeOf_reserved s ((schemeRow_eq_true s).1 hrow))

/-- The row of check 6 of R182 takes the coded bits per input bit from CTRL.COD by its number. -/
theorem codedRow_iff {s : State} {m : Modulation} {c : Coding} (h : schemeOf s = some (m, c)) :
    decide (Config.depth < (if s.ctrlCod.toNat = 1 then 2 else 1) * s.lenBa.toNat) = true ↔
      overCapacity (codedPerBit c * s.lenBa.toNat) = true := by
  rw [codedPerBit_codingOf _ c (codingOf_of_schemeOf h), overCapacity]

/-! ### The commands' checks against the table -/

/-- A command's checks are those rows of R182's table that apply to it, in the table's order. -/
theorem exec_reportsFirst (i : Instr) (s : State) :
    ∃ o, exec i s = complete s o ∧ reportsFirst o (checkTable i s) := by
  cases i with
  | noisePower | ebn0 =>
    exact ⟨_, rfl, reportsFirst_passes rfl (reportsFirst_check Iff.rfl (reportsFirst_passes rfl
      (reportsFirst_check decide_eq_true_iff (reportsFirst_passes rfl (reportsFirst_ok _)))))⟩
  | noiseAdd =>
    refine ⟨_, rfl, reportsFirst_passes rfl (reportsFirst_check Iff.rfl ?_)⟩
    -- the empty input is no error here: both branches succeed (R132)
    split <;> exact reportsFirst_passes rfl (reportsFirst_passes rfl (reportsFirst_passes rfl (reportsFirst_ok _)))
  | encode | modulate =>
    refine ⟨_, rfl, ?_⟩
    split
    · next hs => exact reportsFirst_fails (schemeRow_of_none hs)
    · next hs =>
      exact reportsFirst_passes (schemeRow_of_some hs) (reportsFirst_check Iff.rfl (reportsFirst_passes rfl
        (reportsFirst_passes rfl (reportsFirst_check (codedRow_iff hs) (reportsFirst_ok _)))))
  | decode | demodulate =>
    refine ⟨_, rfl, ?_⟩
    split
    · next hs => exact reportsFirst_fails (schemeRow_of_none hs)
    · next hs =>
      exact reportsFirst_passes (schemeRow_of_some hs) (reportsFirst_check Iff.rfl (reportsFirst_passes rfl
        (reportsFirst_passes rfl (reportsFirst_passes rfl (reportsFirst_ok _)))))
  | snrMeasure =>
    have hlong : inputTooLong .snrMeasure s = true ↔
        (overCapacity s.lenX.toNat || overCapacity s.lenY.toNat) = true := by
      simp [inputTooLong]
    exact ⟨_, rfl, reportsFirst_passes rfl (reportsFirst_check hlong (reportsFirst_check decide_eq_true_iff
      (reportsFirst_check decide_eq_true_iff (reportsFirst_passes rfl (reportsFirst_ok _)))))⟩

/-- Settles O39: a completion leaves the code that its checks come to; an illegal word's leaves code 1. -/
theorem firstFailingCheckIsReported : Obligations.FirstFailingCheckIsReported := by
  refine ⟨fun i s => ?_, fun s w e hp hd => ⟨_, engineStep_illegal hp hd, rfl, rfl⟩⟩
  obtain ⟨o, ho, hcode⟩ := exec_reportsFirst i s
  obtain ⟨t, ht, herrcode, herr⟩ := complete_reportedCode s o
  exact ⟨t, ho.trans ht, herrcode.trans hcode, herr⟩

end Sys2Proof.Machine
end

section
/-! PROOFS. Reset (70_reset_and_hazards.md): what a reset event leaves in the registers and the buffers (R201), whether
or not a command is pending (R202). -/

namespace Sys2Proof.Machine

/-! ### The block after a reset event -/

section ResetBlock
variable (s : State)

/-- No register shows a field that a reset event keeps (log 14). -/
theorem readReg_resetBlock (r : Reg) : readReg (resetBlock s) r = readReg State.reset r := by
  cases r <;> rfl

@[simp] theorem bitStore_resetBlock (b : BitBuf) : bitStore (resetBlock s) b = [] := by
  cases b <;> rfl

@[simp] theorem sampleStore_resetBlock (b : SampleBuf) : sampleStore (resetBlock s) b = [] := by
  cases b <;> rfl

/-- Nothing is written right after a reset event, so each bit reads as the next draw (R201). -/
theorem bitAt_resetBlock (b : BitBuf) (j : Nat) :
    bitAt (resetBlock s) b j = Config.resetBit (s.resetCount + 1) b j := by
  rw [bitAt_unwritten (bitStore_resetBlock s b), resetBlock_resetCount]

theorem sampleByte_resetBlock (b : SampleBuf) (a : Nat) :
    sampleByte (resetBlock s) b a = Config.resetByte (s.resetCount + 1) b a := by
  rw [sampleByte_unwritten (sampleStore_resetBlock s b), resetBlock_resetCount]

end ResetBlock

/-! ### The reset event -/

/-- Settles O18: whatever the phase, the step is `resetBlock` of the state with the event taken off the agenda. -/
theorem resetEventAbandonsAndClears : Obligations.ResetEventAbandonsAndClears := by
  intro s rest ha
  have hregs (r : Reg) := (readReg_resetBlock { s with agenda := rest } r).trans (readReg_reset r)
  exact ⟨_, step_reset s rest ha, resetBlock_phase _, hregs, bitAt_resetBlock _, sampleByte_resetBlock _,
    resetBlock_agenda _, resetBlock_response _, resetBlock_drawCount _⟩

end Sys2Proof.Machine
end

section
/-! PROOFS. The sparse memories (20_memory.md): a canonical list of written bytes is determined by what it holds. -/

namespace Sys2Proof.Machine

/-- Settles O24: `store_ext`; the rising keys alone fix the list, their window is not needed. -/
theorem canonicalMemoryIsUnique : Obligations.CanonicalMemoryIsUnique := by
  intro lo hi m n ⟨hm, _⟩ ⟨hn, _⟩ hget
  exact store_ext m n hm hn hget

end Sys2Proof.Machine
end
